-- ==== Sys2Proof/Word.lean ====
section
/-! DEFINITION. The two value domains of the core, Bit and Word (spec/00_scope.md R6 to R11), the integer
readings of a word, and the values and types a wire can have. -/

namespace Sys2Proof

/-- A byte of the textual form of a netlist (30_encoding.md R51). The core itself has no bytes (R34). -/
abbrev Byte := BitVec 8

/-- R6: "an immutable two-valued tag, `HIGH` or `LOW`". There is no third value. -/
inductive Bit where
  | LOW
  | HIGH
  deriving DecidableEq, Repr

/-- R7: `HIGH` counts as 1 and `LOW` as 0. -/
def Bit.toNat : Bit → Nat
  | .LOW => 0
  | .HIGH => 1

/-- R8: an ordered sequence of bits indexed from 0. R9: position 0 is the most significant. A word of the
hardware has at least one position; that check is `ZeroWidth` (60_exceptions.md R98). -/
abbrev Word := List Bit

/-- R10: `val(W)`, the sum of `W[i] * 2^(D-1-i)`. -/
def Word.val : Word → Nat
  | [] => 0
  | b :: w => b.toNat * 2 ^ w.length + Word.val w

/-- R10: `word_D(n)`, the word of width `D` whose value is `n mod 2^D`. -/
def Word.ofVal : Nat → Nat → Word
  | 0, _ => []
  | D + 1, n => (if (n / 2 ^ D) % 2 = 1 then .HIGH else .LOW) :: Word.ofVal D n

/-- `sval(W)` of 00_scope.md section 6: the two's-complement reading. A reader's view only (D20); no operation of
the core uses it. -/
def Word.sval (w : Word) : Int :=
  if w.head? = some .HIGH then (Word.val w : Int) - 2 ^ w.length else (Word.val w : Int)

/-- `sig(W, k)` of 00_scope.md section 6: the bit of weight `2^k`, which is `W[D-1-k]`. -/
def Word.sig (w : Word) (k : Nat) : Option Bit :=
  if k < w.length then w[w.length - 1 - k]? else none

/-- `LOW^n` of 00_scope.md section 6. -/
def Word.lows (n : Nat) : Word := List.replicate n .LOW

/-- `HIGH^n` of 42_word_ops.md section 1. -/
def Word.highs (n : Nat) : Word := List.replicate n .HIGH

/-- R11, R41: a function-select, the 3-bit word `(f0, f1, f2)`. -/
structure FunctionSelect where
  f0 : Bit
  f1 : Bit
  f2 : Bit
  deriving DecidableEq, Repr

/-- R41: as a word, position 0 is `f0`, position 1 is `f1`, position 2 is `f2`. -/
def FunctionSelect.toWord (f : FunctionSelect) : Word := [f.f0, f.f1, f.f2]

/-- The value a wire or a literal carries: a Bit or a Word. A `Word(1)` is not a Bit (60_exceptions.md R95). -/
inductive Value where
  | bit (b : Bit)
  | word (w : Word)
  deriving DecidableEq, Repr

/-- R49: the type of a wire, `bit` or `word D`. The width is an integer, so that a declaration of width zero or less can
be written down and refused by name (`ZeroWidth`, 60_exceptions.md R94). -/
inductive Ty where
  | bit
  | word (width : Int)
  deriving DecidableEq, Repr

/-- The type of a value. -/
def Value.ty : Value → Ty
  | .bit _ => .bit
  | .word w => .word w.length

end Sys2Proof
end

