-- ==== Sys2Proof/Config.lean ====
section
/-! DEFINITION. The implementation parameters of spec/00_scope.md R5 that are not widths of one instance. -/

namespace Sys2Proof

/-- RESERVED_F_POLICY (R5, 43_alu.md R87, D6): what an ALU does with a function-select outside the defined table. -/
inductive ReservedFPolicy where
  /-- The default: such an instance or evaluation is refused. -/
  | refuse
  /-- The result is the one the composition of R80 produces. A claim proved under this setting must say so (R87). -/
  | datapath
  deriving DecidableEq, Repr

/-- MUX_SUM_SEL (R5, 43_alu.md R86, D7): which bit drives the select of the ALU's no-op multiplexer `_mux_sum`,
or that the multiplexer is left out. Unobservable under the NAND primitive. -/
inductive MuxSumSel where
  | f0
  | f1
  | f2
  | omitted
  deriving DecidableEq, Repr

/-- The parameters of one machine. No step changes them. -/
structure Params where
  reservedF : ReservedFPolicy
  muxSum : MuxSumSel
  deriving DecidableEq, Repr

/-- The settings after reset: the spec's default policy, and `_mux_sum` left out (log 4, log 5).
DESIGN CHOICE for `muxSum`: the spec leaves it open and it changes no output; safe. -/
def Config.params : Params := { reservedF := .refuse, muxSum := .omitted }

/-- FW (R5): the width of the function-select word. -/
def Config.selectWidth : Nat := 3

/-- The operand width of the ALU that `decodeTableWord` connects a bare function-select to (log 7). DESIGN CHOICE: the
table gives the select no width; 4 is the width of the ALU in program P6 of spec/95_test_vectors.md; safe. -/
def Config.tableWidth : Nat := 4

end Sys2Proof
end

