-- ==== Sys2Proof/Machine/Cells.lean ====
section
/-! DEFINITION. The function of every cell (spec/40_gates.md, 41_adders_mux.md, 42_word_ops.md, 43_alu.md), each over the primitive
gate as an argument (R56, D18). `nandGate` is the only definition that looks at a bit's identity. -/

namespace Sys2Proof.Machine

open Sys2Proof

/-- The truth table of a primitive gate. The hardware's is `nandGate` (D18). -/
abbrev Prim := Bit → Bit → Bit

/-- R55: `LOW` iff both inputs are `HIGH`; otherwise `HIGH`. -/
def nandGate (a b : Bit) : Bit := if a = .HIGH ∧ b = .HIGH then .LOW else .HIGH

/-- R57. -/
def notGate (g : Prim) (a : Bit) : Bit := g a a

/-- R58. -/
def andGate (g : Prim) (a b : Bit) : Bit := notGate g (g a b)

/-- R59. -/
def orGate (g : Prim) (a b : Bit) : Bit := g (notGate g a) (notGate g b)

/-- R60. -/
def norGate (g : Prim) (a b : Bit) : Bit := notGate g (orGate g a b)

/-- R61, with the source's argument order: `NAND(a,b)` is the first argument of the two middle NANDs. -/
def xorGate (g : Prim) (a b : Bit) : Bit := g (g (g a b) a) (g (g a b) b)

/-- The two outputs of an adder block. -/
structure SumCarry where
  sum : Bit
  carry : Bit
  deriving DecidableEq, Repr

/-- R62. -/
def halfAdder (g : Prim) (a b : Bit) : SumCarry := { sum := xorGate g a b, carry := andGate g a b }

/-- R63. -/
def fullAdder (g : Prim) (a b c : Bit) : SumCarry :=
  { sum := xorGate g (xorGate g a b) c
    carry := orGate g (andGate g a b) (andGate g (xorGate g a b) c) }

/-- R65: `a` when `s` is `LOW`, `b` when `s` is `HIGH`. -/
def muxGate (g : Prim) (a b s : Bit) : Bit := orGate g (andGate g a (notGate g s)) (andGate g b s)

/-- R66: a two-input gate lifted over two words, `R[i] = G(A[i], B[i])`. -/
def lift2 (gate : Bit → Bit → Bit) (A B : Word) : Word := List.zipWith gate A B

/-- R67: the one-input gate lifted over a word, `R[i] = NOT(A[i])`. -/
def wordNot (g : Prim) (A : Word) : Word := A.map (notGate g)

/-- The two outputs of the word adder. -/
structure AddOut where
  sum : Word
  carry : Bit
  deriving DecidableEq, Repr

/-- R73: the carry into a position is the carry out of the next less significant one, and the carry-in at the least
significant end, which is the single base case. -/
def rippleAdd (g : Prim) : Word → Word → Bit → AddOut
  | a :: A, b :: B, cin =>
    let low := rippleAdd g A B cin
    let here := fullAdder g a b low.carry
    { sum := here.sum :: low.sum, carry := here.carry }
  | _, _, cin => { sum := [], carry := cin }

/-- R75: one select bit for every position. -/
def wordMux (g : Prim) (A B : Word) (s : Bit) : Word := List.zipWith (fun a b => muxGate g a b s) A B

/-- R77: zero-extension to width `D`, `LOW^(D-M) ++ A`. -/
def zeroExtend (D : Nat) (A : Word) : Word := Word.lows (D - A.length) ++ A

/-- R13: the bit at position `i` of a word, position 0 the most significant; none outside the word. -/
def bitAt (w : Word) (i : Int) : Option Bit := if 0 ≤ i then w[i.toNat]? else none

/-- R86: the no-op multiplexer on the arithmetic path, with its select taken from the parameter. -/
def muxSum (g : Prim) (sel : MuxSumSel) (f : FunctionSelect) (sum : Word) : Word :=
  match sel with
  | .f0 => wordMux g sum sum f.f0
  | .f1 => wordMux g sum sum f.f1
  | .f2 => wordMux g sum sum f.f2
  | .omitted => sum

/-- R80, R29: the second operand after the conditional complement, `op2'`. -/
def aluOp2 (g : Prim) (f : FunctionSelect) (op2 : Word) : Word := wordMux g op2 (wordNot g op2) f.f0

/-- R80, R29: the logic path. -/
def aluLogic (g : Prim) (f : FunctionSelect) (op1 op2 : Word) : Word :=
  wordMux g (lift2 (orGate g) op1 (aluOp2 g f op2)) (lift2 (andGate g) op1 (aluOp2 g f op2)) f.f1

/-- R80, R29, R86: the arithmetic path; the adder's carry-out is unconnected. -/
def aluArithmetic (g : Prim) (sel : MuxSumSel) (f : FunctionSelect) (op1 op2 : Word) : Word :=
  muxSum g sel f (rippleAdd g op1 (aluOp2 g f op2) f.f0).sum

/-- R80: the ALU's composition, total over all eight function-selects. Which of them the hardware admits is not decided
here (C3). -/
def aluDatapath (g : Prim) (sel : MuxSumSel) (f : FunctionSelect) (op1 op2 : Word) : Word :=
  wordMux g (aluLogic g f op1 op2) (aluArithmetic g sel f op1 op2) f.f2

end Sys2Proof.Machine
end

