-- ==== Sys2Proof/Syntax.lean ====
section
/-! DEFINITION. Names, operands, the 27 operations of spec/opcode_table.json as cell instances, and netlists
(spec/30_encoding.md R49, R51). -/

namespace Sys2Proof

/-- The name of a wire, as the bytes it is written with. -/
abbrev Name := List Byte

/-- R51: `operand ::= name | name "[" int "]" | literal`. -/
inductive Operand where
  | wire (n : Name)
  /-- A bit-position query `n[i]` used as an operand (R13). -/
  | query (n : Name) (i : Int)
  /-- A bit or word literal; a function-select literal is a word of three bits (R52). -/
  | lit (v : Value)
  deriving DecidableEq, Repr

/-- One cell instance per row of the opcode table: its width parameters, what its input ports are connected to (none
for a port left open), and the wires its output ports drive (none for an output left unconnected). The inputs stand
in the source's argument order (10_state.md R25 to R27). -/
inductive Instr where
  /-- R55. -/
  | nand (a b : Option Operand) (y : Option Name)
  /-- R57. -/
  | not (a : Option Operand) (y : Option Name)
  /-- R58. -/
  | and (a b : Option Operand) (y : Option Name)
  /-- R59. -/
  | or (a b : Option Operand) (y : Option Name)
  /-- R60. -/
  | nor (a b : Option Operand) (y : Option Name)
  /-- R61. -/
  | xor (a b : Option Operand) (y : Option Name)
  /-- R62, the half-adder. -/
  | ha (a b : Option Operand) (sum carry : Option Name)
  /-- R63, the full-adder; `c` may be omitted (R28). -/
  | fa (a b c : Option Operand) (sum carry : Option Name)
  /-- R65. -/
  | mux (a b s : Option Operand) (y : Option Name)
  /-- R68. -/
  | wnand (D : Int) (a b : Option Operand) (r : Option Name)
  /-- R67. `extra` is a second word operand, which makes the instance ill-formed. -/
  | wnot (D : Int) (a extra : Option Operand) (r : Option Name)
  /-- R69. -/
  | wand (D : Int) (a b : Option Operand) (r : Option Name)
  /-- R70. -/
  | wor (D : Int) (a b : Option Operand) (r : Option Name)
  /-- R71. -/
  | wnor (D : Int) (a b : Option Operand) (r : Option Name)
  /-- R72. -/
  | wxor (D : Int) (a b : Option Operand) (r : Option Name)
  /-- R73; `cin` may be omitted (R28). -/
  | add (D : Int) (a b cin : Option Operand) (s cout : Option Name)
  /-- R75. -/
  | wmux (D : Int) (a b s : Option Operand) (r : Option Name)
  /-- R77, from width `M` to width `D`. -/
  | conv (M D : Int) (a : Option Operand) (r : Option Name)
  /-- R13, the bit-position query `W[i]` as an instance of its own. -/
  | bitQuery (i : Int) (w : Option Operand) (y : Option Name)
  /-- R82, function-select `000`. -/
  | aluOr (D : Int) (op1 op2 : Option Operand) (r : Option Name)
  /-- R84, function-select `001`. -/
  | aluAdd (D : Int) (op1 op2 : Option Operand) (r : Option Name)
  /-- R83, function-select `010`. -/
  | aluAnd (D : Int) (op1 op2 : Option Operand) (r : Option Name)
  /-- R87, function-select `011`, reserved. -/
  | aluReserved011 (D : Int) (op1 op2 : Option Operand) (r : Option Name)
  /-- R87, function-select `100`, reserved. -/
  | aluReserved100 (D : Int) (op1 op2 : Option Operand) (r : Option Name)
  /-- R85, function-select `101`. -/
  | aluSub (D : Int) (op1 op2 : Option Operand) (r : Option Name)
  /-- R87, function-select `110`, reserved. -/
  | aluReserved110 (D : Int) (op1 op2 : Option Operand) (r : Option Name)
  /-- R87, function-select `111`, reserved. -/
  | aluReserved111 (D : Int) (op1 op2 : Option Operand) (r : Option Name)
  deriving DecidableEq, Repr

/-- One instance of a netlist. An ALU whose function-select is not a literal of three bits becomes one of the eight ALU
operations only when its `F` has a value (43_alu.md R91); every other instance is an operation already. -/
inductive Inst where
  | cell (i : Instr)
  | alu (D : Int) (f op1 op2 : Option Operand) (r : Option Name)
  deriving DecidableEq, Repr

/-- R49: a finite set of named typed wires, some declared inputs and some outputs, and a finite set of instances. The
instances stand in the order they are written, which fixes the reported reason and nothing else (R101). -/
structure Netlist where
  inputs : List (Name × Ty)
  insts : List Inst
  outputs : List Name
  deriving DecidableEq, Repr

end Sys2Proof
end

