-- ==== Sys2Proof/Decode.lean ====
section
/-! DEFINITION. The two encodings the spec gives: the 3-bit function-select of the ALU (spec/30_encoding.md R41 to R44) and the textual
syntax of netlists (R51 to R53), each with its decoder and its encoder, and the rendering of a word (R54). -/

namespace Sys2Proof

/-- The ASCII codes of a string. -/
def ascii (s : String) : List Byte := s.toList.map fun c => BitVec.ofNat 8 c.toNat

/-! ### The function-select (R41 to R44) -/

/-- R43, R44: the operation each of the eight function-select values stands for, on given ports. -/
def decodeSelect (f : FunctionSelect) (D : Int) (op1 op2 : Option Operand) (r : Option Name) : Instr :=
  match f with
  | ⟨.LOW, .LOW, .LOW⟩ => .aluOr D op1 op2 r
  | ⟨.LOW, .LOW, .HIGH⟩ => .aluAdd D op1 op2 r
  | ⟨.LOW, .HIGH, .LOW⟩ => .aluAnd D op1 op2 r
  | ⟨.LOW, .HIGH, .HIGH⟩ => .aluReserved011 D op1 op2 r
  | ⟨.HIGH, .LOW, .LOW⟩ => .aluReserved100 D op1 op2 r
  | ⟨.HIGH, .LOW, .HIGH⟩ => .aluSub D op1 op2 r
  | ⟨.HIGH, .HIGH, .LOW⟩ => .aluReserved110 D op1 op2 r
  | ⟨.HIGH, .HIGH, .HIGH⟩ => .aluReserved111 D op1 op2 r

/-- R43, R44: the function-select of an ALU operation. The other cells have none (R45). -/
def encodeSelect : Instr → Option FunctionSelect
  | .aluOr _ _ _ _ => some ⟨.LOW, .LOW, .LOW⟩
  | .aluAdd _ _ _ _ => some ⟨.LOW, .LOW, .HIGH⟩
  | .aluAnd _ _ _ _ => some ⟨.LOW, .HIGH, .LOW⟩
  | .aluReserved011 _ _ _ _ => some ⟨.LOW, .HIGH, .HIGH⟩
  | .aluReserved100 _ _ _ _ => some ⟨.HIGH, .LOW, .LOW⟩
  | .aluSub _ _ _ _ => some ⟨.HIGH, .LOW, .HIGH⟩
  | .aluReserved110 _ _ _ _ => some ⟨.HIGH, .HIGH, .LOW⟩
  | .aluReserved111 _ _ _ _ => some ⟨.HIGH, .HIGH, .HIGH⟩
  | .nand _ _ _ | .not _ _ | .and _ _ _ | .or _ _ _ | .nor _ _ _ | .xor _ _ _ | .ha _ _ _ _ | .fa _ _ _ _ _
  | .mux _ _ _ _ | .wnand _ _ _ _ | .wnot _ _ _ _ | .wand _ _ _ _ | .wor _ _ _ _ | .wnor _ _ _ _ | .wxor _ _ _ _
  | .add _ _ _ _ _ _ | .wmux _ _ _ _ _ | .conv _ _ _ _ | .bitQuery _ _ _ => none

/-- The function-select a word of exactly three positions is (R41). -/
def selectOfWord : Word → Option FunctionSelect
  | [f0, f1, f2] => some ⟨f0, f1, f2⟩
  | _ => none

/-- R42: the function-select whose number is `4*f0 + 2*f1 + f2`. -/
def selectOfCode (n : Nat) : Option FunctionSelect :=
  if n < 8 then selectOfWord (Word.ofVal Config.selectWidth n) else none

/-- R42: `val(F)`. -/
def selectCode (f : FunctionSelect) : Nat := Word.val f.toWord

/-- The name of the wire that the ALU of `decodeTableWord` drives. -/
def tableResult : Name := ascii "r"

/-- The operand that the ALU of `decodeTableWord` is connected to: a word of zeros. -/
def tableOperand : Operand := .lit (.word (Word.lows Config.tableWidth))

/-- The instruction of an opcode-table row from its bits alone. The only bits the table gives are the three of the
function-select, in the lowest bits of the first byte, bit 2 being `f0` (R42); the operand words are zeros (log 7). -/
def decodeTableWord (nbits w : Nat) : Option Instr :=
  if Config.selectWidth ≤ nbits then
    (selectOfCode w).map fun f =>
      decodeSelect f Config.tableWidth (some tableOperand) (some tableOperand) (some tableResult)
  else none

/-! ### The textual syntax: bytes to tokens (R51) -/

/-- Why a text is no line of a netlist. -/
inductive DecodeError where
  /-- A byte that the syntax does not use. -/
  | badByte (c : Byte)
  /-- An instance line without `=`. -/
  | noEquals
  /-- A word that cannot name a wire. -/
  | badName
  /-- A declaration whose type is neither `bit` nor `word` and an integer. -/
  | badType
  /-- A width parameter or a position that is no integer. -/
  | badInteger
  /-- A bit or word literal whose parts are not bits. -/
  | badLiteral
  /-- An operand that is neither a name, nor a name with a position, nor a literal. -/
  | badOperand
  /-- No operation has this mnemonic. -/
  | unknownMnemonic
  /-- The number of width parameters is not the operation's. -/
  | wrongParameters
  /-- More operands than the operation has places for: for WNOT more than two, for any other more than its input ports
  (log 12). -/
  | tooManyOperands
  /-- More results than the operation has output ports (log 12). -/
  | tooManyResults
  /-- A blank line, a comment or a declaration where an instance was asked for. -/
  | notAnInstance
  /-- An ALU whose function-select is not a literal of three bits: which operation it is depends on the value of `F`. -/
  | selectNotLiteral
  deriving DecidableEq, Repr

/-- A token: a run of letters, digits, `_` and `.`, or one symbol. -/
inductive Token where
  | run (cs : List Byte)
  | sym (c : Byte)
  deriving DecidableEq, Repr

/-- Letters, digits, `_` and `.` (log 8). -/
def isRunByte (c : Byte) : Bool :=
  let n := c.toNat
  (48 ≤ n && n ≤ 57) || (65 ≤ n && n ≤ 90) || (97 ≤ n && n ≤ 122) || n == 95 || n == 46

/-- Space, tab and carriage return (log 8). -/
def isBlankByte (c : Byte) : Bool := c == 32 || c == 9 || c == 13

def symEquals : Byte := 61
def symComma : Byte := 44
def symLess : Byte := 60
def symGreater : Byte := 62
def symOpenBracket : Byte := 91
def symCloseBracket : Byte := 93
def symOpenBrace : Byte := 123
def symCloseBrace : Byte := 125
def symOpenParen : Byte := 40
def symCloseParen : Byte := 41
def symColon : Byte := 58
def symMinus : Byte := 45

/-- The symbols of R51 and R52. -/
def isSymByte (c : Byte) : Bool :=
  [symEquals, symComma, symLess, symGreater, symOpenBracket, symCloseBracket, symOpenBrace, symCloseBrace,
    symOpenParen, symCloseParen, symColon, symMinus].contains c

/-- A run of bytes, if it is not empty, before the tokens that follow. -/
def flushRun (run : List Byte) (ts : List Token) : List Token :=
  if run = [] then ts else .run run :: ts

/-- The tokens of a line; `run` is the run of bytes read so far. -/
def lexLine (run : List Byte) : List Byte → Except DecodeError (List Token)
  | [] => .ok (flushRun run [])
  | c :: cs =>
    if isRunByte c then lexLine (run ++ [c]) cs
    else if isBlankByte c then (lexLine [] cs).map (flushRun run)
    else if isSymByte c then (lexLine [] cs).map fun ts => flushRun run (.sym c :: ts)
    else .error (.badByte c)

/-! ### Tokens to names, integers, literals, operands (R51, R52) -/

/-- Every element in turn, stopping at the first error. -/
def collect {α β ε : Type} (f : α → Except ε β) : List α → Except ε (List β)
  | [] => .ok []
  | a :: as =>
    match f a with
    | .error e => .error e
    | .ok b => match collect f as with
      | .error e => .error e
      | .ok bs => .ok (b :: bs)

/-- The part of a token list before the first occurrence of a symbol, and the part after it. -/
def splitSym (c : Byte) : List Token → Option (List Token × List Token)
  | [] => none
  | t :: ts =>
    if t = .sym c then some ([], ts)
    else (splitSym c ts).map fun p => (t :: p.1, p.2)

/-- Whether a token opens a bracketed literal. -/
def opens (t : Token) : Bool := t = .sym symOpenBrace || t = .sym symOpenParen

/-- Whether a token closes a bracketed literal. -/
def closes (t : Token) : Bool := t = .sym symCloseBrace || t = .sym symCloseParen

/-- The groups of tokens between the commas that stand outside braces and parentheses. -/
def commaGroups : Nat → List Token → List (List Token)
  | _, [] => [[]]
  | depth, t :: ts =>
    if t = .sym symComma ∧ depth = 0 then [] :: commaGroups 0 ts
    else
      let depth' := if opens t then depth + 1 else if closes t then depth - 1 else depth
      match commaGroups depth' ts with
      | [] => [[t]]
      | g :: gs => (t :: g) :: gs

/-- The groups of a list that may be empty. -/
def groups (ts : List Token) : List (List Token) := if ts = [] then [] else commaGroups 0 ts

def isDigitByte (c : Byte) : Bool := 48 ≤ c.toNat && c.toNat ≤ 57

/-- A number written in decimal digits. -/
def natOfDigits (cs : List Byte) : Option Nat :=
  if cs ≠ [] ∧ cs.all isDigitByte then some (cs.foldl (fun n c => 10 * n + (c.toNat - 48)) 0) else none

/-- An integer, with an optional minus sign. -/
def intOfTokens : List Token → Option Int
  | [.run cs] => (natOfDigits cs).map fun n => (n : Int)
  | [.sym m, .run cs] => if m = symMinus then (natOfDigits cs).map fun n => -(n : Int) else none
  | _ => none

/-- R52: the spellings of a bit literal. -/
def bitOfRun (cs : List Byte) : Option Bit :=
  if cs = ascii "HIGH" ∨ cs = ascii "1" ∨ cs = ascii "I" then some .HIGH
  else if cs = ascii "LOW" ∨ cs = ascii "0" ∨ cs = ascii "O" then some .LOW
  else none

/-- The words that cannot name a wire: the bit literals, the two declaration words, and `_`, which leaves a result
unconnected (log 8, log 10). -/
def reservedRuns : List (List Byte) :=
  [ascii "HIGH", ascii "LOW", ascii "I", ascii "O", ascii "input", ascii "output", ascii "_"]

/-- A name: a run that does not begin with a digit or a dot and is not reserved (log 8). -/
def nameOk (cs : Name) : Bool :=
  match cs with
  | [] => false
  | c :: _ => cs.all isRunByte && !isDigitByte c && c != 46 && !reservedRuns.contains cs

/-- One bit literal, from the tokens of a group. -/
def bitOfGroup : List Token → Except DecodeError Bit
  | [.run cs] => match bitOfRun cs with
    | some b => .ok b
    | none => .error .badLiteral
  | _ => .error .badLiteral

/-- The bit a digit of a word literal stands for: `0` or `1` (R52). -/
def bitOfDigit (c : Byte) : Option Bit :=
  if c = 48 then some .LOW else if c = 49 then some .HIGH else none

/-- A digit string as a word, position 0 first (R9, R52). -/
def wordOfDigits : List Byte → Option Word
  | [] => some []
  | c :: cs => match bitOfDigit c, wordOfDigits cs with
    | some b, some w => some (b :: w)
    | _, _ => none

/-- Whether an input port is for a Bit or for a Word. It matters to one literal alone: a single digit `0` or `1` is a Bit
at a port for a Bit and a `Word(1)` at a port for a Word (log 9). -/
inductive PortKind where
  | bit
  | word
  deriving DecidableEq, Repr

/-- An operand written as one run of bytes. -/
def operandOfRun (kind : PortKind) (cs : List Byte) : Except DecodeError Operand :=
  match wordOfDigits cs with
  | some [b] => .ok (.lit (match kind with
    | .bit => .bit b
    | .word => .word [b]))
  | some w => .ok (.lit (.word w))
  | none => match bitOfRun cs with
    | some b => .ok (.lit (.bit b))
    | none => if nameOk cs then .ok (.wire cs) else .error .badOperand

/-- The positions of a bracketed word literal. -/
def wordOfInside (inside : List Token) : Except DecodeError Word := collect bitOfGroup (groups inside)

/-- R51: `operand ::= name | name "[" int "]" | literal`. -/
def operandOfGroup (kind : PortKind) : List Token → Except DecodeError Operand
  | [.run cs] => operandOfRun kind cs
  | .run cs :: .sym b :: ts =>
    if b = symOpenBracket ∧ ts.getLast? = some (.sym symCloseBracket) then
      match intOfTokens ts.dropLast with
      | none => .error .badInteger
      | some i => if nameOk cs then .ok (.query cs i) else .error .badOperand
    else .error .badOperand
  | .sym b :: ts =>
    if (b = symOpenBrace ∧ ts.getLast? = some (.sym symCloseBrace)) ∨
        (b = symOpenParen ∧ ts.getLast? = some (.sym symCloseParen)) then
      match wordOfInside ts.dropLast with
      | .error e => .error e
      | .ok w =>
        if b = symOpenParen ∧ w.length ≠ Config.selectWidth then .error .badLiteral else .ok (.lit (.word w))
    else .error .badOperand
  | _ => .error .badOperand

/-! ### Operations by name (R50, R53) -/

/-- The mnemonics of R50, the bit-position query, and the four ALU names of R53. -/
inductive OpName where
  | nand | not | and | or | nor | xor | ha | fa | mux
  | wnand | wnot | wand | wor | wnor | wxor | add | wmux | conv | bitQuery
  | alu | aluOr | aluAdd | aluAnd | aluSub
  deriving DecidableEq, Repr

/-- How an operation's name is written. -/
def OpName.spelling : OpName → List Token
  | .nand => [.run (ascii "NAND")]
  | .not => [.run (ascii "NOT")]
  | .and => [.run (ascii "AND")]
  | .or => [.run (ascii "OR")]
  | .nor => [.run (ascii "NOR")]
  | .xor => [.run (ascii "XOR")]
  | .ha => [.run (ascii "HA")]
  | .fa => [.run (ascii "FA")]
  | .mux => [.run (ascii "MUX")]
  | .wnand => [.run (ascii "WNAND")]
  | .wnot => [.run (ascii "WNOT")]
  | .wand => [.run (ascii "WAND")]
  | .wor => [.run (ascii "WOR")]
  | .wnor => [.run (ascii "WNOR")]
  | .wxor => [.run (ascii "WXOR")]
  | .add => [.run (ascii "ADD")]
  | .wmux => [.run (ascii "WMUX")]
  | .conv => [.run (ascii "CONV")]
  | .bitQuery => [.run (ascii "W"), .sym symOpenBracket, .run (ascii "i"), .sym symCloseBracket]
  | .alu => [.run (ascii "ALU")]
  | .aluOr => [.run (ascii "ALU.OR")]
  | .aluAdd => [.run (ascii "ALU.ADD")]
  | .aluAnd => [.run (ascii "ALU.AND")]
  | .aluSub => [.run (ascii "ALU.SUB")]

/-- The operations whose name is one run of bytes. -/
def opNames : List OpName :=
  [.nand, .not, .and, .or, .nor, .xor, .ha, .fa, .mux, .wnand, .wnot, .wand, .wor, .wnor, .wxor, .add, .wmux, .conv,
    .alu, .aluOr, .aluAdd, .aluAnd, .aluSub]

/-- The operation named at the start of a token list, and the tokens after its name. -/
def opOfTokens : List Token → Option (OpName × List Token)
  | .run w :: .sym b :: .run i :: .sym c :: ts =>
    if OpName.bitQuery.spelling = [.run w, .sym b, .run i, .sym c] then some (.bitQuery, ts)
    else (opNames.find? fun o => decide (o.spelling = [.run w])).map fun o =>
      (o, .sym b :: .run i :: .sym c :: ts)
  | .run w :: ts => (opNames.find? fun o => decide (o.spelling = [.run w])).map fun o => (o, ts)
  | _ => none

/-- The kinds of an operation's input ports, in the source's argument order (10_state.md R25 to R27). WNOT's second one is
the extra operand that the check refuses (42_word_ops.md R67). -/
def OpName.kinds : OpName → List PortKind
  | .nand | .and | .or | .nor | .xor | .ha => [.bit, .bit]
  | .not => [.bit]
  | .fa | .mux => [.bit, .bit, .bit]
  | .wnand | .wand | .wor | .wnor | .wxor | .wnot => [.word, .word]
  | .add | .wmux => [.word, .word, .bit]
  | .conv | .bitQuery => [.word]
  | .alu => [.word, .word, .word]
  | .aluOr | .aluAdd | .aluAnd | .aluSub => [.word, .word]

/-- How many results an operation has. -/
def OpName.results : OpName → Nat
  | .ha | .fa | .add => 2
  | .nand | .not | .and | .or | .nor | .xor | .mux | .wnand | .wnot | .wand | .wor | .wnor | .wxor | .wmux | .conv
  | .bitQuery | .alu | .aluOr | .aluAdd | .aluAnd | .aluSub => 1

/-- An ALU on given connections: the operation its function-select stands for when that is a literal of three bits, so
known when the instance is defined (30_encoding.md R44); an ALU still to be selected otherwise (43_alu.md R91). -/
def buildAlu (D : Int) (f op1 op2 : Option Operand) (r : Option Name) : Inst :=
  match f with
  | some (.lit (.word [f0, f1, f2])) => .cell (decodeSelect ⟨f0, f1, f2⟩ D op1 op2 r)
  | _ => .alu D f op1 op2 r

/-- A function-select literal as an operand. -/
def selectOperand (f : FunctionSelect) : Option Operand := some (.lit (.word f.toWord))

/-- The instance an operation's name, width parameters, operands and results make; none when the number of width
parameters is not the operation's. The ALU names of R53 expand to the ALU with a literal function-select. -/
def build (o : OpName) (ps : List Int) (args : List (Option Operand)) (rs : List (Option Name)) : Option Inst :=
  match o, ps, args, rs with
  | .nand, [], [a, b], [y] => some (.cell (.nand a b y))
  | .not, [], [a], [y] => some (.cell (.not a y))
  | .and, [], [a, b], [y] => some (.cell (.and a b y))
  | .or, [], [a, b], [y] => some (.cell (.or a b y))
  | .nor, [], [a, b], [y] => some (.cell (.nor a b y))
  | .xor, [], [a, b], [y] => some (.cell (.xor a b y))
  | .ha, [], [a, b], [sum, carry] => some (.cell (.ha a b sum carry))
  | .fa, [], [a, b, c], [sum, carry] => some (.cell (.fa a b c sum carry))
  | .mux, [], [a, b, s], [y] => some (.cell (.mux a b s y))
  | .wnand, [D], [a, b], [r] => some (.cell (.wnand D a b r))
  | .wnot, [D], [a, extra], [r] => some (.cell (.wnot D a extra r))
  | .wand, [D], [a, b], [r] => some (.cell (.wand D a b r))
  | .wor, [D], [a, b], [r] => some (.cell (.wor D a b r))
  | .wnor, [D], [a, b], [r] => some (.cell (.wnor D a b r))
  | .wxor, [D], [a, b], [r] => some (.cell (.wxor D a b r))
  | .add, [D], [a, b, cin], [s, cout] => some (.cell (.add D a b cin s cout))
  | .wmux, [D], [a, b, s], [r] => some (.cell (.wmux D a b s r))
  | .conv, [M, D], [a], [r] => some (.cell (.conv M D a r))
  | .bitQuery, [i], [w], [y] => some (.cell (.bitQuery i w y))
  | .alu, [D], [f, op1, op2], [r] => some (buildAlu D f op1 op2 r)
  | .aluOr, [D], [op1, op2], [r] => some (buildAlu D (selectOperand ⟨.LOW, .LOW, .LOW⟩) op1 op2 r)
  | .aluAdd, [D], [op1, op2], [r] => some (buildAlu D (selectOperand ⟨.LOW, .LOW, .HIGH⟩) op1 op2 r)
  | .aluAnd, [D], [op1, op2], [r] => some (buildAlu D (selectOperand ⟨.LOW, .HIGH, .LOW⟩) op1 op2 r)
  | .aluSub, [D], [op1, op2], [r] => some (buildAlu D (selectOperand ⟨.HIGH, .LOW, .HIGH⟩) op1 op2 r)
  | _, _, _, _ => none

/-! ### Lines and netlists (R51) -/

/-- One line of a netlist. -/
inductive Line where
  | blank
  | input (n : Name) (t : Ty)
  | output (ns : List Name)
  | inst (x : Inst)
  deriving DecidableEq, Repr

/-- A result name; `_` leaves the result unconnected (log 10). -/
def resultOfGroup : List Token → Except DecodeError (Option Name)
  | [.run cs] => if cs = ascii "_" then .ok none else if nameOk cs then .ok (some cs) else .error .badName
  | _ => .error .badName

def nameOfGroup : List Token → Except DecodeError Name
  | [.run cs] => if nameOk cs then .ok cs else .error .badName
  | _ => .error .badName

def intOfGroup (ts : List Token) : Except DecodeError Int :=
  match intOfTokens ts with
  | some i => .ok i
  | none => .error .badInteger

/-- A list filled up to a length with none: the ports that nothing is written for. -/
def padTo {α : Type} (n : Nat) (xs : List α) : List (Option α) :=
  xs.map some ++ List.replicate (n - xs.length) none

/-- The width parameters after an operation's name, if there are any, and the tokens after them. -/
def paramsOfTokens : List Token → Except DecodeError (List Int × List Token)
  | .sym c :: ts =>
    if c = symLess then
      match splitSym symGreater ts with
      | none => .error .badInteger
      | some (inside, rest) => match collect intOfGroup (commaGroups 0 inside) with
        | .error e => .error e
        | .ok ps => .ok (ps, rest)
    else .ok ([], .sym c :: ts)
  | ts => .ok ([], ts)

/-- The operands of an operation, each read as its port's kind asks. DESIGN CHOICE (log 12): a line with more operands than the
operation has places for is rejected here, before there is an instance. WNOT has two places: a second operand is the
`ExtraOperand` of R67, which the checks refuse, and of a third the spec does not speak. Safe: no such line has a meaning. -/
def operandsOfTokens (o : OpName) (ts : List Token) : Except DecodeError (List Operand) :=
  if o.kinds.length < (groups ts).length then .error .tooManyOperands
  else collect (fun p => operandOfGroup p.1 p.2) (o.kinds.zip (groups ts))

/-- The results of an operation; those not written are unconnected (log 10). -/
def resultsOfTokens (o : OpName) (ts : List Token) : Except DecodeError (List (Option Name)) :=
  match collect resultOfGroup (commaGroups 0 ts) with
  | .error e => .error e
  | .ok rs =>
    if o.results < rs.length then .error .tooManyResults
    else .ok (rs ++ List.replicate (o.results - rs.length) none)

/-- `name { "," name } "=" MNEMONIC [ "<" int { "," int } ">" ] operand { "," operand }`. -/
def instOfTokens (ts : List Token) : Except DecodeError Inst :=
  match splitSym symEquals ts with
  | none => .error .noEquals
  | some (lhs, rhs) => match opOfTokens rhs with
    | none => .error .unknownMnemonic
    | some (o, rest) => match paramsOfTokens rest with
      | .error e => .error e
      | .ok (ps, rest') => match operandsOfTokens o rest' with
        | .error e => .error e
        | .ok args => match resultsOfTokens o lhs with
          | .error e => .error e
          | .ok rs => match build o ps (padTo o.kinds.length args) rs with
            | none => .error .wrongParameters
            | some x => .ok x

/-- `type ::= "bit" | "word" int`. -/
def tyOfTokens : List Token → Except DecodeError Ty
  | [.run cs] => if cs = ascii "bit" then .ok .bit else .error .badType
  | .run cs :: ts =>
    if cs = ascii "word" then
      match intOfTokens ts with
      | some D => .ok (.word D)
      | none => .error .badInteger
    else .error .badType
  | _ => .error .badType

/-- `"input" name ":" type`, after its first word. -/
def inputOfTokens : List Token → Except DecodeError Line
  | .run cs :: .sym c :: ts =>
    if c = symColon ∧ nameOk cs then
      match tyOfTokens ts with
      | .error e => .error e
      | .ok t => .ok (.input cs t)
    else .error .badName
  | _ => .error .badName

/-- `"output" name { "," name }`, after its first word. -/
def outputOfTokens (ts : List Token) : Except DecodeError Line :=
  match collect nameOfGroup (commaGroups 0 ts) with
  | .error e => .error e
  | .ok ns => .ok (.output ns)

/-- One line, from its tokens. -/
def lineOfTokens (ts : List Token) : Except DecodeError Line :=
  match ts with
  | [] => .ok .blank
  | t :: rest =>
    if t = .run (ascii "input") then inputOfTokens rest
    else if t = .run (ascii "output") then outputOfTokens rest
    else match instOfTokens ts with
      | .error e => .error e
      | .ok x => .ok (.inst x)

/-- R51: a line beginning with `#` is a comment. -/
def isComment (bytes : List Byte) : Bool :=
  match bytes.dropWhile isBlankByte with
  | c :: _ => c == 35
  | [] => false

/-- One line of a netlist, from its bytes; total on any bytes. -/
def decodeLine (bytes : List Byte) : Except DecodeError Line :=
  if isComment bytes then .ok .blank
  else match lexLine [] bytes with
    | .error e => .error e
    | .ok ts => lineOfTokens ts

/-- One instruction, from its bytes; total on any bytes. -/
def decode (bytes : List Byte) : Except DecodeError Instr :=
  match decodeLine bytes with
  | .error e => .error e
  | .ok (.inst (.cell i)) => .ok i
  | .ok (.inst (.alu _ _ _ _ _)) => .error .selectNotLiteral
  | .ok _ => .error .notAnInstance

/-- The lines of a text: the parts between line feeds. -/
def splitLines : List Byte → List (List Byte)
  | [] => [[]]
  | c :: cs =>
    if c = 10 then [] :: splitLines cs
    else match splitLines cs with
      | [] => [[c]]
      | l :: ls => (c :: l) :: ls

/-- A netlist with one more line in front. -/
def Netlist.addLine (nl : Netlist) : Line → Netlist
  | .blank => nl
  | .input n t => { nl with inputs := (n, t) :: nl.inputs }
  | .output ns => { nl with outputs := ns ++ nl.outputs }
  | .inst x => { nl with insts := x :: nl.insts }

/-- The netlist of no wires and no instances. -/
def Netlist.empty : Netlist := { inputs := [], insts := [], outputs := [] }

/-- R51: `netlist ::= { line }`, from its bytes. -/
def decodeNetlist (bytes : List Byte) : Except DecodeError Netlist :=
  match collect decodeLine (splitLines bytes) with
  | .error e => .error e
  | .ok ls => .ok (ls.foldr (fun l nl => nl.addLine l) Netlist.empty)

/-! ### The encoder of the textual syntax -/

/-- The decimal digits of a number; the first argument bounds how many. -/
def decimalDigits : Nat → Nat → List Byte
  | 0, _ => []
  | k + 1, n =>
    if n < 10 then [BitVec.ofNat 8 (48 + n)] else decimalDigits k (n / 10) ++ [BitVec.ofNat 8 (48 + n % 10)]

def natDigits (n : Nat) : List Byte := decimalDigits (n + 1) n

def intTokens (i : Int) : List Token :=
  if i < 0 then [.sym symMinus, .run (natDigits i.natAbs)] else [.run (natDigits i.natAbs)]

/-- Groups of tokens with commas between them. -/
def joinCommas : List (List Token) → List Token
  | [] => []
  | [g] => g
  | g :: h :: gs => g ++ .sym symComma :: joinCommas (h :: gs)

def bitToken : Bit → List Token
  | .HIGH => [.run (ascii "HIGH")]
  | .LOW => [.run (ascii "LOW")]

/-- R52: a bit literal as its word, a word of three positions as a triple, any other word as a brace list. -/
def valueTokens : Value → List Token
  | .bit b => bitToken b
  | .word w =>
    if w.length = Config.selectWidth then .sym symOpenParen :: joinCommas (w.map bitToken) ++ [.sym symCloseParen]
    else .sym symOpenBrace :: joinCommas (w.map bitToken) ++ [.sym symCloseBrace]

def operandTokens : Operand → List Token
  | .wire n => [.run n]
  | .query n i => .run n :: .sym symOpenBracket :: intTokens i ++ [.sym symCloseBracket]
  | .lit v => valueTokens v

def resultTokens : Option Name → List Token
  | some n => [.run n]
  | none => [.run (ascii "_")]

/-- An instance as the parts that are written. An ALU operation is written as the ALU with its function-select literal
(30_encoding.md R53). -/
structure Parts where
  op : OpName
  params : List Int
  args : List (Option Operand)
  results : List (Option Name)
  deriving DecidableEq, Repr

def aluParts (f : FunctionSelect) (D : Int) (op1 op2 : Option Operand) (r : Option Name) : Parts :=
  ⟨.alu, [D], [selectOperand f, op1, op2], [r]⟩

def instrParts : Instr → Parts
  | .nand a b y => ⟨.nand, [], [a, b], [y]⟩
  | .not a y => ⟨.not, [], [a], [y]⟩
  | .and a b y => ⟨.and, [], [a, b], [y]⟩
  | .or a b y => ⟨.or, [], [a, b], [y]⟩
  | .nor a b y => ⟨.nor, [], [a, b], [y]⟩
  | .xor a b y => ⟨.xor, [], [a, b], [y]⟩
  | .ha a b sum carry => ⟨.ha, [], [a, b], [sum, carry]⟩
  | .fa a b c sum carry => ⟨.fa, [], [a, b, c], [sum, carry]⟩
  | .mux a b s y => ⟨.mux, [], [a, b, s], [y]⟩
  | .wnand D a b r => ⟨.wnand, [D], [a, b], [r]⟩
  | .wnot D a extra r => ⟨.wnot, [D], [a, extra], [r]⟩
  | .wand D a b r => ⟨.wand, [D], [a, b], [r]⟩
  | .wor D a b r => ⟨.wor, [D], [a, b], [r]⟩
  | .wnor D a b r => ⟨.wnor, [D], [a, b], [r]⟩
  | .wxor D a b r => ⟨.wxor, [D], [a, b], [r]⟩
  | .add D a b cin s cout => ⟨.add, [D], [a, b, cin], [s, cout]⟩
  | .wmux D a b s r => ⟨.wmux, [D], [a, b, s], [r]⟩
  | .conv M D a r => ⟨.conv, [M, D], [a], [r]⟩
  | .bitQuery i w y => ⟨.bitQuery, [i], [w], [y]⟩
  | .aluOr D op1 op2 r => aluParts ⟨.LOW, .LOW, .LOW⟩ D op1 op2 r
  | .aluAdd D op1 op2 r => aluParts ⟨.LOW, .LOW, .HIGH⟩ D op1 op2 r
  | .aluAnd D op1 op2 r => aluParts ⟨.LOW, .HIGH, .LOW⟩ D op1 op2 r
  | .aluReserved011 D op1 op2 r => aluParts ⟨.LOW, .HIGH, .HIGH⟩ D op1 op2 r
  | .aluReserved100 D op1 op2 r => aluParts ⟨.HIGH, .LOW, .LOW⟩ D op1 op2 r
  | .aluSub D op1 op2 r => aluParts ⟨.HIGH, .LOW, .HIGH⟩ D op1 op2 r
  | .aluReserved110 D op1 op2 r => aluParts ⟨.HIGH, .HIGH, .LOW⟩ D op1 op2 r
  | .aluReserved111 D op1 op2 r => aluParts ⟨.HIGH, .HIGH, .HIGH⟩ D op1 op2 r

def instParts : Inst → Parts
  | .cell i => instrParts i
  | .alu D f op1 op2 r => ⟨.alu, [D], [f, op1, op2], [r]⟩

/-- The operands that are written: those before the first open port. -/
def writtenArgs : List (Option Operand) → List Operand
  | [] => []
  | none :: _ => []
  | some o :: as => o :: writtenArgs as

def paramTokens (ps : List Int) : List Token :=
  if ps = [] then [] else .sym symLess :: joinCommas (ps.map intTokens) ++ [.sym symGreater]

def partsTokens (p : Parts) : List Token :=
  joinCommas (p.results.map resultTokens) ++ .sym symEquals :: p.op.spelling ++ paramTokens p.params ++
    joinCommas ((writtenArgs p.args).map operandTokens)

/-- The bytes of tokens: each token, and a space after it. -/
def spellTokens : List Token → List Byte
  | [] => []
  | .run cs :: ts => cs ++ 32 :: spellTokens ts
  | .sym c :: ts => c :: 32 :: spellTokens ts

/-- The line that stands for an instance. -/
def encodeInst (x : Inst) : List Byte := spellTokens (partsTokens (instParts x))

/-- The line that stands for an instruction. -/
def encode (i : Instr) : List Byte := encodeInst (.cell i)

/-! ### What can be written down -/

/-- An operand whose wire has a name that can be written. -/
def operandSpellable : Operand → Bool
  | .wire n => nameOk n
  | .query n _ => nameOk n
  | .lit _ => true

/-- Operands are written in order without gaps, so after an open port none can be written. -/
def argsSpellable : List (Option Operand) → Bool
  | [] => true
  | none :: as => as.all Option.isNone
  | some o :: as => operandSpellable o && argsSpellable as

def resultSpellable : Option Name → Bool
  | some n => nameOk n
  | none => true

def partsSpellable (p : Parts) : Bool := argsSpellable p.args && p.results.all resultSpellable

/-- An operation that a line of text can stand for: its wires have names of the syntax, and no open port stands before
a connected one. -/
def Instr.Spellable (i : Instr) : Bool := partsSpellable (instrParts i)

/-- An instance that a line of text can stand for and that is not the text of an operation: the function-select of
an ALU still to be selected is no literal of three bits. -/
def Inst.Spellable (x : Inst) : Bool :=
  partsSpellable (instParts x) &&
    match x with
    | .cell _ => true
    | .alu _ (some (.lit (.word w))) _ _ _ => decide (w.length ≠ Config.selectWidth)
    | .alu _ _ _ _ _ => true

/-! ### Rendering (R54) -/

/-- R54: `HIGH` and `LOW` tokens, most significant bit first, separated by spaces. Out of the core (00_scope.md R4); recorded
for comparison with the source's textual form. -/
def renderWord : Word → List Byte
  | [] => []
  | [b] => ascii (match b with
    | .HIGH => "HIGH"
    | .LOW => "LOW")
  | b :: c :: w => ascii (match b with
    | .HIGH => "HIGH"
    | .LOW => "LOW") ++ 32 :: renderWord (c :: w)

end Sys2Proof
end

