-- ==== Sys2Proof/Machine/Contract.lean ====
section
/-! DEFINITION. The contract of every instance (its width parameters, ports and results) and the checks of spec/60_exceptions.md
R94 to R101 that refuse an ill-formed instance or netlist when it is defined. -/

namespace Sys2Proof.Machine

open Sys2Proof

/-- R94: the nine reasons for refusal. -/
inductive Reason where
  | zeroWidth
  | unconnectedInput
  | extraOperand
  | widthMismatch
  | convNarrowing
  | indexOutOfRange
  | reservedFunctionSelect
  | multipleDrivers
  | combinationalCycle
  deriving DecidableEq, Repr

/-- What an input port accepts: a Bit, a Word of one width, or (for the bit-position query alone) a Word of any width. -/
inductive PortTy where
  | bit
  | word (width : Int)
  | anyWord
  deriving DecidableEq, Repr

/-- One input port: what it is connected to, what it accepts, and whether it has the default `LOW` (R28). -/
structure Port where
  arg : Option Operand
  ty : PortTy
  omissible : Bool
  deriving DecidableEq, Repr

/-- What the checks of R101 look at in one instance. -/
structure Contract where
  /-- The width parameters. -/
  widths : List Int
  ports : List Port
  /-- A second word operand of WNOT. -/
  extra : Option Operand
  /-- CONV's source and target widths. -/
  convert : Option (Int × Int)
  /-- The position a bit-position query instance asks for. -/
  position : Option Int
  /-- Whether the function-select is one of the four undefined values. -/
  reserved : Bool
  deriving DecidableEq, Repr

/-- A connected port for a Bit. -/
def Port.bitIn (a : Option Operand) : Port := { arg := a, ty := .bit, omissible := false }

/-- A carry-in, which is `LOW` when omitted (R28). -/
def Port.carryIn (a : Option Operand) : Port := { arg := a, ty := .bit, omissible := true }

/-- A connected port for a Word of width `D`. -/
def Port.wordIn (D : Int) (a : Option Operand) : Port := { arg := a, ty := .word D, omissible := false }

/-- The contract of a cell with no checks beyond its widths and ports. -/
def Contract.plain (widths : List Int) (ports : List Port) : Contract :=
  { widths, ports, extra := none, convert := none, position := none, reserved := false }

/-- The contract of an ALU operation (43_alu.md R81). Its function-select is fixed, so it has no `F` port to check. -/
def Contract.alu (D : Int) (op1 op2 : Option Operand) (reserved : Bool) : Contract :=
  { Contract.plain [D] [.wordIn D op1, .wordIn D op2] with reserved }

/-- The contract of each operation: the ports of 10_state.md R25 to R27 and the refusals its rule lists. -/
def instrContract : Instr → Contract
  | .nand a b _ => .plain [] [.bitIn a, .bitIn b]
  | .not a _ => .plain [] [.bitIn a]
  | .and a b _ => .plain [] [.bitIn a, .bitIn b]
  | .or a b _ => .plain [] [.bitIn a, .bitIn b]
  | .nor a b _ => .plain [] [.bitIn a, .bitIn b]
  | .xor a b _ => .plain [] [.bitIn a, .bitIn b]
  | .ha a b _ _ => .plain [] [.bitIn a, .bitIn b]
  | .fa a b c _ _ => .plain [] [.bitIn a, .bitIn b, .carryIn c]
  | .mux a b s _ => .plain [] [.bitIn a, .bitIn b, .bitIn s]
  | .wnand D a b _ => .plain [D] [.wordIn D a, .wordIn D b]
  | .wnot D a extra _ => { Contract.plain [D] [.wordIn D a] with extra }
  | .wand D a b _ => .plain [D] [.wordIn D a, .wordIn D b]
  | .wor D a b _ => .plain [D] [.wordIn D a, .wordIn D b]
  | .wnor D a b _ => .plain [D] [.wordIn D a, .wordIn D b]
  | .wxor D a b _ => .plain [D] [.wordIn D a, .wordIn D b]
  | .add D a b cin _ _ => .plain [D] [.wordIn D a, .wordIn D b, .carryIn cin]
  | .wmux D a b s _ => .plain [D] [.wordIn D a, .wordIn D b, .bitIn s]
  | .conv M D a _ => { Contract.plain [M, D] [.wordIn M a] with convert := some (M, D) }
  | .bitQuery i w _ =>
    { Contract.plain [] [{ arg := w, ty := .anyWord, omissible := false }] with position := some i }
  | .aluOr D op1 op2 _ => .alu D op1 op2 false
  | .aluAdd D op1 op2 _ => .alu D op1 op2 false
  | .aluAnd D op1 op2 _ => .alu D op1 op2 false
  | .aluReserved011 D op1 op2 _ => .alu D op1 op2 true
  | .aluReserved100 D op1 op2 _ => .alu D op1 op2 true
  | .aluSub D op1 op2 _ => .alu D op1 op2 false
  | .aluReserved110 D op1 op2 _ => .alu D op1 op2 true
  | .aluReserved111 D op1 op2 _ => .alu D op1 op2 true

/-- The output ports of each operation, in order: the wire each drives, and its type (10_state.md R25 to R27). -/
def instrPorts : Instr → List (Option Name × Ty)
  | .nand _ _ y => [(y, .bit)]
  | .not _ y => [(y, .bit)]
  | .and _ _ y => [(y, .bit)]
  | .or _ _ y => [(y, .bit)]
  | .nor _ _ y => [(y, .bit)]
  | .xor _ _ y => [(y, .bit)]
  | .ha _ _ sum carry => [(sum, .bit), (carry, .bit)]
  | .fa _ _ _ sum carry => [(sum, .bit), (carry, .bit)]
  | .mux _ _ _ y => [(y, .bit)]
  | .wnand D _ _ r => [(r, .word D)]
  | .wnot D _ _ r => [(r, .word D)]
  | .wand D _ _ r => [(r, .word D)]
  | .wor D _ _ r => [(r, .word D)]
  | .wnor D _ _ r => [(r, .word D)]
  | .wxor D _ _ r => [(r, .word D)]
  | .add D _ _ _ s cout => [(s, .word D), (cout, .bit)]
  | .wmux D _ _ _ r => [(r, .word D)]
  | .conv _ D _ r => [(r, .word D)]
  | .bitQuery _ _ y => [(y, .bit)]
  | .aluOr D _ _ r => [(r, .word D)]
  | .aluAdd D _ _ r => [(r, .word D)]
  | .aluAnd D _ _ r => [(r, .word D)]
  | .aluReserved011 D _ _ r => [(r, .word D)]
  | .aluReserved100 D _ _ r => [(r, .word D)]
  | .aluSub D _ _ r => [(r, .word D)]
  | .aluReserved110 D _ _ r => [(r, .word D)]
  | .aluReserved111 D _ _ r => [(r, .word D)]

/-- R43: the four function-selects the hardware defines. -/
def selectDefined (f : FunctionSelect) : Bool :=
  decide (f = ⟨.LOW, .LOW, .LOW⟩ ∨ f = ⟨.LOW, .HIGH, .LOW⟩ ∨ f = ⟨.LOW, .LOW, .HIGH⟩ ∨ f = ⟨.HIGH, .LOW, .HIGH⟩)

/-- R44, R99: a function-select that is known when the instance is defined, being a literal, and is one of the four reserved
values. -/
def literalReserved : Option Operand → Bool
  | some (.lit (.word [f0, f1, f2])) => !selectDefined ⟨f0, f1, f2⟩
  | _ => false

/-- The contract of an instance. An ALU's `F` is a port for a word of three bits. A reserved literal on it is refused when the
instance is defined; what a wire on it will hold is not known then (60_exceptions.md R99). -/
def instContract : Inst → Contract
  | .cell i => instrContract i
  | .alu D f op1 op2 _ =>
    { Contract.plain [D] [.wordIn Config.selectWidth f, .wordIn D op1, .wordIn D op2] with reserved := literalReserved f }

/-- The output ports of an instance. -/
def instPorts : Inst → List (Option Name × Ty)
  | .cell i => instrPorts i
  | .alu D _ _ _ r => [(r, .word D)]

/-- The wires an instance drives. -/
def instDrives (x : Inst) : List Name := (instPorts x).filterMap Prod.fst

/-- The wire an operand reads, if it reads one. -/
def operandWire : Operand → Option Name
  | .wire n => some n
  | .query n _ => some n
  | .lit _ => none

/-- The wires an instance reads. -/
def instReads (x : Inst) : List Name :=
  (instContract x).ports.filterMap fun p => p.arg.bind operandWire

/-- The type of the wire or literal an operand names, before a position of it is taken. None for a wire that nothing
drives. -/
def operandBase (tyOf : Name → Option Ty) : Operand → Option Ty
  | .wire n => tyOf n
  | .query n _ => tyOf n
  | .lit v => some v.ty

/-- R98: a word of width zero or less. -/
def tyZeroWidth : Ty → Bool
  | .bit => false
  | .word D => decide (D ≤ 0)

/-- R98, for what a port is connected to. -/
def argZeroWidth (tyOf : Name → Option Ty) (a : Option Operand) : Bool :=
  match a with
  | none => false
  | some o => match operandBase tyOf o with
    | none => false
    | some t => tyZeroWidth t

/-- R100: an input port with no driver and no default. -/
def portUnconnected (tyOf : Name → Option Ty) (p : Port) : Bool :=
  match p.arg with
  | none => !p.omissible
  | some o => (operandBase tyOf o).isNone

/-- R95: whether a port accepts what an operand offers: an operand `n[i]` is a Bit taken from a Word. -/
def portAccepts (t : PortTy) (o : Operand) (base : Ty) : Bool :=
  match o, base, t with
  | .query _ _, .word _, .bit => true
  | .query _ _, _, _ => false
  | _, .bit, .bit => true
  | _, .word _, .anyWord => true
  | _, .word n, .word D => decide (n = D)
  | _, _, _ => false

/-- R95, for one port. -/
def portMismatch (tyOf : Name → Option Ty) (p : Port) : Bool :=
  match p.arg with
  | none => false
  | some o => match operandBase tyOf o with
    | none => false
    | some t => !portAccepts p.ty o t

/-- R97: a position outside `0 .. D-1` of a word of width `D`. -/
def positionOutside (i : Int) (t : Option Ty) : Bool :=
  match t with
  | some (.word D) => decide (i < 0 ∨ D ≤ i)
  | _ => false

/-- R97, for an operand of the form `n[i]`. -/
def portOutOfRange (tyOf : Name → Option Ty) (p : Port) : Bool :=
  match p.arg with
  | some (.query n i) => positionOutside i (tyOf n)
  | _ => false

/-- R97, for a bit-position query instance: its position against the word its one port is connected to. -/
def queryOutOfRange (tyOf : Name → Option Ty) (c : Contract) : Bool :=
  match c.position, c.ports with
  | some i, p :: _ => positionOutside i (p.arg.bind (operandBase tyOf))
  | _, _ => false

/-- R96: a target width below the source width. -/
def convNarrows : Option (Int × Int) → Bool
  | some (M, D) => decide (D < M)
  | none => false

/-- R101: the checks of one instance, in the order they run. -/
def contractViolations (policy : ReservedFPolicy) (tyOf : Name → Option Ty) (c : Contract) : List (Bool × Reason) :=
  [(c.widths.any (fun D => decide (D ≤ 0)) || c.ports.any (fun p => argZeroWidth tyOf p.arg) ||
      argZeroWidth tyOf c.extra, .zeroWidth),
   (c.ports.any (portUnconnected tyOf), .unconnectedInput),
   (c.extra.isSome, .extraOperand),
   (c.ports.any (portMismatch tyOf), .widthMismatch),
   (convNarrows c.convert, .convNarrowing),
   (c.ports.any (portOutOfRange tyOf) || queryOutOfRange tyOf c, .indexOutOfRange),
   (c.reserved && decide (policy = .refuse), .reservedFunctionSelect)]

/-- R101: the first check that fails, if one does. -/
def contractCheck (policy : ReservedFPolicy) (tyOf : Name → Option Ty) (c : Contract) : Option Reason :=
  ((contractViolations policy tyOf c).find? (·.1)).map (·.2)

/-- What a refusal names (R94): a wire, or an instance. -/
inductive Site where
  | wire (n : Name)
  | inst (x : Inst)
  deriving DecidableEq, Repr

/-- The drivers of a netlist's wires: the input declarations, and every connected output port, in written order. -/
def netlistDrivers (nl : Netlist) : List (Name × Ty) :=
  nl.inputs ++ nl.insts.flatMap fun x => (instPorts x).filterMap fun p => p.1.map fun n => (n, p.2)

/-- The type of a wire: the type its driver gives it. None for a name that nothing drives. DESIGN CHOICE (log 24): a wire with two
drivers, which R100 refuses in the end, has the type its first driver gives it, input declarations before instances; so an
instance that reads it is checked against that type first. Safe: the netlist is refused either way. -/
def netlistTy (nl : Netlist) (n : Name) : Option Ty :=
  ((netlistDrivers nl).find? fun d => decide (d.1 = n)).map (·.2)

/-- The first name that stands twice in a list. -/
def firstRepeated : List Name → Option Name
  | [] => none
  | n :: ns => if n ∈ ns then some n else firstRepeated ns

/-- Whether every wire an instance reads is among those that have a value. -/
def instReady (known : List Name) (x : Inst) : Bool := (instReads x).all fun n => decide (n ∈ known)

/-- The first instance, in written order, whose operands all have their values, and the instances left. R37: only data
dependency orders an evaluation; written order breaks the tie (log 2). -/
def pickReady (known : List Name) : List Inst → Option (Inst × List Inst)
  | [] => none
  | x :: xs =>
    if instReady known x then some (x, xs)
    else match pickReady known xs with
      | none => none
      | some (y, rest) => some (y, x :: rest)

/-- The instances that never get their operands when one ready instance after another is evaluated. -/
def neverReady : Nat → List Name → List Inst → List Inst
  | 0, _, xs => xs
  | k + 1, known, xs =>
    match pickReady known xs with
    | none => xs
    | some (x, rest) => neverReady k (known ++ instDrives x) rest

/-- The wires that the values on some wires depend on: those wires, the reads of the instances that drive them, and so on, down to
a number of levels. -/
def upstream (xs : List Inst) : Nat → List Name → List Name
  | 0, ns => ns
  | k + 1, ns =>
    upstream xs k (((xs.filter fun x => (instDrives x).any fun n => decide (n ∈ ns)).flatMap instReads).foldr List.insert ns)

/-- R94: "an instance's input depends on its own output". No chain of dependencies without a repeat is longer than the number
of instances. -/
def onCycle (xs : List Inst) (x : Inst) : Bool :=
  (instDrives x).any fun n => decide (n ∈ upstream xs xs.length (instReads x))

/-- R98 for the declarations: the first input wire of width zero or less. -/
def inputViolation (nl : Netlist) : Option (Site × Reason) :=
  (nl.inputs.find? fun d => tyZeroWidth d.2).map fun d => (.wire d.1, .zeroWidth)

/-- The first instance, in written order, whose own contract is broken (R101). -/
def instViolation (policy : ReservedFPolicy) (nl : Netlist) : Option (Site × Reason) :=
  nl.insts.findSome? fun x => (contractCheck policy (netlistTy nl) (instContract x)).map fun r => (.inst x, r)

/-- An output declaration that names a wire nothing drives (log 13). -/
def outputViolation (nl : Netlist) : Option (Site × Reason) :=
  (nl.outputs.find? fun n => (netlistTy nl n).isNone).map fun n => (.wire n, .unconnectedInput)

/-- R100: a wire with two drivers. -/
def driverViolation (nl : Netlist) : Option (Site × Reason) :=
  (firstRepeated ((netlistDrivers nl).map (·.1))).map fun n => (.wire n, .multipleDrivers)

/-- R100, R102: a cycle, named by the first instance in written order that stands on one. Some instance never gets its operands
exactly when there is a cycle, in a netlist whose reads are all driven; for other netlists, which are refused before this
check, the first such instance is named. -/
def cycleViolation (nl : Netlist) : Option (Site × Reason) :=
  let stuck := neverReady nl.insts.length (nl.inputs.map (·.1)) nl.insts
  (stuck.find? (onCycle nl.insts) <|> stuck.head?).map fun x => (.inst x, .combinationalCycle)

/-- R101: the declarations and the instances in written order, the netlist-wide checks last; the first failure is
reported. -/
def netlistCheck (policy : ReservedFPolicy) (nl : Netlist) : Option (Site × Reason) :=
  inputViolation nl <|> instViolation policy nl <|> outputViolation nl <|> driverViolation nl <|> cycleViolation nl

end Sys2Proof.Machine
end

