-- ==== Sys2Proof/WellFormed.lean ====
section
/-! DEFINITION. Well-formed instances and netlists (spec/30_encoding.md R49, spec/60_exceptions.md R93 to R101): the compositions
that no check refuses. The checks themselves stand in Machine/Contract.lean. -/

namespace Sys2Proof

open Sys2Proof.Machine

/-- An operation is well-formed, among wires of given types, when none of the checks of R101 refuses it. -/
def Instr.WellFormed (policy : ReservedFPolicy) (tyOf : Name → Option Ty) (i : Instr) : Bool :=
  (contractCheck policy tyOf (instrContract i)).isNone

/-- An instance is well-formed, among wires of given types, when none of the checks of R101 refuses it. -/
def Inst.WellFormed (policy : ReservedFPolicy) (tyOf : Name → Option Ty) (x : Inst) : Bool :=
  (contractCheck policy tyOf (instContract x)).isNone

/-- A netlist is well-formed when its declarations, its instances and the netlist-wide checks all pass (R49, R101). -/
def Netlist.WellFormed (policy : ReservedFPolicy) (nl : Netlist) : Bool :=
  (netlistCheck policy nl).isNone

end Sys2Proof
end

