-- ==== Sys2Proof/Machine/State.lean ====
section
/-! DEFINITION. The state of an evaluation. The hardware keeps no state (spec/10_state.md R15); what stands here is the composition
under evaluation, one assignment of values to its wires, and how far the evaluation has come (log 1). -/

namespace Sys2Proof.Machine

open Sys2Proof

/-- The values on wires, sorted by name, one entry a name. A name that is not listed has no value (D3: there is no undriven
value). -/
abbrev Wires := List (Name × Value)

/-- The state: plain data. -/
structure State where
  /-- The parameters of the machine (00_scope.md R5); no step changes them. -/
  params : Params
  /-- The composition as it was defined (30_encoding.md R49); no step changes it. -/
  netlist : Netlist
  /-- The values of the inputs, which the collaborator drives, and of the outputs of the instances evaluated so far. -/
  wires : Wires
  /-- The instances the evaluation has still to evaluate, in written order. The model's own field (log 1). -/
  pending : List Inst
  deriving DecidableEq, Repr

/-- R93: "Nothing fails at evaluation time." The core has no fault, so there is no reason for one. -/
inductive Fault where
  deriving DecidableEq, Repr

/-- Why the model gives a composition, an instance or an evaluation no result. -/
inductive Refusal where
  /-- An instruction `exec` has no meaning for yet, by its mnemonic. Raised by `exec` alone; safe. No arm raises it. -/
  | notModelled (mnemonic : String)
  /-- R94: the composition is ill-formed at this site for this reason. Raised by `step` for a netlist, its inputs or an
  evaluation, and by every meaning for an instance. The spec gives such a composition no outputs and no meaning (R102);
  safe. -/
  | illFormed (site : Site) (r : Reason)
  deriving DecidableEq, Repr

/-- R30, R109: there is nothing for a reset to set. No composition is defined, no wire has a value, no evaluation is under way
(log 6); the parameters have their default settings (log 4, log 5). -/
def State.reset : State :=
  { params := Config.params, netlist := Netlist.empty, wires := [], pending := [] }

end Sys2Proof.Machine
end

