-- ==== Sys2Proof/Machine/Ops.lean ====
section
/-! DEFINITION. The named operations on the state: reading and driving wires, refusing, laying a composition before the core, and finding
the next instance of an evaluation. -/

namespace Sys2Proof.Machine

open Sys2Proof

/-- What a meaning answers. -/
abbrev Result := Host.Outcome State Fault Refusal

/-! ### Wires -/

/-- The order in which `Wires` lists names: byte by byte, a name before its extensions. -/
def nameBefore : Name → Name → Bool
  | [], [] => false
  | [], _ :: _ => true
  | _ :: _, [] => false
  | a :: m, b :: n => if a.toNat < b.toNat then true else if b.toNat < a.toNat then false else nameBefore m n

/-- The value of a wire; none when nothing has driven it. -/
def wiresGet : Wires → Name → Option Value
  | [], _ => none
  | (m, v) :: ws, n => if m = n then some v else wiresGet ws n

/-- The wires after one of them is given a value. -/
def wiresSet : Wires → Name → Value → Wires
  | [], n, v => [(n, v)]
  | (m, u) :: ws, n, v =>
    if m = n then (n, v) :: ws
    else if nameBefore n m then (n, v) :: (m, u) :: ws
    else (m, u) :: wiresSet ws n v

/-- The canonical form: names strictly rising. -/
def wiresWf : Wires → Bool
  | [] => true
  | [_] => true
  | a :: b :: ws => nameBefore a.1 b.1 && wiresWf (b :: ws)

/-- The wires after output ports are given their values, in order; an unconnected output goes nowhere. -/
def wiresDrive : Wires → List (Option Name) → List Value → Wires
  | ws, some n :: ns, v :: vs => wiresDrive (wiresSet ws n v) ns vs
  | ws, none :: ns, _ :: vs => wiresDrive ws ns vs
  | ws, _, _ => ws

/-- The type of a wire, as the value on it shows it. -/
def State.tyOf (s : State) (n : Name) : Option Ty := (wiresGet s.wires n).map Value.ty

/-- The state after output ports are given their values (10_state.md R22: an evaluation writes nothing but its outputs). -/
def State.drive (s : State) (outs : List (Option Name)) (vs : List Value) : State :=
  { s with wires := wiresDrive s.wires outs vs }

/-- The state with other instances left to evaluate. -/
def State.withPending (s : State) (xs : List Inst) : State := { s with pending := xs }

/-! ### Refusing, and giving a result -/

/-- R102: what a refusal does. It saves nothing, changes nothing and transfers control nowhere; it names the site and the
reason (R94). -/
def refuse (site : Site) (r : Reason) : Result := .refused (.illFormed site r)

/-- The one way an operation gives its result: its contract is checked (R101), and if nothing is refused its output ports are
driven with the values computed from its inputs. Where the contract holds the inputs can be read, so the last arm is
reached in no state (Laws/Perform.lean). -/
def State.perform (s : State) (i : Instr) (values : Option (List Value)) : Result :=
  match contractCheck s.params.reservedF s.tyOf (instrContract i) with
  | some r => refuse (.inst (.cell i)) r
  | none => match values with
    | some vs => .next (s.drive ((instrPorts i).map Prod.fst) vs)
    | none => refuse (.inst (.cell i)) .unconnectedInput

/-! ### What the collaborator does (10_state.md R23) -/

/-- The assignment of a netlist's inputs: the values offered for its declared inputs. A value offered for any other name
drives nothing (log 14). -/
def inputWires (nl : Netlist) (offered : List (Name × Value)) : Wires :=
  offered.foldl (fun ws d => if d.1 ∈ nl.inputs.map Prod.fst then wiresSet ws d.1 d.2 else ws) []

/-- The collaborator defines a composition and drives its inputs: a new evaluation begins, with every instance to evaluate.
Nothing of an earlier evaluation is carried over (R22). -/
def State.present (s : State) (nl : Netlist) (offered : List (Name × Value)) : State :=
  { s with netlist := nl, wires := inputWires nl offered, pending := nl.insts }

/-! ### The course of an evaluation -/

/-- The names that have a value. -/
def State.known (s : State) : List Name := s.wires.map Prod.fst

/-- The first instance, in written order, that has its operands, and the instances left (R37, log 2). -/
def State.nextInst (s : State) : Option (Inst × List Inst) := pickReady s.known s.pending

/-- R112, D3: an input port that carries no value, or a value of another type than the declared one. -/
def State.inputFault (s : State) : Option (Site × Reason) :=
  s.netlist.inputs.findSome? fun d =>
    match s.tyOf d.1 with
    | none => some (.wire d.1, .unconnectedInput)
    | some t => if t = d.2 then none else some (.wire d.1, .widthMismatch)

/-- Whether the composition and its inputs are refused, and why. -/
def State.violation (s : State) : Option (Site × Reason) :=
  netlistCheck s.params.reservedF s.netlist <|> s.inputFault

end Sys2Proof.Machine
end

