-- ==== Sys2Proof/Machine/Operands.lean ====
section
/-! DEFINITION. Reading operands: wires, positions of words, literals, omitted carry-ins (spec/30_encoding.md R47), and reading a
function-select from the port `F` (spec/43_alu.md R91). -/

namespace Sys2Proof.Machine

open Sys2Proof

/-- The value of an operand (R51). -/
def State.read (s : State) : Operand → Option Value
  | .wire n => wiresGet s.wires n
  | .query n i => match wiresGet s.wires n with
    | some (.word w) => (bitAt w i).map Value.bit
    | _ => none
  | .lit v => some v

/-- The Bit on a port. -/
def State.bitOf (s : State) (a : Option Operand) : Option Bit :=
  match a.bind s.read with
  | some (.bit b) => some b
  | _ => none

/-- R28, R47 (1): the Bit on a carry-in, `LOW` when it is omitted. -/
def State.carryOf (s : State) (a : Option Operand) : Option Bit :=
  match a with
  | none => some .LOW
  | some o => s.bitOf (some o)

/-- The Word on a port, of any width of at least one. -/
def State.anyWordOf (s : State) (a : Option Operand) : Option Word :=
  match a.bind s.read with
  | some (.word w) => if 1 ≤ w.length then some w else none
  | _ => none

/-- The Word on a port for a Word of width `D` (20_memory.md R35). -/
def State.wordOf (s : State) (D : Int) (a : Option Operand) : Option Word :=
  match s.anyWordOf a with
  | some w => if (w.length : Int) = D then some w else none
  | none => none

/-- R91: an ALU's `F` is read at the evaluation that uses it, and its value says which operation the instance is. Every other
instance is an operation already. Of an `F` that holds a reserved value under the policy `refuse` the spec says only that the
evaluation has no result (R87, R99). DESIGN CHOICE (log 23): it is refused with `ReservedFunctionSelect`, naming the ALU
instance as it stands in the netlist; safe. -/
def State.select (s : State) : Inst → Except (Site × Reason) Instr
  | .cell i => .ok i
  | .alu D f op1 op2 r =>
    match contractCheck s.params.reservedF s.tyOf (instContract (.alu D f op1 op2 r)) with
    | some e => .error (.inst (.alu D f op1 op2 r), e)
    | none => match (s.wordOf Config.selectWidth f).bind selectOfWord with
      | some sel =>
        if selectDefined sel = false ∧ s.params.reservedF = .refuse then
          .error (.inst (.alu D f op1 op2 r), .reservedFunctionSelect)
        else .ok (decodeSelect sel D op1 op2 r)
      | none => .error (.inst (.alu D f op1 op2 r), .widthMismatch)

end Sys2Proof.Machine
end

