-- ==== Sys2Proof/Machine/AddersMux.lean ====
section
/-! DEFINITION. The half-adder, the full-adder and the bit multiplexer (spec/41_adders_mux.md). -/

namespace Sys2Proof.Machine

open Sys2Proof

/-- R62. -/
def execHa (a b : Option Operand) (sum carry : Option Name) (s : State) : Result :=
  s.perform (.ha a b sum carry) do
    let x ← s.bitOf a
    let z ← s.bitOf b
    let out := halfAdder nandGate x z
    some [.bit out.sum, .bit out.carry]

/-- R63; `c` is `LOW` when omitted. -/
def execFa (a b c : Option Operand) (sum carry : Option Name) (s : State) : Result :=
  s.perform (.fa a b c sum carry) do
    let x ← s.bitOf a
    let z ← s.bitOf b
    let k ← s.carryOf c
    let out := fullAdder nandGate x z k
    some [.bit out.sum, .bit out.carry]

/-- R65. Both data inputs are always computed; neither is skipped (43_alu.md R119). -/
def execMux (a b sel : Option Operand) (y : Option Name) (s : State) : Result :=
  s.perform (.mux a b sel y) do
    let x ← s.bitOf a
    let z ← s.bitOf b
    let k ← s.bitOf sel
    some [.bit (muxGate nandGate x z k)]

end Sys2Proof.Machine
end

