-- ==== Sys2Proof/Machine/Alu.lean ====
section
/-! DEFINITION. The ALU's eight function-selects (spec/43_alu.md). Each gives the composition of R80 at its select. The four reserved
ones are refused by their contract under the policy `refuse` and give the composition's value under `datapath` (R87). -/

namespace Sys2Proof.Machine

open Sys2Proof

/-- R80, R81: the result of the ALU at one function-select, if both operands can be read. -/
def State.aluValue (s : State) (f : FunctionSelect) (D : Int) (op1 op2 : Option Operand) : Option (List Value) := do
  let A ← s.wordOf D op1
  let B ← s.wordOf D op2
  some [.word (aluDatapath nandGate s.params.muxSum f A B)]

/-- R82. -/
def execAluOr (D : Int) (op1 op2 : Option Operand) (r : Option Name) (s : State) : Result :=
  s.perform (.aluOr D op1 op2 r) (s.aluValue ⟨.LOW, .LOW, .LOW⟩ D op1 op2)

/-- R84. -/
def execAluAdd (D : Int) (op1 op2 : Option Operand) (r : Option Name) (s : State) : Result :=
  s.perform (.aluAdd D op1 op2 r) (s.aluValue ⟨.LOW, .LOW, .HIGH⟩ D op1 op2)

/-- R83. -/
def execAluAnd (D : Int) (op1 op2 : Option Operand) (r : Option Name) (s : State) : Result :=
  s.perform (.aluAnd D op1 op2 r) (s.aluValue ⟨.LOW, .HIGH, .LOW⟩ D op1 op2)

/-- R87, `(LOW, HIGH, HIGH)`. -/
def execAluReserved011 (D : Int) (op1 op2 : Option Operand) (r : Option Name) (s : State) : Result :=
  s.perform (.aluReserved011 D op1 op2 r) (s.aluValue ⟨.LOW, .HIGH, .HIGH⟩ D op1 op2)

/-- R87, `(HIGH, LOW, LOW)`. -/
def execAluReserved100 (D : Int) (op1 op2 : Option Operand) (r : Option Name) (s : State) : Result :=
  s.perform (.aluReserved100 D op1 op2 r) (s.aluValue ⟨.HIGH, .LOW, .LOW⟩ D op1 op2)

/-- R85. -/
def execAluSub (D : Int) (op1 op2 : Option Operand) (r : Option Name) (s : State) : Result :=
  s.perform (.aluSub D op1 op2 r) (s.aluValue ⟨.HIGH, .LOW, .HIGH⟩ D op1 op2)

/-- R87, `(HIGH, HIGH, LOW)`. -/
def execAluReserved110 (D : Int) (op1 op2 : Option Operand) (r : Option Name) (s : State) : Result :=
  s.perform (.aluReserved110 D op1 op2 r) (s.aluValue ⟨.HIGH, .HIGH, .LOW⟩ D op1 op2)

/-- R87, `(HIGH, HIGH, HIGH)`. -/
def execAluReserved111 (D : Int) (op1 op2 : Option Operand) (r : Option Name) (s : State) : Result :=
  s.perform (.aluReserved111 D op1 op2 r) (s.aluValue ⟨.HIGH, .HIGH, .HIGH⟩ D op1 op2)

end Sys2Proof.Machine
end

