-- ==== Sys2Proof/Machine/Gates.lean ====
section
/-! DEFINITION. The six gates (spec/40_gates.md). Each reads its Bit inputs and drives one Bit; no flags, no refusals of its own. -/

namespace Sys2Proof.Machine

open Sys2Proof

/-- R55. -/
def execNand (a b : Option Operand) (y : Option Name) (s : State) : Result :=
  s.perform (.nand a b y) do
    let x ← s.bitOf a
    let z ← s.bitOf b
    some [.bit (nandGate x z)]

/-- R57. -/
def execNot (a : Option Operand) (y : Option Name) (s : State) : Result :=
  s.perform (.not a y) do
    let x ← s.bitOf a
    some [.bit (notGate nandGate x)]

/-- R58. -/
def execAnd (a b : Option Operand) (y : Option Name) (s : State) : Result :=
  s.perform (.and a b y) do
    let x ← s.bitOf a
    let z ← s.bitOf b
    some [.bit (andGate nandGate x z)]

/-- R59. -/
def execOr (a b : Option Operand) (y : Option Name) (s : State) : Result :=
  s.perform (.or a b y) do
    let x ← s.bitOf a
    let z ← s.bitOf b
    some [.bit (orGate nandGate x z)]

/-- R60. -/
def execNor (a b : Option Operand) (y : Option Name) (s : State) : Result :=
  s.perform (.nor a b y) do
    let x ← s.bitOf a
    let z ← s.bitOf b
    some [.bit (norGate nandGate x z)]

/-- R61. -/
def execXor (a b : Option Operand) (y : Option Name) (s : State) : Result :=
  s.perform (.xor a b y) do
    let x ← s.bitOf a
    let z ← s.bitOf b
    some [.bit (xorGate nandGate x z)]

end Sys2Proof.Machine
end

