-- ==== Sys2Proof/Machine/WordOps.lean ====
section
/-! DEFINITION. The word cells (spec/42_word_ops.md) and the bit-position query (spec/00_scope.md R13). -/

namespace Sys2Proof.Machine

open Sys2Proof

/-- R68. -/
def execWnand (D : Int) (a b : Option Operand) (r : Option Name) (s : State) : Result :=
  s.perform (.wnand D a b r) do
    let A ← s.wordOf D a
    let B ← s.wordOf D b
    some [.word (lift2 nandGate A B)]

/-- R67. A second operand is refused (`ExtraOperand`) by the contract. -/
def execWnot (D : Int) (a extra : Option Operand) (r : Option Name) (s : State) : Result :=
  s.perform (.wnot D a extra r) do
    let A ← s.wordOf D a
    some [.word (wordNot nandGate A)]

/-- R69. -/
def execWand (D : Int) (a b : Option Operand) (r : Option Name) (s : State) : Result :=
  s.perform (.wand D a b r) do
    let A ← s.wordOf D a
    let B ← s.wordOf D b
    some [.word (lift2 (andGate nandGate) A B)]

/-- R70. -/
def execWor (D : Int) (a b : Option Operand) (r : Option Name) (s : State) : Result :=
  s.perform (.wor D a b r) do
    let A ← s.wordOf D a
    let B ← s.wordOf D b
    some [.word (lift2 (orGate nandGate) A B)]

/-- R71, admitted by C5 and D17. -/
def execWnor (D : Int) (a b : Option Operand) (r : Option Name) (s : State) : Result :=
  s.perform (.wnor D a b r) do
    let A ← s.wordOf D a
    let B ← s.wordOf D b
    some [.word (lift2 (norGate nandGate) A B)]

/-- R72. -/
def execWxor (D : Int) (a b : Option Operand) (r : Option Name) (s : State) : Result :=
  s.perform (.wxor D a b r) do
    let A ← s.wordOf D a
    let B ← s.wordOf D b
    some [.word (lift2 (xorGate nandGate) A B)]

/-- R73; `cin` is `LOW` when omitted. -/
def execAdd (D : Int) (a b cin : Option Operand) (sum cout : Option Name) (s : State) : Result :=
  s.perform (.add D a b cin sum cout) do
    let A ← s.wordOf D a
    let B ← s.wordOf D b
    let k ← s.carryOf cin
    let out := rippleAdd nandGate A B k
    some [.word out.sum, .bit out.carry]

/-- R75. -/
def execWmux (D : Int) (a b sel : Option Operand) (r : Option Name) (s : State) : Result :=
  s.perform (.wmux D a b sel r) do
    let A ← s.wordOf D a
    let B ← s.wordOf D b
    let k ← s.bitOf sel
    some [.word (wordMux nandGate A B k)]

/-- R77. A target width below the source width is refused (`ConvNarrowing`) by the contract. -/
def execConv (M D : Int) (a : Option Operand) (r : Option Name) (s : State) : Result :=
  s.perform (.conv M D a r) do
    let A ← s.wordOf M a
    some [.word (zeroExtend D.toNat A)]

/-- R13. A position outside the word is refused (`IndexOutOfRange`) by the contract. -/
def execBitQuery (i : Int) (w : Option Operand) (y : Option Name) (s : State) : Result :=
  s.perform (.bitQuery i w y) do
    let W ← s.anyWordOf w
    let b ← bitAt W i
    some [.bit b]

end Sys2Proof.Machine
end

