-- ==== Sys2Proof/Machine/Dispatch.lean ====
section
/-! DEFINITION. exec: one arm per operation of spec/opcode_table.json, each one call of that operation's meaning. -/

namespace Sys2Proof.Machine

open Sys2Proof

def exec (i : Instr) (s : State) : Host.Outcome State Fault Refusal :=
  match i with
  | .nand a b y => Sys2Proof.Machine.execNand a b y s
  | .not a y => Sys2Proof.Machine.execNot a y s
  | .and a b y => Sys2Proof.Machine.execAnd a b y s
  | .or a b y => Sys2Proof.Machine.execOr a b y s
  | .nor a b y => Sys2Proof.Machine.execNor a b y s
  | .xor a b y => Sys2Proof.Machine.execXor a b y s
  | .ha a b sum carry => Sys2Proof.Machine.execHa a b sum carry s
  | .fa a b c sum carry => Sys2Proof.Machine.execFa a b c sum carry s
  | .mux a b sel y => Sys2Proof.Machine.execMux a b sel y s
  | .wnand D a b r => Sys2Proof.Machine.execWnand D a b r s
  | .wnot D a extra r => Sys2Proof.Machine.execWnot D a extra r s
  | .wand D a b r => Sys2Proof.Machine.execWand D a b r s
  | .wor D a b r => Sys2Proof.Machine.execWor D a b r s
  | .wnor D a b r => Sys2Proof.Machine.execWnor D a b r s
  | .wxor D a b r => Sys2Proof.Machine.execWxor D a b r s
  | .add D a b cin sum cout => Sys2Proof.Machine.execAdd D a b cin sum cout s
  | .wmux D a b sel r => Sys2Proof.Machine.execWmux D a b sel r s
  | .conv M D a r => Sys2Proof.Machine.execConv M D a r s
  | .bitQuery pos w y => Sys2Proof.Machine.execBitQuery pos w y s
  | .aluOr D op1 op2 r => Sys2Proof.Machine.execAluOr D op1 op2 r s
  | .aluAdd D op1 op2 r => Sys2Proof.Machine.execAluAdd D op1 op2 r s
  | .aluAnd D op1 op2 r => Sys2Proof.Machine.execAluAnd D op1 op2 r s
  | .aluReserved011 D op1 op2 r => Sys2Proof.Machine.execAluReserved011 D op1 op2 r s
  | .aluReserved100 D op1 op2 r => Sys2Proof.Machine.execAluReserved100 D op1 op2 r s
  | .aluSub D op1 op2 r => Sys2Proof.Machine.execAluSub D op1 op2 r s
  | .aluReserved110 D op1 op2 r => Sys2Proof.Machine.execAluReserved110 D op1 op2 r s
  | .aluReserved111 D op1 op2 r => Sys2Proof.Machine.execAluReserved111 D op1 op2 r s

end Sys2Proof.Machine
end

