-- ==== Sys2Proof/Machine/Step.lean ====
section
/-! DEFINITION. step: the core evaluates one instance of the composition before it (spec/10_state.md R22, log 1), and the state from
which step runs one given instruction (log 7). -/

namespace Sys2Proof.Machine

open Sys2Proof

/-- The evaluation of one instance: the operation it is (R91), given its meaning. A reserved value on an ALU's `F` is refused by
`State.select` before there is an operation (log 23). -/
def evalInst (x : Inst) (s : State) : Result :=
  match s.select x with
  | .error (site, r) => refuse site r
  | .ok i => exec i s

/-- One step of an evaluation. A refused composition has no outputs and no evaluation (R102). When every instance has been
evaluated the evaluation is over (R116) and its values stand (log 3). Otherwise the next instance that has its operands is
evaluated. In no proper state (Safety.lean) does every instance left lack one; elsewhere the first of them is refused for a
port on a wire that nothing has driven (R100). -/
def step (s : State) : Host.Outcome State Fault Refusal :=
  match s.violation with
  | some (site, r) => refuse site r
  | none => match s.pending with
    | [] => .next s
    | x :: _ => match s.nextInst with
      | none => refuse (.inst x) .unconnectedInput
      | some (y, rest) => match evalInst y s with
        | .next t => .next (t.withPending rest)
        | .fault f => .fault f
        | .refused r => .refused r

/-- The instance that a function-select of `nbits` bits makes, with the connections of `decodeTableWord`. Bits beyond the
three of a function-select make it a word that no ALU takes. -/
def tableInst (nbits w : Nat) : Inst :=
  match decodeTableWord nbits w with
  | some i => .cell i
  | none => .alu Config.tableWidth (some (.lit (.word (Word.ofVal nbits w)))) (some tableOperand) (some tableOperand)
    (some tableResult)

/-- The state with one instance laid before the core, so that the next step evaluates it (log 6, log 7). -/
def State.withFetchWord (s : State) (nbits w : Nat) : State :=
  s.present { inputs := [], insts := [tableInst nbits w], outputs := [tableResult] } []

end Sys2Proof.Machine
end

