-- ==== Sys2Proof/Machine/Structure.lean ====
section
/-! DEFINITION. The structure of the cells, for information: the compositions that 40_gates.md, 41_adders_mux.md, 42_word_ops.md and
43_alu.md write down, as syntax; what they evaluate to over a primitive (R56); and how many applications of it they hold as
written (R90, R118). Values and counts are read off the same syntax. No step depends on this file. -/

namespace Sys2Proof.Machine

open Sys2Proof

/-! ### Bit cells -/

/-- An expression over the numbered inputs of a bit cell: applications of gates with one or two inputs. -/
inductive BitExpr where
  | input (k : Nat)
  | app1 (gate : OpName) (x : BitExpr)
  | app2 (gate : OpName) (x y : BitExpr)
  deriving DecidableEq, Repr

/-- The value of an expression, for values of the gates and of the inputs (an input beyond the list is `LOW`). -/
def BitExpr.eval (gate : OpName → List Bit → Bit) (env : List Bit) : BitExpr → Bit
  | .input k => env.getD k .LOW
  | .app1 o x => gate o [x.eval gate env]
  | .app2 o x y => gate o [x.eval gate env, y.eval gate env]

/-- The size of an expression, for sizes of the gates: each textual application once. -/
def BitExpr.size (gate : OpName → Nat) : BitExpr → Nat
  | .input _ => 0
  | .app1 o x => gate o + x.size gate
  | .app2 o x y => gate o + x.size gate + y.size gate

/-- The compositions of R57 to R63 and R65, one for each output, inputs numbered in the order of the ports. None for NAND, which is
primitive, and for the word cells. -/
def composition : OpName → List BitExpr
  | .not => [.app2 .nand (.input 0) (.input 0)]
  | .and => [.app1 .not (.app2 .nand (.input 0) (.input 1))]
  | .or => [.app2 .nand (.app1 .not (.input 0)) (.app1 .not (.input 1))]
  | .nor => [.app1 .not (.app2 .or (.input 0) (.input 1))]
  | .xor =>
    let n : BitExpr := .app2 .nand (.input 0) (.input 1)
    [.app2 .nand (.app2 .nand n (.input 0)) (.app2 .nand n (.input 1))]
  | .ha => [.app2 .xor (.input 0) (.input 1), .app2 .and (.input 0) (.input 1)]
  | .fa =>
    let x : BitExpr := .app2 .xor (.input 0) (.input 1)
    [.app2 .xor x (.input 2), .app2 .or (.app2 .and (.input 0) (.input 1)) (.app2 .and x (.input 2))]
  | .mux => [.app2 .or (.app2 .and (.input 0) (.app1 .not (.input 2))) (.app2 .and (.input 1) (.input 2))]
  | .nand | .wnand | .wnot | .wand | .wor | .wnor | .wxor | .add | .wmux | .conv | .bitQuery
  | .alu | .aluOr | .aluAdd | .aluAnd | .aluSub => []

/-- The outputs of a bit cell over a primitive, composition by composition, down to a number of levels. -/
def outputsAt (g : Prim) : Nat → OpName → List Bit → List Bit
  | 0, _, _ => []
  | k + 1, o, env =>
    if o = .nand then [g (env.getD 0 .LOW) (env.getD 1 .LOW)]
    else (composition o).map fun e => e.eval (fun gate vs => (outputsAt g k gate vs).headD .LOW) env

/-- R118: the applications of the primitive in a bit cell, down to a number of levels. -/
def sizeAt : Nat → OpName → Nat
  | 0, _ => 0
  | k + 1, o => if o = .nand then 1 else ((composition o).map fun e => e.size (sizeAt k)).sum

/-- The outputs of a bit cell. The deepest composition, FA over OR over NOT over NAND, has four levels. -/
def bitCellOutputs (g : Prim) (o : OpName) (env : List Bit) : List Bit := outputsAt g 4 o env

/-- R118: the applications of the primitive in one bit cell. -/
def bitCellSize (o : OpName) : Nat := sizeAt 4 o

/-! ### Word cells -/

/-- The bit cell that a word cell of width `D` has `D` of (R66, R73, R75); none for CONV, which has no gate (R77). -/
def perPosition : OpName → Option OpName
  | .wnand => some .nand
  | .wnot => some .not
  | .wand => some .and
  | .wor => some .or
  | .wnor => some .nor
  | .wxor => some .xor
  | .add => some .fa
  | .wmux => some .mux
  | .nand | .not | .and | .or | .nor | .xor | .ha | .fa | .mux | .conv | .bitQuery
  | .alu | .aluOr | .aluAdd | .aluAnd | .aluSub => none

/-- The two outputs of a word cell: its bit cell at every position, from the least significant one; the second output of each goes on
to the next more significant position (R73), and the first to the result. A cell whose bit cell has one output passes the
bit that enters on unchanged, so that it is one select for all positions (R75). -/
def wordCellOutputs (g : Prim) (o : OpName) : Word → Word → Bit → AddOut
  | a :: A, b :: B, k =>
    let low := wordCellOutputs g o A B k
    match (perPosition o).map fun cell => bitCellOutputs g cell [a, b, low.carry] with
    | some [r] => { sum := r :: low.sum, carry := low.carry }
    | some [r, c] => { sum := r :: low.sum, carry := c }
    | _ => { sum := low.sum, carry := low.carry }
  | _, _, k => { sum := [], carry := k }

/-- R118: the applications of the primitive in a word cell of width `D`, the ALU aside. -/
def wordCellSize (o : OpName) (D : Nat) : Nat :=
  match perPosition o with
  | some b => bitCellSize b * D
  | none => 0

/-! ### The ALU -/

/-- One sub-cell of the ALU: a word cell, its two word inputs by the number of the wire they come from, and its bit input by the
position in the function-select. A cell that has no second word or no bit input does not look at it. -/
structure AluSubcell where
  op : OpName
  x : Nat
  y : Nat
  f : Nat
  deriving DecidableEq, Repr

/-- R80, R90: the sub-cells of one ALU in the order R80 writes them; each drives the next wire, after wire 0, `OP1`, and wire 1,
`OP2`. R86: the no-op multiplexer stands before the last one where it is kept. -/
def aluSubcells (sel : MuxSumSel) : List AluSubcell :=
  let common : List AluSubcell :=
    [⟨.wnot, 1, 1, 0⟩, ⟨.wmux, 1, 2, 0⟩, ⟨.wor, 0, 3, 0⟩, ⟨.wand, 0, 3, 0⟩, ⟨.wmux, 4, 5, 1⟩, ⟨.add, 0, 3, 0⟩]
  match sel with
  | .omitted => common ++ [⟨.wmux, 6, 7, 2⟩]
  | .f0 => common ++ [⟨.wmux, 7, 7, 0⟩, ⟨.wmux, 6, 8, 2⟩]
  | .f1 => common ++ [⟨.wmux, 7, 7, 1⟩, ⟨.wmux, 6, 8, 2⟩]
  | .f2 => common ++ [⟨.wmux, 7, 7, 2⟩, ⟨.wmux, 6, 8, 2⟩]

/-- The words on the wires of an ALU after its sub-cells are evaluated one after the other. -/
def aluWires (g : Prim) (f : FunctionSelect) (cells : List AluSubcell) (wires : List Word) : List Word :=
  cells.foldl (fun ws c => ws ++ [(wordCellOutputs g c.op (ws.getD c.x []) (ws.getD c.y []) (f.toWord.getD c.f .LOW)).sum])
    wires

/-- R118: the applications of the primitive in one ALU of width `D`. -/
def aluSize (sel : MuxSumSel) (D : Nat) : Nat := ((aluSubcells sel).map fun c => wordCellSize c.op D).sum

end Sys2Proof.Machine
end

