-- ==== Sys2Proof/Machine/Flags.lean ====
section
/-! DEFINITION. Flags: the core has none (spec/10_state.md R18). No cell sets a status bit that a later operation reads, and the
ALU has no carry, overflow, zero or sign output (D19). The carry bits of HA, FA and ADD are ordinary outputs. This file
holds the one carry the spec speaks of that no port shows: the ALU's dropped carry-out, for statements about it. -/

namespace Sys2Proof.Machine

open Sys2Proof

/-- R80, R85: the carry-out of the adder inside the ALU. It is unconnected; nothing stores it. -/
def aluDroppedCarry (g : Prim) (f : FunctionSelect) (op1 op2 : Word) : Bit :=
  (rippleAdd g op1 (aluOp2 g f op2) f.f0).carry

end Sys2Proof.Machine
end

