-- ==== Sys2Proof/Safety.lean ====
section
/-! DEFINITION. What counts as a proper state of an evaluation and as its end, in the terms the statements use. -/

namespace Sys2Proof.Machine

open Sys2Proof

/-! ### Boolean functions (spec/00_scope.md section 6), used to state truth tables and laws, never to define a gate -/

/-- `¬a`. -/
def boolNot : Bit → Bit
  | .LOW => .HIGH
  | .HIGH => .LOW

/-- `a ∧ b`. -/
def boolAnd : Bit → Bit → Bit
  | .HIGH, .HIGH => .HIGH
  | _, _ => .LOW

/-- `a ∨ b`. -/
def boolOr : Bit → Bit → Bit
  | .LOW, .LOW => .LOW
  | _, _ => .HIGH

/-- `a ⊕ b`. -/
def boolXor : Bit → Bit → Bit
  | .LOW, .HIGH => .HIGH
  | .HIGH, .LOW => .HIGH
  | _, _ => .LOW

/-! ### The forms of cell -/

/-- A cell with two Bit inputs and one Bit output. -/
abbrev BitCell2 := Option Operand → Option Operand → Option Name → Instr

/-- A cell with a width, two Word inputs and one Word output. -/
abbrev WordCell2 := Int → Option Operand → Option Operand → Option Name → Instr

/-- The gates with two inputs, each with its function. -/
def bitCells2 : List (BitCell2 × (Bit → Bit → Bit)) :=
  [(.nand, nandGate), (.and, andGate nandGate), (.or, orGate nandGate), (.nor, norGate nandGate),
    (.xor, xorGate nandGate)]

/-- R66: the lifted two-input gates, each with its gate. -/
def liftedCells : List (WordCell2 × (Bit → Bit → Bit)) :=
  [(.wnand, nandGate), (.wand, andGate nandGate), (.wor, orGate nandGate), (.wnor, norGate nandGate),
    (.wxor, xorGate nandGate)]

/-- R43: the ALU operations of the defined function-selects. -/
def definedAluCells : List (WordCell2 × FunctionSelect) :=
  [(.aluOr, ⟨.LOW, .LOW, .LOW⟩), (.aluAnd, ⟨.LOW, .HIGH, .LOW⟩), (.aluAdd, ⟨.LOW, .LOW, .HIGH⟩),
    (.aluSub, ⟨.HIGH, .LOW, .HIGH⟩)]

/-- R44: the ALU operations of the reserved function-selects. -/
def reservedAluCells : List (WordCell2 × FunctionSelect) :=
  [(.aluReserved011, ⟨.LOW, .HIGH, .HIGH⟩), (.aluReserved100, ⟨.HIGH, .LOW, .LOW⟩),
    (.aluReserved110, ⟨.HIGH, .HIGH, .LOW⟩), (.aluReserved111, ⟨.HIGH, .HIGH, .HIGH⟩)]

/-- Every cell of that form. -/
def wordCells2 : List WordCell2 :=
  liftedCells.map Prod.fst ++ definedAluCells.map Prod.fst ++ reservedAluCells.map Prod.fst

/-- The refusals that R66 and R81 list for a cell of that form: two words one of which is not as wide as the cell, and, whatever
the words are (the spec's decisions D4 and D11), a width of zero or less. -/
def RefusesBadWidths (mk : WordCell2) : Prop :=
  ∀ (s : State) (D : Int) (a b : Option Operand) (r : Option Name),
    (∀ A B : Word, 0 < D → s.anyWordOf a = some A → s.anyWordOf b = some B →
      ((A.length : Int) ≠ D ∨ (B.length : Int) ≠ D) →
      exec (mk D a b r) s = refuse (.inst (.cell (mk D a b r))) .widthMismatch) ∧
    (D ≤ 0 → exec (mk D a b r) s = refuse (.inst (.cell (mk D a b r))) .zeroWidth)

/-- What a port is connected to carries a value, be it of the port's type or not: a Bit, a Word, or a Bit with a position asked of
it. -/
def State.Carries (s : State) (a : Option Operand) : Prop :=
  (∃ x, s.bitOf a = some x) ∨ (∃ W, s.anyWordOf a = some W) ∨
    ∃ n i x, a = some (.query n i) ∧ wiresGet s.wires n = some (.bit x)

/-- R94: one instance of a netlist reads a wire that another drives. -/
def Feeds (nl : Netlist) (x z : Inst) : Prop :=
  x ∈ nl.insts ∧ z ∈ nl.insts ∧ ∃ n ∈ instDrives x, n ∈ instReads z

/-! ### Evaluations -/

/-- R112 (3): no ALU still to be evaluated has a reserved function-select on its port `F` (or the machine's policy gives
such an evaluation the composition's value). -/
def State.SelectsDefined (s : State) : Prop :=
  s.params.reservedF = .datapath ∨
    ∀ D f op1 op2 r sel, Inst.alu D f op1 op2 r ∈ s.pending →
      (s.wordOf Config.selectWidth f).bind selectOfWord = some sel → selectDefined sel = true

/-- An instance has been evaluated: it belongs to the composition and is not left to evaluate. -/
def State.Evaluated (s : State) (x : Inst) : Prop := x ∈ s.netlist.insts ∧ x ∉ s.pending

/-- The outputs of an instance carry the values its cell gives for its inputs: evaluating it again changes nothing
(R22: evaluating an instance twice on the same inputs gives the same outputs). -/
def State.Holds (s : State) (x : Inst) : Prop := evalInst x s = .next s

/-- The states an evaluation passes through: the composition and its inputs are well-formed, every value has the type of
its wire, exactly the inputs and the outputs of the evaluated instances have values, those outputs carry what their cells
give, and every instance left can get its operands. -/
structure State.Proper (s : State) : Prop where
  sorted : wiresWf s.wires = true
  accepted : s.violation = none
  left_of_netlist : s.pending.Sublist s.netlist.insts
  valued : ∀ n, n ∈ s.known ↔ n ∈ s.netlist.inputs.map Prod.fst ∨ ∃ x, s.Evaluated x ∧ n ∈ instDrives x
  typed : ∀ n v, wiresGet s.wires n = some v → netlistTy s.netlist n = some v.ty
  held : ∀ x, s.Evaluated x → s.Holds x
  reachable : neverReady s.pending.length s.known s.pending = []

/-- R116: an evaluation is over when every instance has been evaluated. -/
def State.Over (s : State) : Prop := s.pending = []

/-- A machine's run from a state reaches another in some number of steps, with no refusal on the way. -/
def State.Reaches (s t : State) : Prop := ∃ k, Host.Core.run core k s = .next t

end Sys2Proof.Machine
end

