-- ==== Sys2Proof/Certificates/Slice0/Obligations.lean ====
section
/-! DEFINITION. The statements for the provers, family by family in the spec's order. Each docstring says what is stated and names
the rules of spec/ it rests on. A refusal is written `refuse site reason`, a result `.next (s.drive outputs values)`: the
state `s` with those output wires given those values and nothing else changed. -/

open Sys2Proof Sys2Proof.Machine

/-! ### Values (spec/00_scope.md) -/

/-- R10, a derivation of the spec: `val` is the weighted sum of the positions, below `2^D`, and a bijection between the words of
width `D` and the numbers below `2^D`, with inverse `word_D`. -/
def Obligations.ValIsABijection : Prop :=
  (∀ W : Word, Word.val W = ∑ i ∈ Finset.range W.length, (W.getD i .LOW).toNat * 2 ^ (W.length - 1 - i)) ∧
  (∀ W : Word, Word.val W < 2 ^ W.length ∧ Word.ofVal W.length (Word.val W) = W) ∧
  (∀ D n : Nat, (Word.ofVal D n).length = D ∧ Word.val (Word.ofVal D n) = n % 2 ^ D)

/-- R13: a bit-position query gives the bit at its position; a position outside the word is refused. -/
def Obligations.BitQueryReadsOnePosition : Prop :=
  ∀ (s : State) (i : Int) (a : Option Operand) (y : Option Name) (W : Word), s.anyWordOf a = some W →
    (∀ (k : Nat) (b : Bit), i = k → W[k]? = some b → exec (.bitQuery i a y) s = .next (s.drive [y] [.bit b])) ∧
    (i < 0 ∨ (W.length : Int) ≤ i →
      exec (.bitQuery i a y) s = refuse (.inst (.cell (.bitQuery i a y))) .indexOutOfRange)

/-- R51, R97 (the spec's decisions D16 and D26): an operand `n[i]` of a gate is the bit at position `i` of the word on wire `n`,
and a position outside it makes the gate ill-formed. -/
def Obligations.QueryOperandReadsOnePosition : Prop :=
  ∀ (s : State) (n : Name) (i : Int) (y : Option Name) (W : Word), wiresGet s.wires n = some (.word W) →
    (∀ (k : Nat) (b : Bit), i = k → W[k]? = some b →
      exec (.not (some (.query n i)) y) s = .next (s.drive [y] [.bit (boolNot b)])) ∧
    (W ≠ [] → (i < 0 ∨ (W.length : Int) ≤ i) →
      exec (.not (some (.query n i)) y) s = refuse (.inst (.cell (.not (some (.query n i)) y))) .indexOutOfRange)

/-! ### Gates, adder blocks, bit multiplexer (spec/40_gates.md, spec/41_adders_mux.md) -/

/-- R55: NAND; with both inputs from one wire it is NOT. -/
def Obligations.NandIsLowIffBothInputsHigh : Prop :=
  (∀ (s : State) (a b : Option Operand) (y : Option Name) (x z : Bit), s.bitOf a = some x → s.bitOf b = some z →
    exec (.nand a b y) s = .next (s.drive [y] [.bit (if x = .HIGH ∧ z = .HIGH then .LOW else .HIGH)])) ∧
  (∀ (s : State) (a : Option Operand) (y : Option Name) (x : Bit), s.bitOf a = some x →
    ∃ t : State, exec (.nand a a y) s = .next t ∧ exec (.not a y) s = .next t)

/-- R57 to R61: NOT, AND, OR, NOR and XOR drive the value of their composition of NAND, and that value is the one of the
canonical table, as 40_gates.md asks in the contract of the family. -/
def Obligations.DerivedGatesComposeNand : Prop :=
  (∀ (s : State) (a : Option Operand) (y : Option Name) (x : Bit), s.bitOf a = some x →
    exec (.not a y) s = .next (s.drive [y] [.bit (nandGate x x)]) ∧ nandGate x x = boolNot x) ∧
  (∀ (s : State) (a b : Option Operand) (y : Option Name) (x z : Bit), s.bitOf a = some x → s.bitOf b = some z →
    let n := nandGate x z
    let o := nandGate (nandGate x x) (nandGate z z)
    exec (.and a b y) s = .next (s.drive [y] [.bit (nandGate n n)]) ∧ nandGate n n = boolAnd x z ∧
    exec (.or a b y) s = .next (s.drive [y] [.bit o]) ∧ o = boolOr x z ∧
    exec (.nor a b y) s = .next (s.drive [y] [.bit (nandGate o o)]) ∧ nandGate o o = boolNot (boolOr x z) ∧
    exec (.xor a b y) s = .next (s.drive [y] [.bit (nandGate (nandGate n x) (nandGate n z))]) ∧
      nandGate (nandGate n x) (nandGate n z) = boolXor x z)

/-- The corner cases the spec derives in R55 and R57 to R61: what each gate instance drives when its second input is its first,
or a literal, when its result is complemented again, and when its inputs change places. -/
def Obligations.GateCornerCases : Prop :=
  ∀ (s : State) (a b : Option Operand) (y : Option Name) (x z : Bit), s.bitOf a = some x → s.bitOf b = some z →
    let low : Option Operand := some (.lit (.bit .LOW))
    let high : Option Operand := some (.lit (.bit .HIGH))
    let given (i : Instr) (v : Bit) : Prop := exec i s = .next (s.drive [y] [.bit v])
    (∀ p ∈ bitCells2, ∃ v : Bit, given (p.1 a b y) v ∧ given (p.1 b a y) v) ∧
    (b = low → given (.and a b y) .LOW ∧ given (.or a b y) x ∧ given (.xor a b y) x) ∧
    (b = high → given (.and a b y) x ∧ given (.or a b y) .HIGH ∧ given (.xor a b y) (boolNot x)) ∧
    given (.and a a y) x ∧ given (.or a a y) x ∧ given (.nor a a y) (boolNot x) ∧ given (.xor a a y) .LOW ∧
    (∀ n : Name, given (.not a y) (boolNot x) ∧
      exec (.not (some (.wire n)) y) (s.drive [some n] [.bit (boolNot x)]) =
        .next ((s.drive [some n] [.bit (boolNot x)]).drive [y] [.bit x]))

/-- R56, with the primitive as a parameter by the spec's decision D18: the universality contract. Over any primitive, each
output of every bit cell is the value of its composition of applications of that primitive; so replacing the primitive changes
every cell to the recomputed composition, and nothing else looks at a bit. -/
def Obligations.BitCellsAreCompositionsOfThePrimitive : Prop :=
  ∀ (g : Prim) (a b c : Bit),
    bitCellOutputs g .nand [a, b] = [g a b] ∧
    bitCellOutputs g .not [a] = [notGate g a] ∧
    bitCellOutputs g .and [a, b] = [andGate g a b] ∧
    bitCellOutputs g .or [a, b] = [orGate g a b] ∧
    bitCellOutputs g .nor [a, b] = [norGate g a b] ∧
    bitCellOutputs g .xor [a, b] = [xorGate g a b] ∧
    bitCellOutputs g .ha [a, b] = [(halfAdder g a b).sum, (halfAdder g a b).carry] ∧
    bitCellOutputs g .fa [a, b, c] = [(fullAdder g a b c).sum, (fullAdder g a b c).carry] ∧
    bitCellOutputs g .mux [a, b, c] = [muxGate g a b c]

/-- 95_test_vectors.md section 2.9, over whole words: with the NOR table in place of NAND's, AND and OR exchange in the lifted
gates, WMUX selects the other way round, and the word adder is unchanged. -/
def Obligations.NorPrimitiveDualisesTheWordCells : Prop :=
  let nor : Prim := fun a b => boolNot (boolOr a b)
  ∀ (A B : Word) (c : Bit), A.length = B.length →
    lift2 (andGate nor) A B = lift2 (orGate nandGate) A B ∧ lift2 (orGate nor) A B = lift2 (andGate nandGate) A B ∧
    wordMux nor A B c = wordMux nandGate B A c ∧ rippleAdd nor A B c = rippleAdd nandGate A B c

/-- R62: the half-adder, and its addition law. -/
def Obligations.HalfAdderAddsTwoBits : Prop :=
  ∀ (s : State) (a b : Option Operand) (sum carry : Option Name) (x z : Bit), s.bitOf a = some x → s.bitOf b = some z →
    exec (.ha a b sum carry) s =
      .next (s.drive [sum, carry] [.bit (xorGate nandGate x z), .bit (andGate nandGate x z)]) ∧
    2 * (andGate nandGate x z).toNat + (xorGate nandGate x z).toNat = x.toNat + z.toNat

/-- R63, R28: the full-adder; its carry-in is `LOW` when omitted; it is two cascaded half-adders. -/
def Obligations.FullAdderIsTwoHalfAdders : Prop :=
  (∀ (s : State) (a b : Option Operand) (sum carry : Option Name) (x z : Bit), s.bitOf a = some x → s.bitOf b = some z →
    (∀ (c : Operand) (k : Bit), s.bitOf (some c) = some k →
      exec (.fa a b (some c) sum carry) s =
        .next (s.drive [sum, carry] [.bit (xorGate nandGate (xorGate nandGate x z) k),
          .bit (orGate nandGate (andGate nandGate x z) (andGate nandGate (xorGate nandGate x z) k))])) ∧
    exec (.fa a b none sum carry) s =
      .next (s.drive [sum, carry] [.bit (xorGate nandGate (xorGate nandGate x z) .LOW),
        .bit (orGate nandGate (andGate nandGate x z) (andGate nandGate (xorGate nandGate x z) .LOW))])) ∧
  (∀ x z k,
    fullAdder nandGate x z k =
      ⟨(halfAdder nandGate (halfAdder nandGate x z).sum k).sum,
        orGate nandGate (halfAdder nandGate x z).carry (halfAdder nandGate (halfAdder nandGate x z).sum k).carry⟩)

/-- R64: the outputs a full-adder instance drives add up to its inputs. -/
def Obligations.FullAdderAddsThreeBits : Prop :=
  ∀ (s : State) (a b c : Option Operand) (sum carry : Option Name) (x z k : Bit),
    s.bitOf a = some x → s.bitOf b = some z → s.carryOf c = some k →
    ∃ u v : Bit, exec (.fa a b c sum carry) s = .next (s.drive [sum, carry] [.bit u, .bit v]) ∧
      2 * v.toNat + u.toNat = x.toNat + z.toNat + k.toNat

/-- R65: the bit multiplexer, and its composition. -/
def Obligations.MuxSelectsByItsThirdInput : Prop :=
  ∀ (s : State) (a b sel : Option Operand) (y : Option Name) (x z k : Bit),
    s.bitOf a = some x → s.bitOf b = some z → s.bitOf sel = some k →
    exec (.mux a b sel y) s =
      .next (s.drive [y] [.bit (orGate nandGate (andGate nandGate x (notGate nandGate k)) (andGate nandGate z k))]) ∧
    orGate nandGate (andGate nandGate x (notGate nandGate k)) (andGate nandGate z k) = if k = .LOW then x else z

/-- The corner cases the spec derives in R62 to R65: the half-adder with `LOW` or with one wire on both inputs, the symmetry of
both adders, the full-adder without its carry-in, its two AND terms, and the multiplexer with equal or opposite data. -/
def Obligations.AdderBlockAndMuxCornerCases : Prop :=
  ∀ (s : State) (a b c : Option Operand) (u v : Option Name) (x z k : Bit),
    s.bitOf a = some x → s.bitOf b = some z → s.bitOf c = some k →
    let given (i : Instr) (vs : List Bit) : Prop := exec i s = .next (s.drive ((instrPorts i).map Prod.fst) (vs.map .bit))
    given (.ha a (some (.lit (.bit .LOW))) u v) [x, .LOW] ∧ given (.ha a a u v) [.LOW, x] ∧
    (∃ p q : Bit, given (.ha a b u v) [p, q] ∧ given (.ha b a u v) [p, q] ∧ given (.fa a b none u v) [p, q]) ∧
    (∃ p q : Bit, given (.fa a b c u v) [p, q] ∧ given (.fa b a c u v) [p, q] ∧ given (.fa a c b u v) [p, q]) ∧
    ¬(andGate nandGate x z = .HIGH ∧ andGate nandGate (xorGate nandGate x z) k = .HIGH) ∧
    given (.mux a a c u) [x] ∧ (x = .LOW → z = .HIGH → given (.mux a b c u) [k]) ∧
    (x = .HIGH → z = .LOW → given (.mux a b c u) [boolNot k])

/-! ### Word cells (spec/42_word_ops.md) -/

/-- R66: a lifted two-input gate works position by position, and is refused where the widths do not match or are zero. That WNOR
is among the lifted gates is the spec's decision D17 (90_conflicts.md C5), and that `ZeroWidth` is reported before
`WidthMismatch` its decision D11. -/
def Obligations.LiftedGateWorksPositionByPosition : Prop :=
  ∀ p ∈ liftedCells,
    (∀ (s : State) (D : Int) (a b : Option Operand) (r : Option Name) (A B : Word),
      s.wordOf D a = some A → s.wordOf D b = some B →
      ∃ R : Word, exec (p.1 D a b r) s = .next (s.drive [r] [.word R]) ∧ (R.length : Int) = D ∧
        ∀ (i : Nat) (x z : Bit), A[i]? = some x → B[i]? = some z → R[i]? = some (p.2 x z)) ∧
    RefusesBadWidths p.1

/-- R67: WNOT, its value law (the spec's derivation), its corner cases and its refusals (`ExtraOperand` is the spec's decision
D8). -/
def Obligations.WordNotComplementsEveryPosition : Prop :=
  (∀ (s : State) (D : Int) (a : Option Operand) (r : Option Name) (A : Word), s.wordOf D a = some A →
    ∃ R : Word, exec (.wnot D a none r) s = .next (s.drive [r] [.word R]) ∧ (R.length : Int) = D ∧
      (∀ (i : Nat) (x : Bit), A[i]? = some x → R[i]? = some (boolNot x)) ∧
      Word.val R = 2 ^ A.length - 1 - Word.val A ∧ wordNot nandGate R = A) ∧
  (∀ (s : State) (D : Int) (a : Option Operand) (e : Operand) (r : Option Name) (A E : Word),
    s.wordOf D a = some A → s.anyWordOf (some e) = some E →
    exec (.wnot D a (some e) r) s = refuse (.inst (.cell (.wnot D a (some e) r))) .extraOperand) ∧
  (∀ (s : State) (D : Int) (a : Option Operand) (r : Option Name) (A : Word), 0 < D → s.anyWordOf a = some A →
    (A.length : Int) ≠ D → exec (.wnot D a none r) s = refuse (.inst (.cell (.wnot D a none r))) .widthMismatch) ∧
  (∀ (s : State) (D : Int) (a e : Option Operand) (r : Option Name), D ≤ 0 →
    exec (.wnot D a e r) s = refuse (.inst (.cell (.wnot D a e r))) .zeroWidth)

/-- The corner cases the spec derives in R68 to R72: what each lifted gate instance drives when its second operand is the first,
all `LOW` or all `HIGH`, and that exchanging the operands changes nothing; with the refusals of each. -/
def Obligations.LiftedGateCornerCases : Prop :=
  (∀ p ∈ liftedCells, RefusesBadWidths p.1) ∧
  ∀ (s : State) (D : Int) (a b : Option Operand) (r : Option Name) (A B : Word),
    s.wordOf D a = some A → s.wordOf D b = some B →
    (∀ p ∈ liftedCells, exec (p.1 D a b r) s = .next (s.drive [r] [.word (lift2 p.2 A B)]) ∧
      exec (p.1 D b a r) s = .next (s.drive [r] [.word (lift2 p.2 A B)])) ∧
    (B = A → lift2 nandGate A B = wordNot nandGate A ∧ lift2 (andGate nandGate) A B = A ∧
      lift2 (orGate nandGate) A B = A ∧ lift2 (norGate nandGate) A B = wordNot nandGate A ∧
      lift2 (xorGate nandGate) A B = Word.lows A.length) ∧
    (B = Word.lows A.length → lift2 (andGate nandGate) A B = B ∧ lift2 (orGate nandGate) A B = A ∧
      lift2 (xorGate nandGate) A B = A) ∧
    (B = Word.highs A.length → lift2 (andGate nandGate) A B = A ∧ lift2 (orGate nandGate) A B = B ∧
      lift2 (xorGate nandGate) A B = wordNot nandGate A) ∧
    lift2 (norGate nandGate) A B = wordNot nandGate (lift2 (orGate nandGate) A B)

/-- R73, R28: the word adder is the chain of full-adders from position `D-1` to position 0, with the carry-in, `LOW` when
omitted, at position `D-1` and the final carry at position 0; and its refusals, `ZeroWidth` first (the spec's decisions D4,
D11). -/
def Obligations.AdderRipplesFromTheLeastSignificantPosition : Prop :=
  (∀ (s : State) (D : Int) (a b cin : Option Operand) (sum cout : Option Name) (A B : Word),
    s.wordOf D a = some A → s.wordOf D b = some B →
    (∀ k : Bit, (cin = none ∧ k = .LOW ∨ s.bitOf cin = some k) →
      ∃ (S : Word) (c : Nat → Bit), exec (.add D a b cin sum cout) s = .next (s.drive [sum, cout] [.word S, .bit (c 0)]) ∧
        (S.length : Int) = D ∧ c A.length = k ∧
        ∀ (i : Nat) (x z : Bit), A[i]? = some x → B[i]? = some z →
          S[i]? = some (fullAdder nandGate x z (c (i + 1))).sum ∧ c i = (fullAdder nandGate x z (c (i + 1))).carry)) ∧
  (∀ (s : State) (D : Int) (a b cin : Option Operand) (sum cout : Option Name),
    (∀ (A B : Word) (k : Bit), 0 < D → s.anyWordOf a = some A → s.anyWordOf b = some B → s.carryOf cin = some k →
      ((A.length : Int) ≠ D ∨ (B.length : Int) ≠ D) →
      exec (.add D a b cin sum cout) s = refuse (.inst (.cell (.add D a b cin sum cout))) .widthMismatch) ∧
    (D ≤ 0 → exec (.add D a b cin sum cout) s = refuse (.inst (.cell (.add D a b cin sum cout))) .zeroWidth)) ∧
  (∀ A : Word, rippleAdd nandGate A (Word.lows A.length) .LOW = ⟨A, .LOW⟩) ∧
  (∀ D : Nat, rippleAdd nandGate (Word.highs D) (Word.lows D) .HIGH = ⟨Word.lows D, .HIGH⟩ ∧
    rippleAdd nandGate (Word.highs D) (Word.highs D) .HIGH = ⟨Word.highs D, .HIGH⟩)

/-- R74: the arithmetic law of the word adder, for every width and either carry-in, read unsigned and read as two's-complement
numbers; and its symmetry. The law with the carry-in `HIGH` is the spec's own derivation. -/
def Obligations.AdderComputesTheBinarySum : Prop :=
  ∀ (s : State) (D : Int) (a b cin : Option Operand) (sum cout : Option Name) (A B : Word) (k : Bit),
    s.wordOf D a = some A → s.wordOf D b = some B → s.carryOf cin = some k →
    ∃ (S : Word) (c : Bit), exec (.add D a b cin sum cout) s = .next (s.drive [sum, cout] [.word S, .bit c]) ∧
      Word.val S + 2 ^ A.length * c.toNat = Word.val A + Word.val B + k.toNat ∧
      Word.val S = (Word.val A + Word.val B + k.toNat) % 2 ^ A.length ∧
      (c = .HIGH ↔ 2 ^ A.length ≤ Word.val A + Word.val B + k.toNat) ∧
      (2 ^ A.length : Int) ∣ Word.sval S - (Word.sval A + Word.sval B + k.toNat) ∧
      exec (.add D b a cin sum cout) s = .next (s.drive [sum, cout] [.word S, .bit c])

/-- R75: the word multiplexer and its refusals; a word is no select. That the result is a whole operand is the law the spec
derives from R65; that `ZeroWidth` is reported first is its decision D11. -/
def Obligations.WordMuxSelectsAWholeWord : Prop :=
  ∀ (s : State) (D : Int) (a b sel : Option Operand) (r : Option Name),
    (∀ (A B : Word) (k : Bit), s.wordOf D a = some A → s.wordOf D b = some B → s.bitOf sel = some k →
      ∃ R : Word, exec (.wmux D a b sel r) s = .next (s.drive [r] [.word R]) ∧ (R.length : Int) = D ∧
        (∀ (i : Nat) (x z : Bit), A[i]? = some x → B[i]? = some z → R[i]? = some (muxGate nandGate x z k)) ∧
        R = (if k = .LOW then A else B) ∧ (A = B → R = A)) ∧
    (∀ (A B : Word) (k : Bit), 0 < D → s.anyWordOf a = some A → s.anyWordOf b = some B → s.bitOf sel = some k →
      ((A.length : Int) ≠ D ∨ (B.length : Int) ≠ D) →
      exec (.wmux D a b sel r) s = refuse (.inst (.cell (.wmux D a b sel r))) .widthMismatch) ∧
    (∀ A B K : Word, s.wordOf D a = some A → s.wordOf D b = some B → s.anyWordOf sel = some K →
      exec (.wmux D a b sel r) s = refuse (.inst (.cell (.wmux D a b sel r))) .widthMismatch) ∧
    (D ≤ 0 → exec (.wmux D a b sel r) s = refuse (.inst (.cell (.wmux D a b sel r))) .zeroWidth)

/-- The spec's derivation in R76: the lifted gates and the word multiplexer work on parts of words independently; the adder does
not, it chains its carry from the less significant part into the more significant one. -/
def Obligations.WordCellsSplitAtAnyPosition : Prop :=
  (∀ (A1 A2 B1 B2 : Word) (k : Bit), A1.length = B1.length → A2.length = B2.length →
    (∀ p ∈ liftedCells, lift2 p.2 (A1 ++ A2) (B1 ++ B2) = lift2 p.2 A1 B1 ++ lift2 p.2 A2 B2) ∧
    wordNot nandGate (A1 ++ A2) = wordNot nandGate A1 ++ wordNot nandGate A2 ∧
    wordMux nandGate (A1 ++ A2) (B1 ++ B2) k = wordMux nandGate A1 B1 k ++ wordMux nandGate A2 B2 k ∧
    rippleAdd nandGate (A1 ++ A2) (B1 ++ B2) k =
      ⟨(rippleAdd nandGate A1 B1 (rippleAdd nandGate A2 B2 k).carry).sum ++ (rippleAdd nandGate A2 B2 k).sum,
        (rippleAdd nandGate A1 B1 (rippleAdd nandGate A2 B2 k).carry).carry⟩) ∧
  ∃ A1 A2 B1 B2 : Word, A1.length = B1.length ∧ A2.length = B2.length ∧
    (rippleAdd nandGate (A1 ++ A2) (B1 ++ B2) .LOW).sum ≠
      (rippleAdd nandGate A1 B1 .LOW).sum ++ (rippleAdd nandGate A2 B2 .LOW).sum

/-- R77, R78, R96: CONV pads with `LOW` on the most significant side and does not narrow. The refusal to narrow is the spec's
decision D9; `ZeroWidth` for a target width (R94, R98) is its decision D4, and the order of the refusals (R101) its decision
D11. -/
def Obligations.ConvZeroExtends : Prop :=
  ∀ (s : State) (M D : Int) (a : Option Operand) (r : Option Name),
    (∀ A : Word, s.wordOf M a = some A → M ≤ D →
      ∃ R : Word, exec (.conv M D a r) s = .next (s.drive [r] [.word R]) ∧ (R.length : Int) = D ∧
        (∀ j : Nat, (j : Int) < D - M → R[j]? = some .LOW) ∧
        (∀ j : Nat, D - M ≤ (j : Int) → R[j]? = A[j - (D - M).toNat]?)) ∧
    (∀ A : Word, s.wordOf M a = some A → 0 < D → D < M →
      exec (.conv M D a r) s = refuse (.inst (.cell (.conv M D a r))) .convNarrowing) ∧
    (∀ A : Word, 0 < M → 0 < D → s.anyWordOf a = some A → (A.length : Int) ≠ M →
      exec (.conv M D a r) s = refuse (.inst (.cell (.conv M D a r))) .widthMismatch) ∧
    (M ≤ 0 ∨ D ≤ 0 → exec (.conv M D a r) s = refuse (.inst (.cell (.conv M D a r))) .zeroWidth)

/-- R79: the laws of CONV: value, read-back, identity, composition; the first and the last are the spec's derivations. -/
def Obligations.ConvKeepsTheValue : Prop :=
  (∀ (s : State) (M D : Int) (a : Option Operand) (r : Option Name) (A : Word), s.wordOf M a = some A → M ≤ D →
    ∃ R : Word, exec (.conv M D a r) s = .next (s.drive [r] [.word R]) ∧ Word.val R = Word.val A ∧
      R.drop (D - M).toNat = A ∧ R.take (D - M).toNat = Word.lows (D - M).toNat ∧ (M = D → R = A)) ∧
  (∀ (A : Word) (D1 D2 : Nat), A.length ≤ D1 → D1 ≤ D2 →
    zeroExtend D2 (zeroExtend D1 A) = zeroExtend D2 A)

/-! ### The ALU (spec/43_alu.md) -/

/-- R80, R29, R90: at every defined function-select the ALU drives the value of its composition of WNOT, WOR, WAND, ADD and word
selections; and the composition has that value at all eight function-selects. -/
def Obligations.AluIsItsComposition : Prop :=
  ∀ (f : FunctionSelect) (A B : Word), A.length = B.length →
    let op2' := if f.f0 = .HIGH then wordNot nandGate B else B
    let logic := if f.f1 = .HIGH then lift2 (andGate nandGate) A op2' else lift2 (orGate nandGate) A op2'
    let arithmetic := (rippleAdd nandGate A op2' f.f0).sum
    let result := if f.f2 = .HIGH then arithmetic else logic
    (∀ sel : MuxSumSel, aluDatapath nandGate sel f A B = result) ∧
    ∀ (s : State) (D : Int) (op1 op2 : Option Operand) (r : Option Name),
      s.wordOf D op1 = some A → s.wordOf D op2 = some B → selectDefined f = true →
      exec (decodeSelect f D op1 op2 r) s = .next (s.drive [r] [.word result])

/-- R82: ALU.OR, with its corner cases and its refusals, `ZeroWidth` first (the spec's decisions D4, D11). -/
def Obligations.AluOrIsBitwiseOr : Prop :=
  (∀ (s : State) (D : Int) (op1 op2 : Option Operand) (r : Option Name) (A B : Word),
    s.wordOf D op1 = some A → s.wordOf D op2 = some B →
    ∃ R : Word, exec (.aluOr D op1 op2 r) s = .next (s.drive [r] [.word R]) ∧ R = lift2 (orGate nandGate) A B ∧
      (∀ (i : Nat) (x z : Bit), A[i]? = some x → B[i]? = some z → R[i]? = some (orGate nandGate x z)) ∧
      (B = Word.lows A.length → R = A) ∧ (B = A → R = A) ∧ (B = Word.highs A.length → R = B)) ∧
  RefusesBadWidths .aluOr

/-- R83: ALU.AND, with its corner cases and its refusals, `ZeroWidth` first (the spec's decisions D4, D11). -/
def Obligations.AluAndIsBitwiseAnd : Prop :=
  (∀ (s : State) (D : Int) (op1 op2 : Option Operand) (r : Option Name) (A B : Word),
    s.wordOf D op1 = some A → s.wordOf D op2 = some B →
    ∃ R : Word, exec (.aluAnd D op1 op2 r) s = .next (s.drive [r] [.word R]) ∧ R = lift2 (andGate nandGate) A B ∧
      (∀ (i : Nat) (x z : Bit), A[i]? = some x → B[i]? = some z → R[i]? = some (andGate nandGate x z)) ∧
      (B = Word.lows A.length → R = B) ∧ (B = A → R = A) ∧ (B = Word.highs A.length → R = A)) ∧
  RefusesBadWidths .aluAnd

/-- R84: ALU.ADD is addition modulo `2^D`, with its corner cases, which the spec derives from R74, and its refusals, `ZeroWidth`
first (the spec's decisions D4, D11). -/
def Obligations.AluAddWrapsModuloTheWidth : Prop :=
  (∀ (s : State) (D : Int) (op1 op2 : Option Operand) (r : Option Name) (A B : Word),
    s.wordOf D op1 = some A → s.wordOf D op2 = some B →
    ∃ R : Word, exec (.aluAdd D op1 op2 r) s = .next (s.drive [r] [.word R]) ∧
      R = (rippleAdd nandGate A B .LOW).sum ∧
      Word.val R = (Word.val A + Word.val B) % 2 ^ A.length ∧
      (B = Word.lows A.length → R = A) ∧
      (A = Word.highs A.length → B = Word.ofVal A.length 1 → R = Word.lows A.length) ∧
      (B = A → R = Word.ofVal A.length (2 * Word.val A)) ∧
      (∀ x z : Bit, A = [x] → B = [z] → R = [xorGate nandGate x z])) ∧
  RefusesBadWidths .aluAdd

/-- R85: ALU.SUB is subtraction modulo `2^D` by complement and carry-in, with its corner cases and its refusals, `ZeroWidth`
first (the spec's decisions D4, D11). The value law and what the dropped carry-out would be are the spec's derivations. -/
def Obligations.AluSubWrapsModuloTheWidth : Prop :=
  (∀ (s : State) (D : Int) (op1 op2 : Option Operand) (r : Option Name) (A B : Word),
    s.wordOf D op1 = some A → s.wordOf D op2 = some B →
    ∃ R : Word, exec (.aluSub D op1 op2 r) s = .next (s.drive [r] [.word R]) ∧
      R = (rippleAdd nandGate A (wordNot nandGate B) .HIGH).sum ∧
      (Word.val R : Int) = ((Word.val A : Int) - (Word.val B : Int)) % 2 ^ A.length ∧
      (aluDroppedCarry nandGate ⟨.HIGH, .LOW, .HIGH⟩ A B = .HIGH ↔ Word.val B ≤ Word.val A) ∧
      (B = A → R = Word.lows A.length) ∧ (B = Word.lows A.length → R = A) ∧
      (A = Word.lows A.length → R = Word.ofVal A.length (2 ^ A.length - Word.val B)) ∧
      (Word.val A < Word.val B → Word.val R = 2 ^ A.length + Word.val A - Word.val B) ∧
      (∀ x z : Bit, A = [x] → B = [z] → R = [xorGate nandGate x z])) ∧
  RefusesBadWidths .aluSub

/-- R86: the select of the no-op multiplexer changes no result (leaving the multiplexer out is the spec's decision D7), and the
arithmetic path is the raw adder sum; under another primitive a multiplexer with equal inputs need not pass them. -/
def Obligations.MuxSumChangesNothing : Prop :=
  (∀ (sel : MuxSumSel) (f : FunctionSelect) (A B : Word), A.length = B.length →
    aluArithmetic nandGate sel f A B = (rippleAdd nandGate A (aluOp2 nandGate f B) f.f0).sum ∧
    aluDatapath nandGate sel f A B = aluDatapath nandGate .omitted f A B) ∧
  ∃ (g : Prim) (x k : Bit), muxGate g x x k ≠ x

/-- R87, R44, R99: a reserved function-select (the spec's decision D6). Under `refuse`, the policy after reset, the operation is
refused with `ReservedFunctionSelect` whatever its well-formed operands hold, a literal select and a select read from a wire
alike (which instance the refusal of a wire's value names is the model's choice, log 23); under `datapath` it gives the value
the composition yields, an inference the spec warns of. -/
def Obligations.ReservedSelectIsRefusedUnlessThePolicyAdmitsIt : Prop :=
  State.reset.params.reservedF = .refuse ∧
  ∀ (s : State) (D : Int) (op1 op2 : Option Operand) (r : Option Name) (A B : Word),
    s.wordOf D op1 = some A → s.wordOf D op2 = some B →
    (s.params.reservedF = .refuse →
      (∀ p ∈ reservedAluCells,
        exec (p.1 D op1 op2 r) s = refuse (.inst (.cell (p.1 D op1 op2 r))) .reservedFunctionSelect) ∧
      ∀ (f : Option Operand) (sel : FunctionSelect), s.wordOf 3 f = some sel.toWord → selectDefined sel = false →
        evalInst (.alu D f op1 op2 r) s = refuse (.inst (.alu D f op1 op2 r)) .reservedFunctionSelect) ∧
    (s.params.reservedF = .datapath →
      exec (.aluReserved011 D op1 op2 r) s = .next (s.drive [r] [.word (rippleAdd nandGate A B .LOW).sum]) ∧
      exec (.aluReserved100 D op1 op2 r) s =
        .next (s.drive [r] [.word (lift2 (orGate nandGate) A (wordNot nandGate B))]) ∧
      exec (.aluReserved110 D op1 op2 r) s =
        .next (s.drive [r] [.word (lift2 (andGate nandGate) A (wordNot nandGate B))]) ∧
      exec (.aluReserved111 D op1 op2 r) s =
        .next (s.drive [r] [.word (rippleAdd nandGate A (wordNot nandGate B) .HIGH).sum]))

/-- R88, a derivation of the spec: read as two's-complement numbers, the results of ALU.ADD and ALU.SUB are the signed sum and
difference modulo `2^D`. -/
def Obligations.AluArithmeticHoldsForSignedReading : Prop :=
  ∀ (s : State) (D : Int) (op1 op2 : Option Operand) (r : Option Name) (A B : Word),
    s.wordOf D op1 = some A → s.wordOf D op2 = some B →
    ∃ R1 R2 : Word, exec (.aluAdd D op1 op2 r) s = .next (s.drive [r] [.word R1]) ∧
      exec (.aluSub D op1 op2 r) s = .next (s.drive [r] [.word R2]) ∧
      (2 ^ A.length : Int) ∣ Word.sval R1 - (Word.sval A + Word.sval B) ∧
      (2 ^ A.length : Int) ∣ Word.sval R2 - (Word.sval A - Word.sval B)

/-- R89, a derivation of the spec: position `i` of a result of ALU.OR or ALU.AND depends on position `i` of the operands alone,
and of ALU.ADD or ALU.SUB on no position before `i`. -/
def Obligations.AluResultDependsOnNoMoreSignificantPosition : Prop :=
  ∀ (sel : MuxSumSel) (A B A' B' : Word) (i : Nat),
    A.length = B.length → A'.length = A.length → B'.length = A.length →
    (A[i]? = A'[i]? → B[i]? = B'[i]? → ∀ f ∈ [(⟨.LOW, .LOW, .LOW⟩ : FunctionSelect), ⟨.LOW, .HIGH, .LOW⟩],
      (aluDatapath nandGate sel f A B)[i]? = (aluDatapath nandGate sel f A' B')[i]?) ∧
    (A.drop i = A'.drop i → B.drop i = B'.drop i →
      ∀ f ∈ [(⟨.LOW, .LOW, .HIGH⟩ : FunctionSelect), ⟨.HIGH, .LOW, .HIGH⟩],
        (aluDatapath nandGate sel f A B).drop i = (aluDatapath nandGate sel f A' B').drop i)

/-- R92, a derivation of the spec: the table of corner cases of the ALU: `D = 1`, equal operands, an operand all `LOW` or all
`HIGH`. -/
def Obligations.AluCornerCases : Prop :=
  ∀ (sel : MuxSumSel) (A : Word), A ≠ [] →
    let alu : FunctionSelect → Word → Word → Word := aluDatapath nandGate sel
    let fOr : FunctionSelect := ⟨.LOW, .LOW, .LOW⟩
    let fAnd : FunctionSelect := ⟨.LOW, .HIGH, .LOW⟩
    let fAdd : FunctionSelect := ⟨.LOW, .LOW, .HIGH⟩
    let fSub : FunctionSelect := ⟨.HIGH, .LOW, .HIGH⟩
    let lows := Word.lows A.length
    let highs := Word.highs A.length
    let word : Nat → Word := Word.ofVal A.length
    (∀ x z : Bit, alu fOr [x] [z] = [boolOr x z] ∧ alu fAnd [x] [z] = [boolAnd x z] ∧ alu fAdd [x] [z] = [boolXor x z] ∧
      alu fSub [x] [z] = [boolXor x z]) ∧
    (alu fOr A A = A ∧ alu fAnd A A = A ∧ alu fAdd A A = word (2 * Word.val A) ∧ alu fSub A A = lows) ∧
    (alu fOr A lows = A ∧ alu fAnd A lows = lows ∧ alu fAdd A lows = A ∧ alu fSub A lows = A) ∧
    (alu fOr A highs = highs ∧ alu fAnd A highs = A ∧ alu fAdd A highs = word (Word.val A + 2 ^ A.length - 1) ∧
      alu fSub A highs = word (Word.val A + 1)) ∧
    (alu fOr lows A = A ∧ alu fAnd lows A = lows ∧ alu fAdd lows A = A ∧
      alu fSub lows A = word (2 ^ A.length - Word.val A))

/-- R91, the spec's decision D23: an ALU whose function-select is a wire is, at each evaluation, the operation the value on that
wire stands for; unless that value is reserved and the policy is `refuse` (D6), when the refusal names the ALU itself (log 23).
-/
def Obligations.AluReadsItsSelectAtEachEvaluation : Prop :=
  ∀ (s : State) (D : Int) (f op1 op2 : Option Operand) (r : Option Name) (F A B : Word) (f0 f1 f2 : Bit),
    s.wordOf 3 f = some F → F = [f0, f1, f2] → s.wordOf D op1 = some A → s.wordOf D op2 = some B →
    (selectDefined ⟨f0, f1, f2⟩ = true ∨ s.params.reservedF = .datapath →
      evalInst (.alu D f op1 op2 r) s = exec (decodeSelect ⟨f0, f1, f2⟩ D op1 op2 r) s) ∧
    (selectDefined ⟨f0, f1, f2⟩ = false → s.params.reservedF = .refuse →
      evalInst (.alu D f op1 op2 r) s = refuse (.inst (.alu D f op1 op2 r)) .reservedFunctionSelect)

/-! ### Refusals (spec/60_exceptions.md) -/

/-- R95, in part a derivation of the spec: a port for a Bit accepts only a Bit and a port for a Word of width `D` only a Word of
that width. Every cell whose connected ports all carry values is refused with `WidthMismatch` where one of them carries none of
its port's type, the open carry-ins of FA and ADD aside. That this check stands before those of CONV and of the reserved selects
is the spec's decision D11. -/
def Obligations.WidthMismatchIsRefused : Prop :=
  ∀ (s : State) (M D : Int) (a b c : Option Operand) (y z : Option Name), s.Carries a → s.Carries b → s.Carries c →
    let mismatch (i : Instr) : Prop := exec i s = refuse (.inst (.cell i)) .widthMismatch
    let noBit (o : Option Operand) : Prop := s.bitOf o = none
    let noWord (o : Option Operand) : Prop := s.wordOf D o = none
    (∀ p ∈ bitCells2, noBit a ∨ noBit b → mismatch (p.1 a b y)) ∧
    (noBit a → mismatch (.not a y)) ∧
    (noBit a ∨ noBit b → mismatch (.ha a b y z) ∧ mismatch (.fa a b none y z)) ∧
    (noBit a ∨ noBit b ∨ noBit c → mismatch (.fa a b c y z) ∧ mismatch (.mux a b c y)) ∧
    (s.anyWordOf a = none → ∀ i : Int, mismatch (.bitQuery i a y)) ∧
    (0 < D →
      (∀ mk ∈ wordCells2, noWord a ∨ noWord b → mismatch (mk D a b y)) ∧
      (noWord a → mismatch (.wnot D a none y)) ∧
      (noWord a ∨ noWord b → mismatch (.add D a b none y z)) ∧
      (noWord a ∨ noWord b ∨ noBit c → mismatch (.add D a b c y z) ∧ mismatch (.wmux D a b c y)) ∧
      (0 < M → noWord a → mismatch (.conv D M a y)) ∧
      (noWord a ∨ noWord b ∨ s.wordOf 3 c = none →
        evalInst (.alu D c a b y) s = refuse (.inst (.alu D c a b y)) .widthMismatch))

/-- R98, a derivation of the spec (D4): an operation with a width parameter of zero or less is refused with `ZeroWidth`,
whatever else is wrong with it. -/
def Obligations.ZeroWidthIsRefused : Prop :=
  ∀ (i : Instr) (s : State), (∃ D ∈ (instrContract i).widths, D ≤ 0) →
    exec i s = refuse (.inst (.cell i)) .zeroWidth

/-- R100, R28 (the spec's decision D16): an input port with no connection, or connected to a wire nothing has driven, is refused
with `UnconnectedInput` unless it is an omitted carry-in; only FA and ADD have one. -/
def Obligations.UnconnectedInputIsRefused : Prop :=
  (∀ (i : Instr) (s : State) (p : Port), p ∈ (instrContract i).ports →
    (p.arg = none ∧ p.omissible = false ∨ ∃ n k, (p.arg = some (.wire n) ∨ p.arg = some (.query n k)) ∧ n ∉ s.known) →
    (∀ D ∈ (instrContract i).widths, 0 < D) →
    (∀ a, a ∈ (instrContract i).ports.map Port.arg ∨ a = (instrContract i).extra → argZeroWidth s.tyOf a = false) →
    exec i s = refuse (.inst (.cell i)) .unconnectedInput) ∧
  (∀ (i : Instr) (p : Port), p ∈ (instrContract i).ports → p.omissible = true →
    (∃ a b sum carry, i = .fa a b p.arg sum carry) ∨ ∃ D a b sum cout, i = .add D a b p.arg sum cout)

/-- R101, the spec's decision D11: within one operation the checks run in the fixed order and the first failure is the one
reported; an operation is refused exactly when one of them fails. -/
def Obligations.ChecksRunInTheFixedOrder : Prop :=
  ∀ (i : Instr) (s : State),
    let c := instrContract i
    let zero := (∃ D ∈ c.widths, D ≤ 0) ∨ (∃ p ∈ c.ports, argZeroWidth s.tyOf p.arg = true) ∨ argZeroWidth s.tyOf c.extra = true
    let openPort := ∃ p ∈ c.ports, portUnconnected s.tyOf p = true
    let mismatch := ∃ p ∈ c.ports, portMismatch s.tyOf p = true
    let narrow := convNarrows c.convert = true
    let outside := (∃ p ∈ c.ports, portOutOfRange s.tyOf p = true) ∨ queryOutOfRange s.tyOf c = true
    let reserved := c.reserved = true ∧ s.params.reservedF = .refuse
    (zero → exec i s = refuse (.inst (.cell i)) .zeroWidth) ∧
    (¬zero → openPort → exec i s = refuse (.inst (.cell i)) .unconnectedInput) ∧
    (¬zero → ¬openPort → c.extra ≠ none → exec i s = refuse (.inst (.cell i)) .extraOperand) ∧
    (¬zero → ¬openPort → c.extra = none → mismatch → exec i s = refuse (.inst (.cell i)) .widthMismatch) ∧
    (¬zero → ¬openPort → c.extra = none → ¬mismatch → narrow → exec i s = refuse (.inst (.cell i)) .convNarrowing) ∧
    (¬zero → ¬openPort → c.extra = none → ¬mismatch → ¬narrow → outside →
      exec i s = refuse (.inst (.cell i)) .indexOutOfRange) ∧
    (¬zero → ¬openPort → c.extra = none → ¬mismatch → ¬narrow → ¬outside → reserved →
      exec i s = refuse (.inst (.cell i)) .reservedFunctionSelect) ∧
    (¬zero → ¬openPort → c.extra = none → ¬mismatch → ¬narrow → ¬outside → ¬reserved → ∃ t, exec i s = .next t)

/-- R102, in the model's own terms (log 1): a refused composition has no evaluations: whatever its wires hold and whatever is
left, the step is that refusal. -/
def Obligations.RefusedNetlistIsNeverEvaluated : Prop :=
  ∀ (s : State) (site : Site) (r : Reason), netlistCheck s.params.reservedF s.netlist = some (site, r) →
    step s = refuse site r ∧ ∀ k : Nat, Host.Core.run core (k + 1) s = .refused (.illFormed site r)

/-- R49, R93, R100, the spec's decision D16 (an output declaration: log 13): a netlist is accepted exactly when its input and
output declarations are good, every instance meets its own contract, no wire has two drivers, and the instances can be put in an
order in which each reads only inputs and outputs of earlier ones. -/
def Obligations.NetlistIsAcceptedIffWellFormed : Prop :=
  ∀ (pol : ReservedFPolicy) (nl : Netlist), netlistCheck pol nl = none ↔
    (∀ d ∈ nl.inputs, tyZeroWidth d.2 = false) ∧
    (∀ x ∈ nl.insts, contractCheck pol (netlistTy nl) (instContract x) = none) ∧
    (∀ n ∈ nl.outputs, n ∈ nl.inputs.map Prod.fst ∨ ∃ x ∈ nl.insts, n ∈ instDrives x) ∧
    (nl.inputs.map Prod.fst ++ nl.insts.flatMap instDrives).Nodup ∧
    ∃ order : List Inst, order.Perm nl.insts ∧ ∀ (earlier later : List Inst) (x : Inst),
      order = earlier ++ x :: later → ∀ n ∈ instReads x,
        n ∈ nl.inputs.map Prod.fst ∨ ∃ z ∈ earlier, n ∈ instDrives z

/-! ### Evaluation (spec/10_state.md, spec/20_memory.md, spec/70_reset_and_hazards.md) -/

/-- R22, R36: what any operation leaves unchanged when it gives a result: every wire that is not one of its outputs, the
parameters, the composition and what is left to evaluate. And its outputs have the types of its ports (R25 to R27). -/
def Obligations.OperationWritesNothingButItsOutputs : Prop :=
  ∀ (i : Instr) (s t : State), exec i s = .next t →
    (∀ n : Name, some n ∉ (instrPorts i).map Prod.fst → wiresGet t.wires n = wiresGet s.wires n) ∧
    t.params = s.params ∧ t.netlist = s.netlist ∧ t.pending = s.pending ∧
    (∃ vs : List Value, t = s.drive ((instrPorts i).map Prod.fst) vs ∧ vs.map Value.ty = (instrPorts i).map Prod.snd)

/-- R22: an operation reads nothing but its inputs: two states with the same parameters whose wires agree on what it reads get
the same values on its outputs, or are refused alike. -/
def Obligations.OperationReadsNothingButItsInputs : Prop :=
  ∀ (i : Instr) (s t : State), s.params = t.params →
    (∀ n, n ∈ instReads (.cell i) ∨ (∃ o, (instrContract i).extra = some o ∧ operandWire o = some n) →
      wiresGet s.wires n = wiresGet t.wires n) →
    (∃ vs : List Value, exec i s = .next (s.drive ((instrPorts i).map Prod.fst) vs) ∧
      exec i t = .next (t.drive ((instrPorts i).map Prod.fst) vs)) ∨
    ∃ r : Reason, exec i s = refuse (.inst (.cell i)) r ∧ exec i t = refuse (.inst (.cell i)) r

/-- A step evaluates the next instance that has its operands, and takes it off those left; every other instance stays. When none
is left the step changes nothing. The order of steps is the model's (log 1 to log 3). -/
def Obligations.StepRunsTheNextInstance : Prop :=
  (∀ (s : State) (x : Inst) (rest : List Inst) (i : Instr) (t : State), s.violation = none →
    s.nextInst = some (x, rest) → s.select x = .ok i → exec i s = .next t → step s = .next (t.withPending rest)) ∧
  (∀ (s : State) (x : Inst) (rest : List Inst) (i : Instr) (e : Refusal), s.violation = none →
    s.nextInst = some (x, rest) → s.select x = .ok i → exec i s = .refused e → step s = .refused e) ∧
  (∀ (s : State) (x : Inst) (rest : List Inst) (site : Site) (r : Reason), s.violation = none →
    s.nextInst = some (x, rest) → s.select x = .error (site, r) → step s = refuse site r) ∧
  (∀ (s : State) (x : Inst) (rest : List Inst), s.nextInst = some (x, rest) →
    x ∈ s.pending ∧ instReady s.known x = true ∧ (x :: rest).Perm s.pending ∧
      ∃ pre post, s.pending = pre ++ x :: post ∧ rest = pre ++ post ∧ ∀ z ∈ pre, instReady s.known z = false) ∧
  (∀ s : State, s.violation = none → s.pending = [] → step s = .next s)

/-- The single instruction that `withFetchWord` lays before the core is the one the next step runs: for every function-select
and every state, the step is `exec` of the decoded instruction, with nothing left afterwards. -/
def Obligations.StepRunsTheDecodedSelect : Prop :=
  ∀ (s : State) (nbits w : Nat) (i : Instr), decodeTableWord nbits w = some i →
    (∀ t, exec i (s.withFetchWord nbits w) = .next t → step (s.withFetchWord nbits w) = .next (t.withPending [])) ∧
    (∀ e, exec i (s.withFetchWord nbits w) = .refused e → step (s.withFetchWord nbits w) = .refused e)

/-- R30, R109, R15: right after reset no composition is defined and no wire has a value; the parameters have their defaults (log
4, log 5). The state is proper and a step from it changes nothing. -/
def Obligations.ResetDefinesNothing : Prop :=
  State.reset.wires = [] ∧ State.reset.pending = [] ∧ State.reset.netlist = Netlist.empty ∧
    State.reset.params = ⟨.refuse, .omitted⟩ ∧ State.reset.Proper ∧ step State.reset = .next State.reset

/-- R23, R112, in the model's own terms (log 1, log 6): laying an accepted netlist and values of the declared types for its
inputs before the core gives a proper state, whatever was evaluated before. -/
def Obligations.PresentGivesAProperState : Prop :=
  ∀ (s : State) (nl : Netlist) (offered : List (Name × Value)), netlistCheck s.params.reservedF nl = none →
    (s.present nl offered).inputFault = none → (s.present nl offered).Proper

/-- R112, D3; which input is named is the model's choice (log 14): an input port that is given no value, or a value of another
type than its declared one, stops the evaluation before it begins; the refusal names an input, with `UnconnectedInput` where
that input has no value and `WidthMismatch` where it has one of another type than its own. -/
def Obligations.UndrivenInputIsRefused : Prop :=
  ∀ (s : State) (n : Name) (t : Ty), netlistCheck s.params.reservedF s.netlist = none → (n, t) ∈ s.netlist.inputs →
    s.tyOf n ≠ some t → ∃ (m : Name) (u : Ty), (m, u) ∈ s.netlist.inputs ∧
      (s.tyOf m = none ∧ step s = refuse (.wire m) .unconnectedInput ∨
        (∃ v : Ty, s.tyOf m = some v ∧ v ≠ u) ∧ step s = refuse (.wire m) .widthMismatch)

/-- The invariant, about the model's own steps (log 1, log 2): a step from a proper state that gives a next state gives a proper
one: values stay typed and canonical, no evaluated output changes, and each carries what its cell gives for its inputs. -/
def Obligations.StepKeepsTheStateProper : Prop :=
  ∀ s t : State, s.Proper → step s = .next t → t.Proper ∧ t.params = s.params ∧ t.netlist = s.netlist ∧
    ∀ n v, wiresGet s.wires n = some v → wiresGet t.wires n = some v

/-- R93, in the model's own terms (log 1): nothing fails at evaluation time. From a proper state whose function-selects are
defined the step gives a next state, and one instance fewer is left. -/
def Obligations.ProperStateNeverFails : Prop :=
  ∀ s : State, s.Proper → s.SelectsDefined →
    ∃ t : State, step s = .next t ∧ t.pending.length = s.pending.length - 1

/-- R87, R99 (the spec's decision D6), in the model's own terms (log 1, log 23): from a proper state the only thing that can
stop a step is a reserved function-select on the port `F` of the instance being evaluated, under the policy `refuse`. -/
def Obligations.OnlyAReservedSelectStopsAProperState : Prop :=
  ∀ (s : State) (e : Refusal), s.Proper → step s = .refused e →
    s.params.reservedF = .refuse ∧ ∃ (D : Int) (f op1 op2 : Option Operand) (r : Option Name) (sel : FunctionSelect),
      Inst.alu D f op1 op2 r ∈ s.pending ∧ (s.wordOf 3 f).bind selectOfWord = some sel ∧ selectDefined sel = false ∧
      e = .illFormed (.inst (.alu D f op1 op2 r)) .reservedFunctionSelect

/-- R22, R116, with the model's steps (log 1): the evaluation of a composition whose function-selects are literals, or of any
composition under the policy `datapath`, ends, after as many steps as it has instances, in a state where every instance's
outputs carry what its cell gives for its inputs, exactly the driven wires have values, and each value has its wire's type. -/
def Obligations.EvaluationEnds : Prop :=
  ∀ (s : State) (nl : Netlist) (offered : List (Name × Value)), netlistCheck s.params.reservedF nl = none →
    (s.present nl offered).inputFault = none →
    (s.params.reservedF = .datapath ∨
      ∀ D f op1 op2 r, Inst.alu D f op1 op2 r ∈ nl.insts → ∃ v : Value, f = some (.lit v)) →
    ∃ t : State, Host.Core.run core nl.insts.length (s.present nl offered) = .next t ∧ t.Over ∧ t.netlist = nl ∧
      (∀ x ∈ nl.insts, t.Holds x) ∧
      ∀ n : Name, ((∃ v, wiresGet t.wires n = some v) ↔ netlistTy nl n ≠ none) ∧
        ∀ v, wiresGet t.wires n = some v → netlistTy nl n = some v.ty

/-- R22, in the model's own terms (log 1): the result of an evaluation is unique. Two proper states at the end of an evaluation
of one composition, with the same parameters and the same values on the inputs, have the same value on every wire, however each
was reached. -/
def Obligations.ResultIsUnique : Prop :=
  ∀ s t : State, s.Proper → t.Proper → s.Over → t.Over → s.params = t.params → s.netlist = t.netlist →
    (∀ n ∈ s.netlist.inputs.map Prod.fst, wiresGet s.wires n = wiresGet t.wires n) → s = t

/-- R37, R24, in the model's own terms (log 1): two instances that both have their operands may be evaluated in either order;
the states after both are equal. -/
def Obligations.OrderOfIndependentInstancesIsUnobservable : Prop :=
  ∀ (s s1 s2 : State) (x y : Inst), s.Proper → x ∈ s.pending → y ∈ s.pending → x ≠ y →
    instReady s.known x = true → instReady s.known y = true →
    evalInst x s = .next s1 → evalInst y s1 = .next s2 →
    ∃ s1' : State, evalInst y s = .next s1' ∧ evalInst x s1' = .next s2

/-! ### Encodings (spec/30_encoding.md) -/

/-- R41 to R44 (numbers and positions are the spec's decision D5): the function-select of each operation, in each direction, and
its number. -/
def Obligations.FunctionSelectTable : Prop :=
  (∀ (D : Int) (a b : Option Operand) (r : Option Name),
    (∀ p ∈ definedAluCells ++ reservedAluCells, encodeSelect (p.1 D a b r) = some p.2 ∧ decodeSelect p.2 D a b r = p.1 D a b r) ∧
    ((definedAluCells ++ reservedAluCells).map fun p => selectCode p.2) = [0, 2, 1, 5, 3, 4, 6, 7]) ∧
  (∀ (f : FunctionSelect) (D : Int) (a b : Option Operand) (r : Option Name),
    encodeSelect (decodeSelect f D a b r) = some f ∧ selectOfCode (selectCode f) = some f ∧
    selectCode f = 4 * f.f0.toNat + 2 * f.f1.toNat + f.f2.toNat) ∧
  (∀ f : FunctionSelect, selectDefined f = true ↔ selectCode f ∈ [0, 1, 2, 5])

/-- R51 to R53 (decision D16; log 8 to log 11): the decoder reads back what the encoder writes, for every operation that text
can stand for, with every operand, width and position. -/
def Obligations.DecodeOfEncodeIsTheInstruction : Prop :=
  ∀ i : Instr, i.Spellable = true → decode (encode i) = .ok i

/-- The same for every instance of a netlist, the ALU with a function-select still to be read among them. -/
def Obligations.LineOfEncodedInstIsTheInst : Prop :=
  ∀ x : Inst, x.Spellable = true → decodeLine (encodeInst x) = .ok (.inst x)

/-- R51 to R53 (decision D16; log 8, log 10): lines written out from the spec decode to the instances they stand for. -/
def Obligations.SampleLinesDecode : Prop :=
  decode (ascii "y = NAND a, b") =
    .ok (.nand (some (.wire (ascii "a"))) (some (.wire (ascii "b"))) (some (ascii "y"))) ∧
  decode (ascii "s1, c1 = FA A[1], B[1], cin") =
    .ok (.fa (some (.query (ascii "A") 1)) (some (.query (ascii "B") 1)) (some (.wire (ascii "cin"))) (some (ascii "s1"))
      (some (ascii "c1"))) ∧
  decode (ascii "sl, k    = ADD<8> al, bl") =
    .ok (.add 8 (some (.wire (ascii "al"))) (some (.wire (ascii "bl"))) none (some (ascii "sl")) (some (ascii "k"))) ∧
  decode (ascii "x = CONV<4,8> n") = .ok (.conv 4 8 (some (.wire (ascii "n"))) (some (ascii "x"))) ∧
  decode (ascii "r_sub = ALU<8> (HIGH,LOW,HIGH), op1, op2") =
    .ok (.aluSub 8 (some (.wire (ascii "op1"))) (some (.wire (ascii "op2"))) (some (ascii "r_sub"))) ∧
  decode (ascii "r = ALU.OR<8> a, b") = decode (ascii "r = ALU<8> (LOW,LOW,LOW), a, b") ∧
  decodeLine (ascii "r = ALU<4> F, p, q") =
    .ok (.inst (.alu 4 (some (.wire (ascii "F"))) (some (.wire (ascii "p"))) (some (.wire (ascii "q"))) (some (ascii "r")))) ∧
  decodeLine (ascii "input  F: word 3") = .ok (.input (ascii "F") (.word 3))

/-! ### Structure, for information -/

/-- R118, R90, derivations of the spec: the cells of the machine are what their compositions evaluate to, over any primitive and
for every width (an ALU at every select, with its no-op multiplexer kept or left out), and those same compositions hold, as
written, the numbers of NAND applications and of sub-cells that the spec lists. -/
def Obligations.NandCountsAsWritten : Prop :=
  (∀ (g : Prim) (a b c : Bit),
    ([OpName.nand, .not, .and, .or, .nor, .xor, .ha, .fa, .mux].map fun o => bitCellOutputs g o [a, b, c]) =
      [[g a b], [notGate g a], [andGate g a b], [orGate g a b], [norGate g a b], [xorGate g a b],
        [(halfAdder g a b).sum, (halfAdder g a b).carry], [(fullAdder g a b c).sum, (fullAdder g a b c).carry],
        [muxGate g a b c]]) ∧
  (∀ (g : Prim) (A B : Word) (k : Bit),
    ([OpName.wnand, .wand, .wor, .wnor, .wxor].map fun o => wordCellOutputs g o A B k) =
      ([g, andGate g, orGate g, norGate g, xorGate g].map fun gate => ⟨lift2 gate A B, k⟩) ∧
    wordCellOutputs g .wnot A A k = ⟨wordNot g A, k⟩ ∧ wordCellOutputs g .wmux A B k = ⟨wordMux g A B k, k⟩ ∧
    wordCellOutputs g .add A B k = rippleAdd g A B k ∧
    ∀ (sel : MuxSumSel) (f : FunctionSelect),
      (aluWires g f (aluSubcells sel) [A, B]).getLast? = some (aluDatapath g sel f A B)) ∧
  ([OpName.nand, .not, .and, .or, .nor, .xor, .ha, .fa, .mux].map bitCellSize) = [1, 1, 2, 3, 4, 5, 7, 22, 8] ∧
  (∀ D : Nat, ([OpName.wnand, .wnot, .wand, .wor, .wnor, .wxor, .add, .wmux, .conv].map fun o => wordCellSize o D) =
    [D, D, 2 * D, 3 * D, 4 * D, 5 * D, 22 * D, 8 * D, 0]) ∧
  (∀ sel : MuxSumSel, ([OpName.wnot, .wor, .wand, .add, .wmux].map ((aluSubcells sel).map AluSubcell.op).count) =
    [1, 1, 1, 1, if sel = .omitted then 3 else 4]) ∧
  (∀ D : Nat, aluSize .omitted D = 52 * D ∧ ∀ sel, sel ≠ .omitted → aluSize sel D = 60 * D)

/-! ### Refusals when a composition is defined -/

/-- R94, R102 (with log 16): the refusal of a cycle names an instance of the netlist whose input depends on its own output, and
the first such instance in written order. -/
def Obligations.CycleRefusalNamesAnInstanceOnACycle : Prop :=
  ∀ (pol : ReservedFPolicy) (nl : Netlist) (site : Site), netlistCheck pol nl = some (site, .combinationalCycle) →
    ∃ (earlier later : List Inst) (x : Inst), nl.insts = earlier ++ x :: later ∧ site = .inst x ∧
      Relation.TransGen (Feeds nl) x x ∧ ∀ z ∈ earlier, ¬Relation.TransGen (Feeds nl) z z

/-- R44, R99 (the spec's decision D6): an ALU whose function-select is a reserved literal is refused when it is defined, under
`refuse`, however it is written: as the operation the literal selects or as an ALU with the literal on `F`. Any netlist that has
such an instance is refused, and the reason is `ReservedFunctionSelect` where it is alone and its operands are words of its
width. -/
def Obligations.ReservedLiteralIsRefusedAtDefinition : Prop :=
  ∀ (sel : FunctionSelect) (D : Int) (op1 op2 : Option Operand) (r : Option Name) (x : Inst), selectDefined sel = false →
    (x = .cell (decodeSelect sel D op1 op2 r) ∨ x = .alu D (some (.lit (.word sel.toWord))) op1 op2 r) →
    (∀ nl : Netlist, x ∈ nl.insts → netlistCheck .refuse nl ≠ none) ∧
    ∀ A B : Word, op1 = some (.lit (.word A)) → op2 = some (.lit (.word B)) → A ≠ [] → (A.length : Int) = D →
      (B.length : Int) = D →
      netlistCheck .refuse { inputs := [], insts := [x], outputs := [] } = some (.inst x, .reservedFunctionSelect)
end

