-- ==== Sys2Proof/Laws/Cells.lean ====
section
/-! SUPPORT. The small laws of the cell functions: the truth tables the compositions have at NAND, the lengths of results, and results
position by position. -/

namespace Sys2Proof.Machine

open Sys2Proof

@[simp] theorem notGate_nand (a : Bit) : notGate nandGate a = boolNot a := by cases a <;> rfl

@[simp] theorem andGate_nand (a b : Bit) : andGate nandGate a b = boolAnd a b := by cases a <;> cases b <;> rfl

@[simp] theorem orGate_nand (a b : Bit) : orGate nandGate a b = boolOr a b := by cases a <;> cases b <;> rfl

@[simp] theorem norGate_nand (a b : Bit) : norGate nandGate a b = boolNot (boolOr a b) := by
  cases a <;> cases b <;> rfl

@[simp] theorem xorGate_nand (a b : Bit) : xorGate nandGate a b = boolXor a b := by cases a <;> cases b <;> rfl

theorem muxGate_nand (a b s : Bit) : muxGate nandGate a b s = if s = .LOW then a else b := by
  cases a <;> cases b <;> cases s <;> rfl

theorem fullAdder_nand_toNat (a b c : Bit) :
    2 * (fullAdder nandGate a b c).carry.toNat + (fullAdder nandGate a b c).sum.toNat =
      a.toNat + b.toNat + c.toNat := by
  cases a <;> cases b <;> cases c <;> rfl

/-! ### Lengths -/

@[simp] theorem lift2_length (gate : Bit → Bit → Bit) (A B : Word) :
    (lift2 gate A B).length = min A.length B.length := by simp [lift2]

@[simp] theorem wordNot_length (g : Prim) (A : Word) : (wordNot g A).length = A.length := by simp [wordNot]

@[simp] theorem wordMux_length (g : Prim) (A B : Word) (s : Bit) :
    (wordMux g A B s).length = min A.length B.length := by simp [wordMux]

@[simp] theorem rippleAdd_length (g : Prim) (A B : Word) (c : Bit) :
    (rippleAdd g A B c).sum.length = min A.length B.length := by
  induction A generalizing B with
  | nil => cases B <;> simp [rippleAdd]
  | cons a A ih => cases B <;> simp [rippleAdd, ih]

@[simp] theorem lows_length (n : Nat) : (Word.lows n).length = n := by simp [Word.lows]

@[simp] theorem highs_length (n : Nat) : (Word.highs n).length = n := by simp [Word.highs]

@[simp] theorem ofVal_length (D n : Nat) : (Word.ofVal D n).length = D := by
  induction D generalizing n with
  | zero => rfl
  | succ D ih => simp [Word.ofVal, ih]

theorem zeroExtend_length {D : Nat} {A : Word} (h : A.length ≤ D) : (zeroExtend D A).length = D := by
  simp [zeroExtend]; omega

@[simp] theorem muxSum_length (g : Prim) (sel : MuxSumSel) (f : FunctionSelect) (W : Word) :
    (muxSum g sel f W).length = W.length := by cases sel <;> simp [muxSum]

@[simp] theorem aluOp2_length (g : Prim) (f : FunctionSelect) (B : Word) : (aluOp2 g f B).length = B.length := by
  simp [aluOp2]

/-- An ALU's result is as wide as its operands. -/
@[simp] theorem aluDatapath_length (g : Prim) (sel : MuxSumSel) (f : FunctionSelect) (A B : Word) :
    (aluDatapath g sel f A B).length = min A.length B.length := by
  simp [aluDatapath, aluLogic, aluArithmetic]

/-! ### Positions -/

theorem lift2_getElem? (gate : Bit → Bit → Bit) {A B : Word} {i : Nat} {x z : Bit} (ha : A[i]? = some x)
    (hb : B[i]? = some z) : (lift2 gate A B)[i]? = some (gate x z) := by
  simp [lift2, List.getElem?_zipWith, ha, hb]

theorem wordNot_getElem? (g : Prim) {A : Word} {i : Nat} {x : Bit} (ha : A[i]? = some x) :
    (wordNot g A)[i]? = some (notGate g x) := by simp [wordNot, ha]

theorem wordMux_getElem? (g : Prim) {A B : Word} {s : Bit} {i : Nat} {x z : Bit} (ha : A[i]? = some x)
    (hb : B[i]? = some z) : (wordMux g A B s)[i]? = some (muxGate g x z s) := by
  simp [wordMux, List.getElem?_zipWith, ha, hb]

end Sys2Proof.Machine
end

