-- ==== Sys2Proof/Laws/State.lean ====
section
/-! SUPPORT. One lemma per field of the state and per update, each true by unfolding. -/

namespace Sys2Proof.Machine

open Sys2Proof

@[simp] theorem drive_params (s : State) (ns : List (Option Name)) (vs : List Value) :
    (s.drive ns vs).params = s.params := rfl

@[simp] theorem drive_netlist (s : State) (ns : List (Option Name)) (vs : List Value) :
    (s.drive ns vs).netlist = s.netlist := rfl

@[simp] theorem drive_pending (s : State) (ns : List (Option Name)) (vs : List Value) :
    (s.drive ns vs).pending = s.pending := rfl

@[simp] theorem drive_wires (s : State) (ns : List (Option Name)) (vs : List Value) :
    (s.drive ns vs).wires = wiresDrive s.wires ns vs := rfl

@[simp] theorem withPending_params (s : State) (xs : List Inst) : (s.withPending xs).params = s.params := rfl

@[simp] theorem withPending_netlist (s : State) (xs : List Inst) : (s.withPending xs).netlist = s.netlist := rfl

@[simp] theorem withPending_wires (s : State) (xs : List Inst) : (s.withPending xs).wires = s.wires := rfl

@[simp] theorem withPending_pending (s : State) (xs : List Inst) : (s.withPending xs).pending = xs := rfl

@[simp] theorem present_params (s : State) (nl : Netlist) (vs : List (Name × Value)) :
    (s.present nl vs).params = s.params := rfl

@[simp] theorem present_netlist (s : State) (nl : Netlist) (vs : List (Name × Value)) :
    (s.present nl vs).netlist = nl := rfl

@[simp] theorem present_wires (s : State) (nl : Netlist) (vs : List (Name × Value)) :
    (s.present nl vs).wires = inputWires nl vs := rfl

@[simp] theorem present_pending (s : State) (nl : Netlist) (vs : List (Name × Value)) :
    (s.present nl vs).pending = nl.insts := rfl

theorem state_eq {s t : State} (hp : s.params = t.params) (hn : s.netlist = t.netlist) (hw : s.wires = t.wires)
    (hq : s.pending = t.pending) : s = t := by
  cases s; cases t; simp_all

/-- Reading the wires does not look at the instances left. -/
@[simp] theorem withPending_tyOf (s : State) (xs : List Inst) : (s.withPending xs).tyOf = s.tyOf := rfl

@[simp] theorem withPending_read (s : State) (xs : List Inst) : (s.withPending xs).read = s.read := by
  funext o; cases o <;> rfl

@[simp] theorem withPending_bitOf (s : State) (xs : List Inst) (a : Option Operand) :
    (s.withPending xs).bitOf a = s.bitOf a := by simp [State.bitOf]

@[simp] theorem withPending_carryOf (s : State) (xs : List Inst) (a : Option Operand) :
    (s.withPending xs).carryOf a = s.carryOf a := by cases a <;> simp [State.carryOf]

@[simp] theorem withPending_anyWordOf (s : State) (xs : List Inst) (a : Option Operand) :
    (s.withPending xs).anyWordOf a = s.anyWordOf a := by simp [State.anyWordOf]

@[simp] theorem withPending_wordOf (s : State) (xs : List Inst) (D : Int) (a : Option Operand) :
    (s.withPending xs).wordOf D a = s.wordOf D a := by simp [State.wordOf]

end Sys2Proof.Machine
end

