-- ==== Sys2Proof/Laws/Wires.lean ====
section
/-! SUPPORT. The order of names, and what reading and setting wires do: a set wire reads as set, every other wire as before, and the
canonical form is kept. -/

namespace Sys2Proof.Machine

open Sys2Proof

theorem nameBefore_irrefl (n : Name) : nameBefore n n = false := by
  induction n with
  | nil => rfl
  | cons a n ih => simp [nameBefore, ih]

theorem nameBefore_trans {l m n : Name} (h₁ : nameBefore l m = true) (h₂ : nameBefore m n = true) :
    nameBefore l n = true := by
  induction l generalizing m n with
  | nil => cases m <;> cases n <;> simp_all [nameBefore]
  | cons a l ih =>
    cases m with
    | nil => simp [nameBefore] at h₁
    | cons b m =>
      cases n with
      | nil => simp [nameBefore] at h₂
      | cons c n =>
        simp only [nameBefore] at h₁ h₂ ⊢
        split_ifs at h₁ h₂ ⊢ <;> first | rfl | omega | exact ih h₁ h₂

theorem nameBefore_total {m n : Name} (h : m ≠ n) (h' : nameBefore n m = false) : nameBefore m n = true := by
  induction m generalizing n with
  | nil => cases n <;> simp_all [nameBefore]
  | cons a m ih =>
    cases n with
    | nil => simp [nameBefore] at h'
    | cons b n =>
      simp only [nameBefore] at h' ⊢
      by_cases hab : a.toNat < b.toNat
      · simp [hab]
      · by_cases hba : b.toNat < a.toNat
        · simp [hba] at h'
        · have : a = b := BitVec.eq_of_toNat_eq (by omega)
          subst this
          simp only [hab, if_false] at h' ⊢
          exact ih (fun e => h (by rw [e])) h'

theorem nameBefore_asymm {m n : Name} (h : nameBefore m n = true) : nameBefore n m = false := by
  by_contra hc
  have := nameBefore_trans h (Bool.eq_true_of_not_eq_false hc)
  simp [nameBefore_irrefl] at this

/-- A wire that is set reads as set. -/
@[simp] theorem wiresGet_set_self (ws : Wires) (n : Name) (v : Value) : wiresGet (wiresSet ws n v) n = some v := by
  induction ws with
  | nil => simp [wiresSet, wiresGet]
  | cons d ws ih =>
    simp only [wiresSet]
    split
    · simp [wiresGet]
    · split
      · simp [wiresGet]
      · simp [wiresGet, *]

/-- Setting a wire leaves every other wire alone. -/
theorem wiresGet_set_other (ws : Wires) {m n : Name} (v : Value) (h : m ≠ n) :
    wiresGet (wiresSet ws m v) n = wiresGet ws n := by
  induction ws with
  | nil => simp [wiresSet, wiresGet, h]
  | cons d ws ih =>
    obtain ⟨k, u⟩ := d
    simp only [wiresSet]
    split
    · next hk => subst hk; simp [wiresGet, h]
    · split
      · simp [wiresGet, h]
      · simp [wiresGet, ih]

theorem wiresWf_tail {d : Name × Value} {ws : Wires} (h : wiresWf (d :: ws) = true) : wiresWf ws = true := by
  cases ws with
  | nil => rfl
  | cons e ws => simp [wiresWf] at h; exact h.2

/-- In canonical form the first name comes before every other. -/
theorem wiresWf_head {d : Name × Value} {ws : Wires} (h : wiresWf (d :: ws) = true) :
    ∀ e ∈ ws, nameBefore d.1 e.1 = true := by
  induction ws generalizing d with
  | nil => simp
  | cons e ws ih =>
    simp only [wiresWf, Bool.and_eq_true] at h
    intro f hf
    rcases List.mem_cons.mp hf with rfl | hf
    · exact h.1
    · exact nameBefore_trans h.1 (ih h.2 f hf)

theorem wiresWf_cons {d : Name × Value} {ws : Wires} (h : wiresWf ws = true)
    (hd : ∀ e ∈ ws, nameBefore d.1 e.1 = true) : wiresWf (d :: ws) = true := by
  cases ws with
  | nil => rfl
  | cons e ws => simp [wiresWf, h, hd e (by simp)]

theorem mem_wiresSet {ws : Wires} {n : Name} {v : Value} {e : Name × Value} (h : e ∈ wiresSet ws n v) :
    e = (n, v) ∨ e ∈ ws := by
  induction ws with
  | nil => simpa [wiresSet] using h
  | cons d ws ih =>
    simp only [wiresSet] at h
    split at h
    · rcases List.mem_cons.mp h with h | h
      · exact Or.inl h
      · exact Or.inr (List.mem_cons_of_mem _ h)
    · split at h
      · rcases List.mem_cons.mp h with h | h
        · exact Or.inl h
        · exact Or.inr h
      · rcases List.mem_cons.mp h with h | h
        · exact Or.inr (by rw [h]; exact List.mem_cons_self)
        · rcases ih h with h | h
          · exact Or.inl h
          · exact Or.inr (List.mem_cons_of_mem _ h)

/-- Setting a wire keeps the canonical form. -/
theorem wiresWf_set {ws : Wires} (n : Name) (v : Value) (h : wiresWf ws = true) : wiresWf (wiresSet ws n v) = true := by
  induction ws with
  | nil => rfl
  | cons d ws ih =>
    obtain ⟨m, u⟩ := d
    have hh := wiresWf_head h
    simp only [wiresSet]
    split
    · next hm => subst hm; exact wiresWf_cons (wiresWf_tail h) hh
    · next hm =>
      split
      · next hb =>
        refine wiresWf_cons h ?_
        intro e he
        rcases List.mem_cons.mp he with rfl | he
        · exact hb
        · exact nameBefore_trans hb (hh e he)
      · next hb =>
        refine wiresWf_cons (ih (wiresWf_tail h)) ?_
        intro e he
        rcases mem_wiresSet he with rfl | he
        · exact nameBefore_total hm (by simpa using hb)
        · exact hh e he

/-- Driving output ports keeps the canonical form. -/
theorem wiresWf_drive {ws : Wires} (ns : List (Option Name)) (vs : List Value) (h : wiresWf ws = true) :
    wiresWf (wiresDrive ws ns vs) = true := by
  induction ns generalizing ws vs with
  | nil => cases vs <;> simpa [wiresDrive] using h
  | cons o ns ih =>
    cases vs with
    | nil => cases o <;> simpa [wiresDrive] using h
    | cons v vs =>
      cases o with
      | none => simpa [wiresDrive] using ih vs h
      | some n => simpa [wiresDrive] using ih vs (wiresWf_set n v h)

/-- Laying a netlist and its inputs before the core gives wires in canonical form. -/
theorem wiresWf_inputWires (nl : Netlist) (vs : List (Name × Value)) : wiresWf (inputWires nl vs) = true := by
  have : ∀ ws : Wires, wiresWf ws = true →
      wiresWf (vs.foldl (fun ws d => if d.1 ∈ nl.inputs.map Prod.fst then wiresSet ws d.1 d.2 else ws) ws) = true := by
    induction vs with
    | nil => exact fun ws h => h
    | cons d vs ih =>
      intro ws h
      rw [List.foldl_cons]
      refine ih _ ?_
      split
      · exact wiresWf_set _ _ h
      · exact h
  exact this [] rfl

/-- Driving output ports leaves every wire alone that none of them is connected to. -/
theorem wiresGet_drive_other (ws : Wires) (ns : List (Option Name)) (vs : List Value) {n : Name} (h : some n ∉ ns) :
    wiresGet (wiresDrive ws ns vs) n = wiresGet ws n := by
  induction ns generalizing ws vs with
  | nil => cases vs <;> rfl
  | cons o ns ih =>
    simp only [List.mem_cons, not_or] at h
    cases vs with
    | nil => cases o <;> rfl
    | cons v vs =>
      cases o with
      | none => exact ih ws vs h.2
      | some m =>
        rw [wiresDrive, ih _ vs h.2, wiresGet_set_other]
        exact fun e => h.1 (by rw [e])

/-- Wires in canonical form that read alike are the same. -/
theorem wires_ext {ws us : Wires} (hw : wiresWf ws = true) (hu : wiresWf us = true)
    (h : ∀ n, wiresGet ws n = wiresGet us n) : ws = us := by
  have get_none : ∀ {d : Name × Value} {zs : Wires}, wiresWf (d :: zs) = true → wiresGet zs d.1 = none := by
    intro d zs hz
    have hh := wiresWf_head hz
    clear hz
    induction zs with
    | nil => rfl
    | cons e zs ih =>
      have he := hh e (by simp)
      have hne : e.1 ≠ d.1 := fun e' => by rw [e'] at he; simp [nameBefore_irrefl] at he
      simp only [wiresGet, hne, if_false]
      exact ih fun f hf => hh f (by simp [hf])
  have get_before : ∀ {zs : Wires} {n : Name}, (∀ e ∈ zs, nameBefore n e.1 = true) → wiresGet zs n = none := by
    intro zs n hh
    induction zs with
    | nil => rfl
    | cons e zs ih =>
      have he := hh e (by simp)
      have hne : e.1 ≠ n := fun e' => by rw [e'] at he; simp [nameBefore_irrefl] at he
      simp only [wiresGet, hne, if_false]
      exact ih fun f hf => hh f (by simp [hf])
  induction ws generalizing us with
  | nil =>
    cases us with
    | nil => rfl
    | cons e us => have := h e.1; simp [wiresGet] at this
  | cons d ws ih =>
    cases us with
    | nil => have := h d.1; simp [wiresGet] at this
    | cons e us =>
      obtain ⟨m, v⟩ := d
      obtain ⟨k, u⟩ := e
      have hmk : m = k := by
        by_contra hne
        by_cases hb : nameBefore m k = true
        · have hk := h m
          have : wiresGet ((k, u) :: us) m = none := get_before (by
            intro f hf
            rcases List.mem_cons.mp hf with rfl | hf
            · exact hb
            · exact nameBefore_trans hb (wiresWf_head hu f hf))
          rw [this] at hk
          simp [wiresGet] at hk
        · have hb' : nameBefore k m = true := nameBefore_total (Ne.symm hne) (by simpa using hb)
          have hk := h k
          have : wiresGet ((m, v) :: ws) k = none := get_before (by
            intro f hf
            rcases List.mem_cons.mp hf with rfl | hf
            · exact hb'
            · exact nameBefore_trans hb' (wiresWf_head hw f hf))
          rw [this] at hk
          simp [wiresGet] at hk
      subst hmk
      have hv := h m
      simp [wiresGet] at hv
      subst hv
      have : ws = us := by
        refine ih (wiresWf_tail hw) (wiresWf_tail hu) fun n => ?_
        by_cases hn : m = n
        · subst hn; rw [get_none hw, get_none hu]
        · have := h n; simpa [wiresGet, hn] using this
      rw [this]

/-- A name is listed exactly when its wire has a value. -/
theorem mem_known_iff (s : State) (n : Name) : n ∈ s.known ↔ ∃ v, wiresGet s.wires n = some v := by
  unfold State.known
  induction s.wires with
  | nil => simp [wiresGet]
  | cons d ws ih =>
    by_cases h : d.1 = n
    · simp [wiresGet, h]
    · simp only [List.map_cons, List.mem_cons, ih, wiresGet, h, if_false]
      exact ⟨fun h' => h'.resolve_left (fun e => h e.symm), Or.inr⟩

end Sys2Proof.Machine
end

