-- ==== Sys2Proof/Laws/Perform.lean ====
section
/-! SUPPORT. What the checks of a contract amount to, when an operand can be read, and what `perform` can answer. -/

namespace Sys2Proof.Machine

open Sys2Proof

/-- One port passes every check that looks at ports. -/
def portOk (tyOf : Name → Option Ty) (p : Port) : Prop :=
  argZeroWidth tyOf p.arg = false ∧ portUnconnected tyOf p = false ∧ portMismatch tyOf p = false ∧
    portOutOfRange tyOf p = false

/-- A contract is met exactly when its widths, its ports and its special checks all pass. -/
theorem contractCheck_eq_none_iff (pol : ReservedFPolicy) (tyOf : Name → Option Ty) (c : Contract) :
    contractCheck pol tyOf c = none ↔
      (∀ D ∈ c.widths, 0 < D) ∧ (∀ p ∈ c.ports, portOk tyOf p) ∧ c.extra = none ∧ convNarrows c.convert = false ∧
        queryOutOfRange tyOf c = false ∧ (c.reserved = true → pol = .datapath) := by
  have hpol : (c.reserved && decide (pol = .refuse)) = false ↔ (c.reserved = true → pol = .datapath) := by
    cases c.reserved <;> cases pol <;> simp
  simp only [contractCheck, contractViolations, Option.map_eq_none_iff, List.find?_eq_none, List.mem_cons,
    List.not_mem_nil, or_false, forall_eq_or_imp, forall_eq, Bool.not_eq_true, Bool.or_eq_false_iff,
    List.any_eq_false, decide_eq_true_eq, not_le, portOk, hpol]
  constructor
  · rintro ⟨⟨⟨h1, h2⟩, -⟩, h4, h5, h6, h7, ⟨h8, h9⟩, h10⟩
    have hx : c.extra = none := by simpa using h5
    exact ⟨h1, fun p hp => ⟨by simpa using h2 p hp, by simpa using h4 p hp, by simpa using h6 p hp,
      by simpa using h8 p hp⟩, hx, h7, h9, h10⟩
  · rintro ⟨h1, h2, h3, h4, h5, h6⟩
    exact ⟨⟨⟨h1, fun p hp => by simp [(h2 p hp).1]⟩, by simp [h3, argZeroWidth]⟩,
      fun p hp => by simp [(h2 p hp).2.1], by simp [h3], fun p hp => by simp [(h2 p hp).2.2.1], h4,
      ⟨fun p hp => by simp [(h2 p hp).2.2.2], h5⟩, h6⟩

/-- A contract with no special checks is met when its widths and its ports pass. -/
theorem contractCheck_plain_eq_none_iff (pol : ReservedFPolicy) (tyOf : Name → Option Ty) (ws : List Int)
    (ps : List Port) :
    contractCheck pol tyOf (.plain ws ps) = none ↔ (∀ D ∈ ws, 0 < D) ∧ ∀ p ∈ ps, portOk tyOf p := by
  simp [contractCheck_eq_none_iff, Contract.plain, convNarrows, queryOutOfRange]

theorem contractCheck_alu_eq_none_iff (pol : ReservedFPolicy) (tyOf : Name → Option Ty) (D : Int)
    (a b : Option Operand) (reserved : Bool) :
    contractCheck pol tyOf (.alu D a b reserved) = none ↔
      0 < D ∧ portOk tyOf (.wordIn D a) ∧ portOk tyOf (.wordIn D b) ∧ (reserved = true → pol = .datapath) := by
  simp [contractCheck_eq_none_iff, Contract.alu, Contract.plain, convNarrows, queryOutOfRange, and_assoc]

/-! ### Ports and reading -/

theorem tyOf_eq_some_iff {s : State} {n : Name} {t : Ty} :
    s.tyOf n = some t ↔ ∃ v, wiresGet s.wires n = some v ∧ v.ty = t := by
  simp [State.tyOf]

/-- The bit at a position of a word exists exactly when the position lies inside the word. -/
theorem bitAt_isSome_iff (w : Word) (i : Int) : (bitAt w i).isSome ↔ 0 ≤ i ∧ i < w.length := by
  unfold bitAt
  split
  · next h => simp only [isSome_getElem?, h, true_and]; omega
  · next h => simp [h]

theorem bitAt_eq_none_iff (w : Word) (i : Int) : bitAt w i = none ↔ i < 0 ∨ (w.length : Int) ≤ i := by
  rw [← Option.not_isSome_iff_eq_none, bitAt_isSome_iff]; omega

/-- A port for a Bit passes its checks exactly when a Bit can be read from it. -/
theorem portOk_bitIn_iff (s : State) (a : Option Operand) :
    portOk s.tyOf (.bitIn a) ↔ ∃ b, s.bitOf a = some b := by
  cases a with
  | none => simp [portOk, Port.bitIn, portUnconnected, State.bitOf]
  | some o =>
    cases o with
    | lit v =>
      cases v <;> simp [portOk, Port.bitIn, portUnconnected, argZeroWidth, portMismatch, portOutOfRange, operandBase,
        portAccepts, tyZeroWidth, Value.ty, State.bitOf, State.read]
    | wire n =>
      cases h : wiresGet s.wires n with
      | none => simp [portOk, Port.bitIn, portUnconnected, State.bitOf, State.read, operandBase, State.tyOf, h]
      | some v =>
        cases v <;> simp [portOk, Port.bitIn, portUnconnected, argZeroWidth, portMismatch, portOutOfRange, operandBase,
          portAccepts, tyZeroWidth, Value.ty, State.bitOf, State.read, State.tyOf, h]
    | query n i =>
      cases h : wiresGet s.wires n with
      | none => simp [portOk, Port.bitIn, portUnconnected, State.bitOf, State.read, operandBase, State.tyOf, h]
      | some v =>
        cases v with
        | bit b => simp [portOk, Port.bitIn, portMismatch, operandBase, portAccepts, Value.ty, State.bitOf, State.read,
            State.tyOf, h]
        | word w =>
          have hb := bitAt_isSome_iff w i
          cases hw : bitAt w i with
          | none =>
            rw [bitAt_eq_none_iff] at hw
            simp [portOk, Port.bitIn, State.bitOf, State.read, State.tyOf, h, portOutOfRange, positionOutside, Value.ty,
              (bitAt_eq_none_iff w i).mpr hw, hw]
          | some b =>
            simp only [hw, Option.isSome_some, true_iff] at hb
            have : w.length ≠ 0 := by omega
            have hne : w ≠ [] := fun e => this (by simp [e])
            simp [portOk, Port.bitIn, portUnconnected, argZeroWidth, portMismatch, portOutOfRange, positionOutside,
              operandBase, portAccepts, tyZeroWidth, Value.ty, State.bitOf, State.read, State.tyOf, h, hw, hb, hne]

/-- A carry-in passes its checks exactly when its Bit, given or omitted, can be read. -/
theorem portOk_carryIn_iff (s : State) (a : Option Operand) :
    portOk s.tyOf (.carryIn a) ↔ ∃ b, s.carryOf a = some b := by
  cases a with
  | none => simp [portOk, Port.carryIn, portUnconnected, State.carryOf, argZeroWidth, portMismatch, portOutOfRange]
  | some o => exact portOk_bitIn_iff s (some o)

theorem anyWordOf_eq_some_iff {s : State} {a : Option Operand} {w : Word} :
    s.anyWordOf a = some w ↔ a.bind s.read = some (.word w) ∧ 1 ≤ w.length := by
  unfold State.anyWordOf
  cases a.bind s.read with
  | none => simp
  | some v =>
    cases v with
    | bit b => simp
    | word u =>
      by_cases h : 1 ≤ u.length
      · simp only [h, if_true, Option.some.injEq, Value.word.injEq]
        exact ⟨fun e => ⟨e, e ▸ h⟩, And.left⟩
      · simp only [h, if_false, Option.some.injEq, Value.word.injEq]
        exact ⟨fun e => by simp at e, fun e => absurd (e.1 ▸ e.2) h⟩

theorem wordOf_eq_some_iff {s : State} {D : Int} {a : Option Operand} {w : Word} :
    s.wordOf D a = some w ↔ a.bind s.read = some (.word w) ∧ 1 ≤ w.length ∧ (w.length : Int) = D := by
  unfold State.wordOf
  cases h : s.anyWordOf a with
  | none =>
    simp only [reduceCtorEq, false_iff, not_and]
    intro h1 h2
    rw [anyWordOf_eq_some_iff.mpr ⟨h1, h2⟩] at h
    simp at h
  | some u =>
    have hu := anyWordOf_eq_some_iff.mp h
    by_cases hl : (u.length : Int) = D
    · simp only [hl, if_true, Option.some.injEq, hu.1, Value.word.injEq]
      exact ⟨fun e => ⟨e, by rw [← e]; exact hu.2, by rw [← e]; exact hl⟩, And.left⟩
    · simp only [hl, if_false, hu.1, Option.some.injEq, Value.word.injEq]
      exact ⟨fun e => by simp at e, fun e => absurd (e.1 ▸ e.2.2) hl⟩

theorem wordOf_length {s : State} {D : Int} {a : Option Operand} {w : Word} (h : s.wordOf D a = some w) :
    (w.length : Int) = D := (wordOf_eq_some_iff.mp h).2.2

theorem wordOf_pos {s : State} {D : Int} {a : Option Operand} {w : Word} (h : s.wordOf D a = some w) : 0 < D := by
  have := wordOf_eq_some_iff.mp h; omega

theorem wordFits_iff (w : Word) (D : Int) :
    0 < D ∧ ¬w = [] ∧ (w.length : Int) = D ↔ 1 ≤ w.length ∧ (w.length : Int) = D := by
  rw [← List.length_eq_zero_iff]; omega

/-- A port for a Word of width `D` passes its checks, and `D` is positive, exactly when such a Word can be read from it. -/
theorem portOk_wordIn_iff (s : State) (D : Int) (a : Option Operand) :
    0 < D ∧ portOk s.tyOf (.wordIn D a) ↔ ∃ w, s.wordOf D a = some w := by
  simp only [wordOf_eq_some_iff]
  cases a with
  | none => simp [portOk, Port.wordIn, portUnconnected]
  | some o =>
    cases o with
    | lit v =>
      cases v with
      | bit b => simp [portOk, Port.wordIn, portMismatch, operandBase, portAccepts, Value.ty, State.read]
      | word w =>
        simp [portOk, Port.wordIn, portUnconnected, argZeroWidth, portMismatch, portOutOfRange, operandBase,
          portAccepts, tyZeroWidth, Value.ty, State.read]
        exact wordFits_iff w D
    | wire n =>
      cases h : wiresGet s.wires n with
      | none => simp [portOk, Port.wordIn, portUnconnected, State.read, operandBase, State.tyOf, h]
      | some v =>
        cases v with
        | bit b => simp [portOk, Port.wordIn, portMismatch, operandBase, portAccepts, Value.ty, State.read, State.tyOf, h]
        | word w =>
          simp [portOk, Port.wordIn, portUnconnected, argZeroWidth, portMismatch, portOutOfRange, operandBase,
            portAccepts, tyZeroWidth, Value.ty, State.read, State.tyOf, h]
          exact wordFits_iff w D
    | query n i =>
      cases h : wiresGet s.wires n with
      | none => simp [portOk, Port.wordIn, portUnconnected, State.read, operandBase, State.tyOf, h]
      | some v =>
        cases v with
        | bit b => simp [portOk, Port.wordIn, portMismatch, operandBase, portAccepts, Value.ty, State.read, State.tyOf, h]
        | word w =>
          simp [portOk, Port.wordIn, portMismatch, operandBase, portAccepts, Value.ty, State.read, State.tyOf, h]

/-- The port of a bit-position query passes its checks exactly when a Word can be read from it. -/
theorem portOk_anyWord_iff (s : State) (a : Option Operand) :
    portOk s.tyOf ⟨a, .anyWord, false⟩ ↔ ∃ w, s.anyWordOf a = some w := by
  simp only [anyWordOf_eq_some_iff]
  cases a with
  | none => simp [portOk, portUnconnected]
  | some o =>
    cases o with
    | lit v =>
      cases v <;> simp [portOk, portUnconnected, argZeroWidth, portMismatch, portOutOfRange, operandBase,
        portAccepts, tyZeroWidth, Value.ty, State.read, Nat.one_le_iff_ne_zero]
    | wire n =>
      cases h : wiresGet s.wires n with
      | none => simp [portOk, portUnconnected, State.read, operandBase, State.tyOf, h]
      | some v =>
        cases v <;> simp [portOk, portUnconnected, argZeroWidth, portMismatch, portOutOfRange, operandBase,
          portAccepts, tyZeroWidth, Value.ty, State.read, State.tyOf, h, Nat.one_le_iff_ne_zero]
    | query n i =>
      cases h : wiresGet s.wires n with
      | none => simp [portOk, portUnconnected, State.read, operandBase, State.tyOf, h]
      | some v =>
        cases v <;> simp [portOk, portMismatch, operandBase, portAccepts, Value.ty, State.read, State.tyOf, h]

/-- The type of what an operand other than a position names is the type of its value. -/
theorem operandBase_of_anyWordOf {s : State} {a : Option Operand} {w : Word} (h : s.anyWordOf a = some w) :
    a.bind (operandBase s.tyOf) = some (.word w.length) := by
  rw [anyWordOf_eq_some_iff] at h
  obtain ⟨h, -⟩ := h
  cases a with
  | none => simp at h
  | some o =>
    cases o with
    | lit v => simp [State.read] at h; simp [operandBase, h, Value.ty]
    | wire n => simp [State.read] at h; simp [operandBase, State.tyOf, h, Value.ty]
    | query n i =>
      simp only [Option.bind_some, State.read] at h
      cases hg : wiresGet s.wires n with
      | none => simp [hg] at h
      | some v => cases v <;> simp [hg] at h

/-! ### Ports that carry values -/

/-- What carries a value is connected, and no word of width zero. -/
theorem carries_port {s : State} {a : Option Operand} (h : s.Carries a) :
    argZeroWidth s.tyOf a = false ∧ ∀ t m, portUnconnected s.tyOf ⟨a, t, m⟩ = false := by
  cases a with
  | none => simp [State.Carries, State.bitOf, State.anyWordOf] at h
  | some o =>
    cases o with
    | lit v =>
      cases v <;> simp [State.Carries, State.bitOf, State.anyWordOf, State.read, argZeroWidth, operandBase, Value.ty,
        tyZeroWidth, portUnconnected, Nat.one_le_iff_ne_zero] at h ⊢
      exact h
    | wire n =>
      cases hn : wiresGet s.wires n with
      | none => simp [State.Carries, State.bitOf, State.anyWordOf, State.read, hn] at h
      | some v =>
        cases v <;> simp [State.Carries, State.bitOf, State.anyWordOf, State.read, argZeroWidth, operandBase, Value.ty,
          tyZeroWidth, portUnconnected, State.tyOf, hn, Nat.one_le_iff_ne_zero] at h ⊢
        exact h
    | query n i =>
      cases hn : wiresGet s.wires n with
      | none => simp [State.Carries, State.bitOf, State.anyWordOf, State.read, hn] at h
      | some v =>
        cases v with
        | bit b => simp [argZeroWidth, operandBase, Value.ty, tyZeroWidth, portUnconnected, State.tyOf, hn]
        | word w =>
          have hb := bitAt_isSome_iff w i
          cases hw : bitAt w i with
          | none => simp [State.Carries, State.bitOf, State.anyWordOf, State.read, hn, hw] at h
          | some b =>
            simp [hw] at hb
            have : w ≠ [] := by rintro rfl; simp at hb; omega
            simp [argZeroWidth, operandBase, Value.ty, tyZeroWidth, portUnconnected, State.tyOf, hn, this]

/-- A position asked of what carries a value lies inside its word. -/
theorem carries_not_outOfRange {s : State} {a : Option Operand} (h : s.Carries a) (t : PortTy) (m : Bool) :
    portOutOfRange s.tyOf ⟨a, t, m⟩ = false := by
  cases a with
  | none => rfl
  | some o =>
    cases o with
    | lit v => rfl
    | wire n => rfl
    | query n i =>
      cases hn : wiresGet s.wires n with
      | none => simp [State.Carries, State.bitOf, State.anyWordOf, State.read, hn] at h
      | some v =>
        cases v with
        | bit b => simp [portOutOfRange, positionOutside, State.tyOf, hn, Value.ty]
        | word w =>
          have hb := bitAt_isSome_iff w i
          cases hw : bitAt w i with
          | none => simp [State.Carries, State.bitOf, State.anyWordOf, State.read, hn, hw] at h
          | some b =>
            simp [hw] at hb
            simp [portOutOfRange, positionOutside, State.tyOf, hn, Value.ty, hb]

/-- Of the port checks only the type can fail on what carries a value. -/
theorem carries_mismatch_iff {s : State} {p : Port} (h : s.Carries p.arg) :
    portMismatch s.tyOf p = true ↔ ¬ portOk s.tyOf p := by
  obtain ⟨a, t, m⟩ := p
  simp [portOk, carries_port h, carries_not_outOfRange h]

/-- A contract whose ports all carry values is refused for a port of another type before anything else but a width of zero. -/
theorem contractCheck_widthMismatch {s : State} {pol : ReservedFPolicy} {c : Contract} (hw : ∀ D ∈ c.widths, 0 < D)
    (he : c.extra = none) (hc : ∀ p ∈ c.ports, s.Carries p.arg ∨ p.arg = none ∧ p.omissible = true)
    (hm : ∃ p ∈ c.ports, s.Carries p.arg ∧ ¬portOk s.tyOf p) :
    contractCheck pol s.tyOf c = some .widthMismatch := by
  have h1 : c.ports.any (fun p => argZeroWidth s.tyOf p.arg) = false := by
    simp only [List.any_eq_false, Bool.not_eq_true]; intro p hp
    rcases hc p hp with h | ⟨h, -⟩
    · exact (carries_port h).1
    · simp [h, argZeroWidth]
  have h2 : c.ports.any (portUnconnected s.tyOf) = false := by
    simp only [List.any_eq_false, Bool.not_eq_true]; intro p hp
    rcases hc p hp with h | ⟨h, h'⟩
    · exact (carries_port h).2 _ _
    · simp [h, h', portUnconnected]
  have h3 : c.ports.any (portMismatch s.tyOf) = true := by
    obtain ⟨p, hp, h, hn⟩ := hm
    exact List.any_eq_true.mpr ⟨p, hp, (carries_mismatch_iff h).mpr hn⟩
  have h0 : c.widths.any (fun D => decide (D ≤ 0)) = false := by
    simp only [List.any_eq_false, decide_eq_true_eq, not_le]; exact hw
  have h4 : argZeroWidth s.tyOf none = false := rfl
  simp [contractCheck, contractViolations, h0, h1, h2, h3, h4, he]

/-! ### Operations -/

/-- What an operation reads: the values of its output ports, if its inputs can be read (spec/43_alu.md R80 for the ALU). -/
def instrValues (s : State) : Instr → Option (List Value)
  | .nand a b _ => do
    let x ← s.bitOf a
    let z ← s.bitOf b
    some [.bit (nandGate x z)]
  | .not a _ => do
    let x ← s.bitOf a
    some [.bit (notGate nandGate x)]
  | .and a b _ => do
    let x ← s.bitOf a
    let z ← s.bitOf b
    some [.bit (andGate nandGate x z)]
  | .or a b _ => do
    let x ← s.bitOf a
    let z ← s.bitOf b
    some [.bit (orGate nandGate x z)]
  | .nor a b _ => do
    let x ← s.bitOf a
    let z ← s.bitOf b
    some [.bit (norGate nandGate x z)]
  | .xor a b _ => do
    let x ← s.bitOf a
    let z ← s.bitOf b
    some [.bit (xorGate nandGate x z)]
  | .ha a b _ _ => do
    let x ← s.bitOf a
    let z ← s.bitOf b
    some [.bit (halfAdder nandGate x z).sum, .bit (halfAdder nandGate x z).carry]
  | .fa a b c _ _ => do
    let x ← s.bitOf a
    let z ← s.bitOf b
    let k ← s.carryOf c
    some [.bit (fullAdder nandGate x z k).sum, .bit (fullAdder nandGate x z k).carry]
  | .mux a b sel _ => do
    let x ← s.bitOf a
    let z ← s.bitOf b
    let k ← s.bitOf sel
    some [.bit (muxGate nandGate x z k)]
  | .wnand D a b _ => do
    let A ← s.wordOf D a
    let B ← s.wordOf D b
    some [.word (lift2 nandGate A B)]
  | .wnot D a _ _ => do
    let A ← s.wordOf D a
    some [.word (wordNot nandGate A)]
  | .wand D a b _ => do
    let A ← s.wordOf D a
    let B ← s.wordOf D b
    some [.word (lift2 (andGate nandGate) A B)]
  | .wor D a b _ => do
    let A ← s.wordOf D a
    let B ← s.wordOf D b
    some [.word (lift2 (orGate nandGate) A B)]
  | .wnor D a b _ => do
    let A ← s.wordOf D a
    let B ← s.wordOf D b
    some [.word (lift2 (norGate nandGate) A B)]
  | .wxor D a b _ => do
    let A ← s.wordOf D a
    let B ← s.wordOf D b
    some [.word (lift2 (xorGate nandGate) A B)]
  | .add D a b cin _ _ => do
    let A ← s.wordOf D a
    let B ← s.wordOf D b
    let k ← s.carryOf cin
    some [.word (rippleAdd nandGate A B k).sum, .bit (rippleAdd nandGate A B k).carry]
  | .wmux D a b sel _ => do
    let A ← s.wordOf D a
    let B ← s.wordOf D b
    let k ← s.bitOf sel
    some [.word (wordMux nandGate A B k)]
  | .conv M D a _ => do
    let A ← s.wordOf M a
    some [.word (zeroExtend D.toNat A)]
  | .bitQuery i w _ => do
    let W ← s.anyWordOf w
    let b ← bitAt W i
    some [.bit b]
  | .aluOr D op1 op2 _ => s.aluValue ⟨.LOW, .LOW, .LOW⟩ D op1 op2
  | .aluAdd D op1 op2 _ => s.aluValue ⟨.LOW, .LOW, .HIGH⟩ D op1 op2
  | .aluAnd D op1 op2 _ => s.aluValue ⟨.LOW, .HIGH, .LOW⟩ D op1 op2
  | .aluReserved011 D op1 op2 _ => s.aluValue ⟨.LOW, .HIGH, .HIGH⟩ D op1 op2
  | .aluReserved100 D op1 op2 _ => s.aluValue ⟨.HIGH, .LOW, .LOW⟩ D op1 op2
  | .aluSub D op1 op2 _ => s.aluValue ⟨.HIGH, .LOW, .HIGH⟩ D op1 op2
  | .aluReserved110 D op1 op2 _ => s.aluValue ⟨.HIGH, .HIGH, .LOW⟩ D op1 op2
  | .aluReserved111 D op1 op2 _ => s.aluValue ⟨.HIGH, .HIGH, .HIGH⟩ D op1 op2

/-- Every meaning is `perform` on the values of its output ports. -/
theorem exec_eq_perform (i : Instr) (s : State) : exec i s = s.perform i (instrValues s i) := by
  cases i <;> rfl

/-- What `perform` can answer with a next state. -/
theorem perform_next {s t : State} {i : Instr} {o : Option (List Value)} (h : s.perform i o = .next t) :
    contractCheck s.params.reservedF s.tyOf (instrContract i) = none ∧
      ∃ vs, o = some vs ∧ t = s.drive ((instrPorts i).map Prod.fst) vs := by
  unfold State.perform at h
  cases hc : contractCheck s.params.reservedF s.tyOf (instrContract i) with
  | some r => simp [hc, refuse] at h
  | none =>
    cases o with
    | none => simp [hc, refuse] at h
    | some vs => simp [hc] at h; exact ⟨rfl, vs, rfl, h.symm⟩

/-- What an operation can answer with a next state: its contract is met, and its output ports are driven with the values its
cell gives. -/
theorem exec_next {s t : State} {i : Instr} (h : exec i s = .next t) :
    contractCheck s.params.reservedF s.tyOf (instrContract i) = none ∧
      ∃ vs, instrValues s i = some vs ∧ t = s.drive ((instrPorts i).map Prod.fst) vs := by
  rw [exec_eq_perform] at h; exact perform_next h

/-- No operation answers with a fault: there is none (R93). -/
theorem exec_not_fault (i : Instr) (s : State) (f : Fault) : exec i s ≠ .fault f := f.rec

/-- The checks of a contract that are not about its ports: WNOT's extra operand (R100), CONV's widths (R96), a reserved
function-select (R99). -/
def instrAdmitted (pol : ReservedFPolicy) (i : Instr) : Prop :=
  (instrContract i).extra = none ∧ convNarrows (instrContract i).convert = false ∧
    ((instrContract i).reserved = true → pol = .datapath)

theorem portOk_wordIn_of_pos {s : State} {D : Int} {a : Option Operand} (h : 0 < D) :
    portOk s.tyOf (.wordIn D a) ↔ ∃ w, s.wordOf D a = some w := by
  rw [← portOk_wordIn_iff]; simp [h]

/-- For two word ports of one width. -/
theorem ports_two_words {s : State} {D : Int} {a b : Option Operand} :
    0 < D ∧ portOk s.tyOf (.wordIn D a) ∧ portOk s.tyOf (.wordIn D b) ↔
      ∃ A B, s.wordOf D a = some A ∧ s.wordOf D b = some B := by
  constructor
  · rintro ⟨hD, ha, hb⟩
    rw [portOk_wordIn_of_pos hD] at ha hb
    obtain ⟨A, ha⟩ := ha
    obtain ⟨B, hb⟩ := hb
    exact ⟨A, B, ha, hb⟩
  · rintro ⟨A, B, ha, hb⟩
    have hD := wordOf_pos ha
    exact ⟨hD, (portOk_wordIn_of_pos hD).mpr ⟨A, ha⟩, (portOk_wordIn_of_pos hD).mpr ⟨B, hb⟩⟩

/-- For a bit-position query: its contract asks for a Word and a position inside it. -/
theorem query_ports {s : State} {i : Int} {a : Option Operand} :
    portOk s.tyOf ⟨a, .anyWord, false⟩ ∧ positionOutside i (a.bind (operandBase s.tyOf)) = false ↔
      ∃ W b, s.anyWordOf a = some W ∧ bitAt W i = some b := by
  rw [portOk_anyWord_iff]
  constructor
  · rintro ⟨⟨W, hW⟩, hp⟩
    rw [operandBase_of_anyWordOf hW] at hp
    simp only [positionOutside, decide_eq_false_iff_not, not_or, not_lt, not_le] at hp
    obtain ⟨b, hb⟩ := Option.isSome_iff_exists.mp ((bitAt_isSome_iff W i).mpr hp)
    exact ⟨W, b, hW, hb⟩
  · rintro ⟨W, b, hW, hb⟩
    refine ⟨⟨W, hW⟩, ?_⟩
    have := (bitAt_isSome_iff W i).mp (by simp [hb])
    rw [operandBase_of_anyWordOf hW]
    simp only [positionOutside, decide_eq_false_iff_not, not_or, not_lt, not_le]
    exact this

/-- A contract is met exactly when the inputs can be read and the checks that are not about ports pass. -/
theorem contract_iff_values (s : State) (i : Instr) :
    contractCheck s.params.reservedF s.tyOf (instrContract i) = none ↔
      (∃ vs, instrValues s i = some vs) ∧ instrAdmitted s.params.reservedF i := by
  cases i
  case bitQuery p w y =>
    rw [contractCheck_eq_none_iff]
    have := query_ports (s := s) (i := p) (a := w)
    simp [instrContract, Contract.plain, instrAdmitted, instrValues, Option.bind_eq_some_iff, convNarrows,
      queryOutOfRange] at this ⊢
    rw [this]
  case conv M D a r =>
    rw [contractCheck_eq_none_iff]
    have := portOk_wordIn_iff s M a
    simp [instrContract, Contract.plain, instrAdmitted, instrValues, Option.bind_eq_some_iff, convNarrows,
      queryOutOfRange] at this ⊢
    rw [← this]
    constructor
    · rintro ⟨⟨h1, -⟩, h3, h4⟩; exact ⟨⟨h1, h3⟩, h4⟩
    · rintro ⟨⟨h1, h3⟩, h4⟩; exact ⟨⟨h1, by omega⟩, h3, h4⟩
  case wnot D a extra r =>
    rw [contractCheck_eq_none_iff]
    have := portOk_wordIn_iff s D a
    simp [instrContract, Contract.plain, instrAdmitted, instrValues, Option.bind_eq_some_iff, convNarrows,
      queryOutOfRange] at this ⊢
    rw [← this, and_assoc]
  case add D a b cin sum cout | wmux D a b cin r =>
    rw [contractCheck_eq_none_iff]
    have := ports_two_words (s := s) (D := D) (a := a) (b := b)
    simp [instrContract, Contract.plain, instrAdmitted, instrValues, Option.bind_eq_some_iff, convNarrows,
      queryOutOfRange, portOk_carryIn_iff, portOk_bitIn_iff] at this ⊢
    tauto
  case wnand D a b r | wand D a b r | wor D a b r | wnor D a b r | wxor D a b r | aluOr D a b r | aluAdd D a b r
      | aluAnd D a b r | aluSub D a b r | aluReserved011 D a b r | aluReserved100 D a b r | aluReserved110 D a b r
      | aluReserved111 D a b r =>
    rw [contractCheck_eq_none_iff]
    have := ports_two_words (s := s) (D := D) (a := a) (b := b)
    simp [instrContract, Contract.alu, Contract.plain, instrAdmitted, instrValues, State.aluValue,
      Option.bind_eq_some_iff, convNarrows, queryOutOfRange] at this ⊢
    first
      | exact this
      | tauto
  all_goals
    rw [contractCheck_eq_none_iff]
    simp [instrContract, Contract.plain, instrAdmitted, instrValues, Option.bind_eq_some_iff, convNarrows,
      queryOutOfRange, portOk_bitIn_iff, portOk_carryIn_iff]

/-- Where an operation's inputs can be read and it is admitted, it completes. -/
theorem exec_of_values {s : State} {i : Instr} {vs : List Value} (h : instrValues s i = some vs)
    (ha : instrAdmitted s.params.reservedF i) :
    exec i s = .next (s.drive ((instrPorts i).map Prod.fst) vs) := by
  simp [exec_eq_perform, State.perform, (contract_iff_values s i).mpr ⟨⟨vs, h⟩, ha⟩, h]

/-- Where an operation's contract is not met it is refused, by the first reason of R101. -/
theorem exec_of_violation {s : State} {i : Instr} {r : Reason}
    (h : contractCheck s.params.reservedF s.tyOf (instrContract i) = some r) :
    exec i s = refuse (.inst (.cell i)) r := by
  simp [exec_eq_perform, State.perform, h]

/-- The contract of an ALU as an instance is met exactly when its three words can be read and no reserved literal on `F` is
refused. -/
theorem contract_alu_iff (s : State) (D : Int) (f a b : Option Operand) (r : Option Name) :
    contractCheck s.params.reservedF s.tyOf (instContract (.alu D f a b r)) = none ↔
      (∃ F A B, s.wordOf Config.selectWidth f = some F ∧ s.wordOf D a = some A ∧ s.wordOf D b = some B) ∧
        (literalReserved f = true → s.params.reservedF = .datapath) := by
  have h3 := portOk_wordIn_of_pos (s := s) (D := Config.selectWidth) (a := f) (by decide)
  have := ports_two_words (s := s) (D := D) (a := a) (b := b)
  rw [contractCheck_eq_none_iff]
  simp [instContract, Contract.plain, convNarrows, queryOutOfRange, h3] at this ⊢
  tauto

/-- An operation answers with a next state, or is refused for the reason its contract gives: nothing else. -/
theorem exec_cases (i : Instr) (s : State) :
    (∃ vs, instrValues s i = some vs ∧ exec i s = .next (s.drive ((instrPorts i).map Prod.fst) vs)) ∨
      ∃ r, contractCheck s.params.reservedF s.tyOf (instrContract i) = some r ∧
        exec i s = refuse (.inst (.cell i)) r := by
  cases hc : contractCheck s.params.reservedF s.tyOf (instrContract i) with
  | some r => exact Or.inr ⟨r, rfl, exec_of_violation hc⟩
  | none =>
    obtain ⟨⟨vs, hv⟩, ha⟩ := (contract_iff_values s i).mp hc
    exact Or.inl ⟨vs, hv, exec_of_values hv ha⟩

end Sys2Proof.Machine
end

