-- ==== Sys2Proof/Laws/Step.lean ====
section
/-! SUPPORT. What a step can answer, said once. -/

namespace Sys2Proof.Machine

open Sys2Proof

/-- What the evaluation of one instance can answer with a next state: the operation it is, and that operation's result. -/
theorem evalInst_next {x : Inst} {s t : State} (h : evalInst x s = .next t) :
    ∃ i, s.select x = .ok i ∧ exec i s = .next t := by
  unfold evalInst at h
  cases hx : s.select x with
  | error e => simp [hx, refuse] at h
  | ok i => exact ⟨i, rfl, by simpa [hx] using h⟩

/-- An operation of a netlist is selected as itself. -/
@[simp] theorem select_cell (s : State) (i : Instr) : s.select (.cell i) = .ok i := rfl

@[simp] theorem evalInst_cell (s : State) (i : Instr) : evalInst (.cell i) s = exec i s := rfl

/-- What an instance is selected as: an operation is itself; an ALU is the operation its function-select stands for, where its
words can be read and that select is defined or the policy is `datapath`. -/
theorem select_ok {x : Inst} {s : State} {i : Instr} (h : s.select x = .ok i) :
    x = .cell i ∨ ∃ (D : Int) (f a b : Option Operand) (r : Option Name) (sel : FunctionSelect),
      x = .alu D f a b r ∧ i = decodeSelect sel D a b r ∧
      contractCheck s.params.reservedF s.tyOf (instContract x) = none ∧
      (s.wordOf Config.selectWidth f).bind selectOfWord = some sel ∧
      (selectDefined sel = true ∨ s.params.reservedF = .datapath) := by
  cases x with
  | cell j => simp at h; exact Or.inl (by rw [h])
  | alu D f a b r =>
    refine Or.inr ⟨D, f, a, b, r, ?_⟩
    simp only [State.select] at h
    split at h
    · cases h
    · next hc =>
      split at h
      · next sel hsel =>
        split at h
        · cases h
        · next hd =>
          cases h
          refine ⟨sel, rfl, rfl, hc, hsel, ?_⟩
          cases hp : s.params.reservedF <;> simp [hp] at hd ⊢
          exact hd
      · cases h

/-- Where an instance is selected as no operation it is an ALU, and the refusal names it (log 23). -/
theorem select_error {x : Inst} {s : State} {site : Site} {e : Reason} (h : s.select x = .error (site, e)) :
    site = .inst x ∧ ∃ (D : Int) (f a b : Option Operand) (r : Option Name), x = .alu D f a b r := by
  cases x with
  | cell j => simp at h
  | alu D f a b r =>
    refine ⟨?_, D, f, a, b, r, rfl⟩
    simp only [State.select] at h
    split at h
    · cases h; rfl
    · split at h
      · split at h <;> cases h; rfl
      · cases h; rfl

/-- What a step can answer with a next state: nothing is left and nothing changes, or the next ready instance has been
evaluated and taken off those left. In both cases the composition and its inputs are accepted. -/
theorem step_next {s t : State} (h : step s = .next t) :
    s.violation = none ∧ (s.pending = [] ∧ t = s ∨
      ∃ x rest u, s.nextInst = some (x, rest) ∧ evalInst x s = .next u ∧ t = u.withPending rest) := by
  unfold step at h
  cases hv : s.violation with
  | some e => simp [hv, refuse] at h
  | none =>
    refine ⟨rfl, ?_⟩
    cases hp : s.pending with
    | nil => simp [hv, hp] at h; exact Or.inl ⟨rfl, h.symm⟩
    | cons y ys =>
      cases hn : s.nextInst with
      | none => simp [hv, hp, hn, refuse] at h
      | some d =>
        obtain ⟨x, rest⟩ := d
        cases he : evalInst x s with
        | fault f => exact f.rec
        | refused r => simp [hv, hp, hn, he] at h
        | next u => simp [hv, hp, hn, he] at h; exact Or.inr ⟨x, rest, u, rfl, he, h.symm⟩

/-- A step with a refusal: the composition or its inputs are refused, or no instance left has its operands, or the next
one's evaluation is refused. -/
theorem step_refused {s : State} {e : Refusal} (h : step s = .refused e) :
    (∃ site r, s.violation = some (site, r) ∧ e = .illFormed site r) ∨
      s.violation = none ∧ ((∃ x ys, s.pending = x :: ys ∧ s.nextInst = none ∧
          e = .illFormed (.inst x) .unconnectedInput) ∨
        ∃ x rest, s.nextInst = some (x, rest) ∧ evalInst x s = .refused e) := by
  unfold step at h
  cases hv : s.violation with
  | some d =>
    obtain ⟨site, r⟩ := d
    simp [hv, refuse] at h
    exact Or.inl ⟨site, r, rfl, h.symm⟩
  | none =>
    refine Or.inr ⟨rfl, ?_⟩
    cases hp : s.pending with
    | nil => simp [hv, hp] at h
    | cons y ys =>
      cases hn : s.nextInst with
      | none => simp [hv, hp, hn, refuse] at h; exact Or.inl ⟨y, ys, rfl, rfl, h.symm⟩
      | some d =>
        obtain ⟨x, rest⟩ := d
        cases he : evalInst x s with
        | fault f => exact f.rec
        | next u => simp [hv, hp, hn, he] at h
        | refused r => simp [hv, hp, hn, he] at h; exact Or.inr ⟨x, rest, rfl, by rw [he, h]⟩

end Sys2Proof.Machine
end

