-- ==== Sys2Proof/Laws/PerInstr.lean ====
section
/-! SUPPORT. Facts about every operation as syntax, one lemma per constructor. -/

namespace Sys2Proof.Laws

open Sys2Proof Sys2Proof.Machine

/-- The parts an operation is written as make that operation again. -/
def Parts.Statement (i : Instr) : Prop :=
  build (instrParts i).op (instrParts i).params (instrParts i).args (instrParts i).results = some (.cell i)

/-- Every output port is a Bit or a Word as wide as one of the operation's width parameters. -/
def Outputs.Statement (i : Instr) : Prop :=
  ∀ p ∈ instrPorts i, p.2 = .bit ∨ ∃ D ∈ (instrContract i).widths, p.2 = .word D

theorem Parts.nand (a b : Option Operand) (y : Option Name) :
    Parts.Statement (.nand a b y) := rfl

theorem Parts.not (a : Option Operand) (y : Option Name) :
    Parts.Statement (.not a y) := rfl

theorem Parts.and (a b : Option Operand) (y : Option Name) :
    Parts.Statement (.and a b y) := rfl

theorem Parts.or (a b : Option Operand) (y : Option Name) :
    Parts.Statement (.or a b y) := rfl

theorem Parts.nor (a b : Option Operand) (y : Option Name) :
    Parts.Statement (.nor a b y) := rfl

theorem Parts.xor (a b : Option Operand) (y : Option Name) :
    Parts.Statement (.xor a b y) := rfl

theorem Parts.ha (a b : Option Operand) (sum carry : Option Name) :
    Parts.Statement (.ha a b sum carry) := rfl

theorem Parts.fa (a b c : Option Operand) (sum carry : Option Name) :
    Parts.Statement (.fa a b c sum carry) := rfl

theorem Parts.mux (a b s : Option Operand) (y : Option Name) :
    Parts.Statement (.mux a b s y) := rfl

theorem Parts.wnand (D : Int) (a b : Option Operand) (r : Option Name) :
    Parts.Statement (.wnand D a b r) := rfl

theorem Parts.wnot (D : Int) (a extra : Option Operand) (r : Option Name) :
    Parts.Statement (.wnot D a extra r) := rfl

theorem Parts.wand (D : Int) (a b : Option Operand) (r : Option Name) :
    Parts.Statement (.wand D a b r) := rfl

theorem Parts.wor (D : Int) (a b : Option Operand) (r : Option Name) :
    Parts.Statement (.wor D a b r) := rfl

theorem Parts.wnor (D : Int) (a b : Option Operand) (r : Option Name) :
    Parts.Statement (.wnor D a b r) := rfl

theorem Parts.wxor (D : Int) (a b : Option Operand) (r : Option Name) :
    Parts.Statement (.wxor D a b r) := rfl

theorem Parts.add (D : Int) (a b cin : Option Operand) (s cout : Option Name) :
    Parts.Statement (.add D a b cin s cout) := rfl

theorem Parts.wmux (D : Int) (a b s : Option Operand) (r : Option Name) :
    Parts.Statement (.wmux D a b s r) := rfl

theorem Parts.conv (M D : Int) (a : Option Operand) (r : Option Name) :
    Parts.Statement (.conv M D a r) := rfl

theorem Parts.bitQuery (i : Int) (w : Option Operand) (y : Option Name) :
    Parts.Statement (.bitQuery i w y) := rfl

theorem Parts.aluOr (D : Int) (op1 op2 : Option Operand) (r : Option Name) :
    Parts.Statement (.aluOr D op1 op2 r) := rfl

theorem Parts.aluAdd (D : Int) (op1 op2 : Option Operand) (r : Option Name) :
    Parts.Statement (.aluAdd D op1 op2 r) := rfl

theorem Parts.aluAnd (D : Int) (op1 op2 : Option Operand) (r : Option Name) :
    Parts.Statement (.aluAnd D op1 op2 r) := rfl

theorem Parts.aluReserved011 (D : Int) (op1 op2 : Option Operand) (r : Option Name) :
    Parts.Statement (.aluReserved011 D op1 op2 r) := rfl

theorem Parts.aluReserved100 (D : Int) (op1 op2 : Option Operand) (r : Option Name) :
    Parts.Statement (.aluReserved100 D op1 op2 r) := rfl

theorem Parts.aluSub (D : Int) (op1 op2 : Option Operand) (r : Option Name) :
    Parts.Statement (.aluSub D op1 op2 r) := rfl

theorem Parts.aluReserved110 (D : Int) (op1 op2 : Option Operand) (r : Option Name) :
    Parts.Statement (.aluReserved110 D op1 op2 r) := rfl

theorem Parts.aluReserved111 (D : Int) (op1 op2 : Option Operand) (r : Option Name) :
    Parts.Statement (.aluReserved111 D op1 op2 r) := rfl

theorem Outputs.nand (a b : Option Operand) (y : Option Name) :
    Outputs.Statement (.nand a b y) := by
  simp [Outputs.Statement, instrPorts]

theorem Outputs.not (a : Option Operand) (y : Option Name) :
    Outputs.Statement (.not a y) := by
  simp [Outputs.Statement, instrPorts]

theorem Outputs.and (a b : Option Operand) (y : Option Name) :
    Outputs.Statement (.and a b y) := by
  simp [Outputs.Statement, instrPorts]

theorem Outputs.or (a b : Option Operand) (y : Option Name) :
    Outputs.Statement (.or a b y) := by
  simp [Outputs.Statement, instrPorts]

theorem Outputs.nor (a b : Option Operand) (y : Option Name) :
    Outputs.Statement (.nor a b y) := by
  simp [Outputs.Statement, instrPorts]

theorem Outputs.xor (a b : Option Operand) (y : Option Name) :
    Outputs.Statement (.xor a b y) := by
  simp [Outputs.Statement, instrPorts]

theorem Outputs.ha (a b : Option Operand) (sum carry : Option Name) :
    Outputs.Statement (.ha a b sum carry) := by
  simp [Outputs.Statement, instrPorts]

theorem Outputs.fa (a b c : Option Operand) (sum carry : Option Name) :
    Outputs.Statement (.fa a b c sum carry) := by
  simp [Outputs.Statement, instrPorts]

theorem Outputs.mux (a b s : Option Operand) (y : Option Name) :
    Outputs.Statement (.mux a b s y) := by
  simp [Outputs.Statement, instrPorts]

theorem Outputs.wnand (D : Int) (a b : Option Operand) (r : Option Name) :
    Outputs.Statement (.wnand D a b r) := by
  simp [Outputs.Statement, instrPorts, instrContract, Contract.plain]

theorem Outputs.wnot (D : Int) (a extra : Option Operand) (r : Option Name) :
    Outputs.Statement (.wnot D a extra r) := by
  simp [Outputs.Statement, instrPorts, instrContract, Contract.plain]

theorem Outputs.wand (D : Int) (a b : Option Operand) (r : Option Name) :
    Outputs.Statement (.wand D a b r) := by
  simp [Outputs.Statement, instrPorts, instrContract, Contract.plain]

theorem Outputs.wor (D : Int) (a b : Option Operand) (r : Option Name) :
    Outputs.Statement (.wor D a b r) := by
  simp [Outputs.Statement, instrPorts, instrContract, Contract.plain]

theorem Outputs.wnor (D : Int) (a b : Option Operand) (r : Option Name) :
    Outputs.Statement (.wnor D a b r) := by
  simp [Outputs.Statement, instrPorts, instrContract, Contract.plain]

theorem Outputs.wxor (D : Int) (a b : Option Operand) (r : Option Name) :
    Outputs.Statement (.wxor D a b r) := by
  simp [Outputs.Statement, instrPorts, instrContract, Contract.plain]

theorem Outputs.add (D : Int) (a b cin : Option Operand) (s cout : Option Name) :
    Outputs.Statement (.add D a b cin s cout) := by
  simp [Outputs.Statement, instrPorts, instrContract, Contract.plain]

theorem Outputs.wmux (D : Int) (a b s : Option Operand) (r : Option Name) :
    Outputs.Statement (.wmux D a b s r) := by
  simp [Outputs.Statement, instrPorts, instrContract, Contract.plain]

theorem Outputs.conv (M D : Int) (a : Option Operand) (r : Option Name) :
    Outputs.Statement (.conv M D a r) := by
  simp [Outputs.Statement, instrPorts, instrContract, Contract.plain]

theorem Outputs.bitQuery (i : Int) (w : Option Operand) (y : Option Name) :
    Outputs.Statement (.bitQuery i w y) := by
  simp [Outputs.Statement, instrPorts]

theorem Outputs.aluOr (D : Int) (op1 op2 : Option Operand) (r : Option Name) :
    Outputs.Statement (.aluOr D op1 op2 r) := by
  simp [Outputs.Statement, instrPorts, instrContract, Contract.plain, Contract.alu]

theorem Outputs.aluAdd (D : Int) (op1 op2 : Option Operand) (r : Option Name) :
    Outputs.Statement (.aluAdd D op1 op2 r) := by
  simp [Outputs.Statement, instrPorts, instrContract, Contract.plain, Contract.alu]

theorem Outputs.aluAnd (D : Int) (op1 op2 : Option Operand) (r : Option Name) :
    Outputs.Statement (.aluAnd D op1 op2 r) := by
  simp [Outputs.Statement, instrPorts, instrContract, Contract.plain, Contract.alu]

theorem Outputs.aluReserved011 (D : Int) (op1 op2 : Option Operand) (r : Option Name) :
    Outputs.Statement (.aluReserved011 D op1 op2 r) := by
  simp [Outputs.Statement, instrPorts, instrContract, Contract.plain, Contract.alu]

theorem Outputs.aluReserved100 (D : Int) (op1 op2 : Option Operand) (r : Option Name) :
    Outputs.Statement (.aluReserved100 D op1 op2 r) := by
  simp [Outputs.Statement, instrPorts, instrContract, Contract.plain, Contract.alu]

theorem Outputs.aluSub (D : Int) (op1 op2 : Option Operand) (r : Option Name) :
    Outputs.Statement (.aluSub D op1 op2 r) := by
  simp [Outputs.Statement, instrPorts, instrContract, Contract.plain, Contract.alu]

theorem Outputs.aluReserved110 (D : Int) (op1 op2 : Option Operand) (r : Option Name) :
    Outputs.Statement (.aluReserved110 D op1 op2 r) := by
  simp [Outputs.Statement, instrPorts, instrContract, Contract.plain, Contract.alu]

theorem Outputs.aluReserved111 (D : Int) (op1 op2 : Option Operand) (r : Option Name) :
    Outputs.Statement (.aluReserved111 D op1 op2 r) := by
  simp [Outputs.Statement, instrPorts, instrContract, Contract.plain, Contract.alu]

end Sys2Proof.Laws
end

