-- ==== Sys2Proof/Tests/Slice0.lean ====
section
/-! SUPPORT. Tests: expected values from spec/95_test_vectors.md (its section is named beside each) or from the encodings of
spec/30_encoding.md. After them the witnesses: for every statement with hypotheses a state and operands that meet them. -/

namespace Sys2Proof.Tests

open Sys2Proof Sys2Proof.Machine

/-! ### Building small states and reading results -/

/-- A word from its digits. -/
def bits (digits : String) : Word := (wordOfDigits (ascii digits)).getD []

/-- A word literal as an operand. -/
def word (digits : String) : Option Operand := some (.lit (.word (bits digits)))

def hi : Option Operand := some (.lit (.bit .HIGH))

def lo : Option Operand := some (.lit (.bit .LOW))

/-- A wire as an operand. -/
def wire (n : String) : Option Operand := some (.wire (ascii n))

/-- A position of a wire's word as an operand. -/
def query (n : String) (i : Int) : Option Operand := some (.query (ascii n) i)

/-- The wires results are read from. -/
def y : Option Name := some (ascii "y")

def z : Option Name := some (ascii "z")

/-- A state with a few valued wires and nothing to evaluate. -/
def st : State :=
  { State.reset with wires :=
      [(ascii "A", .word (bits "1100")), (ascii "B", .word (bits "1010")), (ascii "C", .word (bits "101")),
        (ascii "F", .word (bits "011")), (ascii "a", .bit .HIGH), (ascii "b", .bit .LOW)] }

/-- The same machine under the policy that gives a reserved function-select the composition's value. -/
def stDatapath : State := { st with params := { st.params with reservedF := .datapath } }

/-- The value a result leaves on a wire. -/
def on (n : Option Name) (r : Result) : Option Value :=
  match r, n with
  | .next t, some m => wiresGet t.wires m
  | _, _ => none

/-- The reason a result is refused for. -/
def reason : Result → Option Reason
  | .refused (.illFormed _ r) => some r
  | _ => none

/-- The value an operation leaves on `y`. -/
def onY (i : Instr) : Option Value := on y (exec i st)

/-- A two-input gate on the inputs 00, 01, 10, 11. -/
def table2 (mk : BitCell2) : List (Option Value) :=
  [mk lo lo y, mk lo hi y, mk hi lo y, mk hi hi y].map onY

/-- A column of bits as values. -/
def column (digits : String) : List (Option Value) := (bits digits).map fun b => some (.bit b)

/-- A netlist from its lines. -/
def netlist (text : String) : Netlist := (decodeNetlist (ascii text)).toOption.getD Netlist.empty

/-- The reason a netlist is refused for. -/
def netlistReason (text : String) : Option Reason := (netlistCheck .refuse (netlist text)).map (·.2)

/-! ### Gates, adder blocks, multiplexer: sections 2.1 to 2.3 -/

theorem test_nand : table2 .nand = column "1110" := by decide

theorem test_not : [Instr.not lo y, .not hi y].map onY = column "10" := by decide

theorem test_and : table2 .and = column "0001" := by decide

theorem test_or : table2 .or = column "0111" := by decide

theorem test_nor : table2 .nor = column "1000" := by decide

theorem test_xor : table2 .xor = column "0110" := by decide

theorem test_ha : table2 (fun a b n => .ha a b n z) = column "0110" ∧ table2 (fun a b n => .ha a b z n) = column "0001" := by
  decide

theorem test_fa :
    table2 (fun a b n => .fa a b lo n z) ++ table2 (fun a b n => .fa a b hi n z) = column "01101001" ∧
    table2 (fun a b n => .fa a b lo z n) ++ table2 (fun a b n => .fa a b hi z n) = column "00010111" := by decide

theorem test_fa_carry_omitted : table2 (fun a b n => .fa a b none n z) = column "0110" := by decide

theorem test_mux :
    table2 (fun a b n => .mux a b lo n) ++ table2 (fun a b n => .mux a b hi n) = column "00110101" := by decide

/-! ### Word cells: sections 2.4 to 2.7 -/

theorem test_wnand : onY (.wnand 4 (word "1100") (word "1010") y) = some (.word (bits "0111")) := by decide

theorem test_wand : onY (.wand 4 (word "1100") (word "1010") y) = some (.word (bits "1000")) := by decide

theorem test_wor : onY (.wor 4 (word "1100") (word "1010") y) = some (.word (bits "1110")) := by decide

theorem test_wnor : onY (.wnor 4 (word "1100") (word "1010") y) = some (.word (bits "0001")) := by decide

theorem test_wxor : onY (.wxor 4 (word "1100") (word "1010") y) = some (.word (bits "0110")) := by decide

theorem test_wnot : onY (.wnot 4 (word "1100") none y) = some (.word (bits "0011")) := by decide

theorem test_wnot_extra : reason (exec (.wnot 4 (word "1100") (word "1010") y) st) = some .extraOperand := by decide

/-- 6 + 3 with a carry-in. -/
theorem test_add_carry_in :
    on y (exec (.add 4 (word "0110") (word "0011") hi y z) st) = some (.word (bits "1010")) ∧
    on z (exec (.add 4 (word "0110") (word "0011") hi y z) st) = some (.bit .LOW) := by decide

/-- A wrap, with the carry-in omitted. -/
theorem test_add_wraps :
    on y (exec (.add 4 (word "1111") (word "0001") none y z) st) = some (.word (bits "0000")) ∧
    on z (exec (.add 4 (word "1111") (word "0001") none y z) st) = some (.bit .HIGH) := by decide

theorem test_wmux :
    onY (.wmux 4 (word "0011") (word "0101") lo y) = some (.word (bits "0011")) ∧
    onY (.wmux 4 (word "0011") (word "0101") hi y) = some (.word (bits "0101")) := by decide

theorem test_wmux_word_select :
    reason (exec (.wmux 4 (word "0011") (word "0101") (word "0101") y) st) = some .widthMismatch := by decide

theorem test_conv : onY (.conv 4 8 (word "1011") y) = some (.word (bits "00001011")) := by decide

theorem test_conv_narrowing : reason (exec (.conv 8 4 (word "00001011") y) st) = some .convNarrowing := by decide

/-- R9, R13: position 0 is the leftmost digit. -/
theorem test_bitQuery :
    [Instr.bitQuery 0 (wire "A") y, .bitQuery 1 (wire "A") y, .bitQuery 2 (wire "A") y, .bitQuery 3 (wire "A") y].map onY =
      column "1100" := by decide

/-- Section 2.10: position 4 of a word of four. -/
theorem test_bitQuery_outside : reason (exec (.bitQuery 4 (wire "A") y) st) = some .indexOutOfRange := by decide

/-! ### The ALU: sections 1.3 and 2.8 -/

theorem test_aluOr : onY (.aluOr 4 (word "0011") (word "0101") y) = some (.word (bits "0111")) := by decide

theorem test_aluAnd : onY (.aluAnd 4 (word "0011") (word "0101") y) = some (.word (bits "0001")) := by decide

theorem test_aluAdd : onY (.aluAdd 4 (word "0011") (word "0101") y) = some (.word (bits "1000")) := by decide

/-- 90_conflicts.md C1: the corrected literal. -/
theorem test_aluSub : onY (.aluSub 8 (word "00101101") (word "01010011") y) = some (.word (bits "11011010")) := by
  set_option maxRecDepth 4000 in decide

/-- A difference that borrows and one that does not. -/
theorem test_aluSub_borrow :
    onY (.aluSub 4 (word "1000") (word "0001") y) = some (.word (bits "0111")) ∧
    onY (.aluSub 4 (word "0000") (word "0001") y) = some (.word (bits "1111")) := by decide

/-- Section 2.8: the four reserved selects are refused. -/
theorem test_alu_reserved_refused :
    (reservedAluCells.map fun p => reason (exec (p.1 4 (word "0011") (word "0101") y) st)) =
      List.replicate 4 (some .reservedFunctionSelect) := by decide

/-- Section 2.8: and have the composition's value under `datapath`. -/
theorem test_alu_reserved_datapath :
    (reservedAluCells.map fun p => on y (exec (p.1 4 (word "0011") (word "0101") y) stDatapath)) =
      ["1000", "1011", "0010", "1110"].map fun d => some (.word (bits d)) := by decide

/-- Section 2.8, last row: widths are checked before the function-select. -/
theorem test_alu_width_first :
    reason (exec (.aluReserved011 4 (word "0011") (word "00101") y) st) = some .widthMismatch := by decide

/-! ### The universality table: section 2.9 -/

/-- The columns NOT, AND, OR, NOR, XOR, HA and FA sums and carries, MUX under a primitive. -/
def universality (g : Prim) : List Word :=
  let two : List (Bit × Bit) := [(.LOW, .LOW), (.LOW, .HIGH), (.HIGH, .LOW), (.HIGH, .HIGH)]
  let three : List (Bit × Bit × Bit) := two.flatMap fun p => [(p.1, p.2, .LOW), (p.1, p.2, .HIGH)]
  [[notGate g .LOW, notGate g .HIGH], two.map fun p => andGate g p.1 p.2, two.map fun p => orGate g p.1 p.2,
    two.map fun p => norGate g p.1 p.2, two.map fun p => xorGate g p.1 p.2, two.map fun p => (halfAdder g p.1 p.2).sum,
    two.map fun p => (halfAdder g p.1 p.2).carry, three.map fun p => (fullAdder g p.1 p.2.1 p.2.2).sum,
    three.map fun p => (fullAdder g p.1 p.2.1 p.2.2).carry, three.map fun p => muxGate g p.1 p.2.1 p.2.2]

/-- The row `NOR table`. -/
theorem test_universality_nor :
    universality (fun a b => boolNot (boolOr a b)) =
      ["10", "0111", "0001", "1110", "1001", "1001", "0111", "01101001", "00010111", "00100111"].map bits := by decide

/-- The row `¬a`, which tells the argument order inside XOR. -/
theorem test_universality_not_first :
    universality (fun a _ => boolNot a) =
      ["10", "0011", "0011", "1100", "1100", "1100", "0011", "00001111", "00001111", "00001111"].map bits := by decide

/-- The row `¬b`. -/
theorem test_universality_not_second :
    universality (fun _ b => boolNot b) =
      ["10", "0101", "0101", "1010", "0101", "0101", "0101", "01010101", "01010101", "01010101"].map bits := by decide

/-! ### Decoding -/

/-- R42, R43, R44: bit 2 of the number is `f0`. -/
theorem test_decode_selects :
    [0, 1, 2, 3, 4, 5, 6, 7].map (decodeTableWord 8) =
      [Instr.aluOr, .aluAdd, .aluAnd, .aluReserved011, .aluReserved100, .aluSub, .aluReserved110, .aluReserved111].map
        fun mk => some (mk 4 (some tableOperand) (some tableOperand) (some tableResult)) := by decide

theorem test_decode_select_too_big : decodeTableWord 8 8 = none := by decide

/-- A gate, from the syntax of R51. -/
theorem test_decode_gate : decode (ascii "y = XOR a, HIGH") = .ok (.xor (wire "a") hi y) := by rfl

/-- An adder block with its carry-in omitted (R53) and one result left open (log 10). -/
theorem test_decode_fa :
    decode (ascii "_, y = FA a, b[2]") = .ok (.fa (wire "a") (query "b" 2) none none y) := by rfl

/-- R52: digits are read position 0 first, at a port for a Word also when there is one alone (log 9). -/
theorem test_decode_words :
    decode (ascii "y = WAND<4> 1100, 1010") = .ok (.wand 4 (word "1100") (word "1010") y) ∧
    decode (ascii "y = WNOT<1> 1") = .ok (.wnot 1 (word "1") none y) := ⟨rfl, rfl⟩

/-- R52: a brace list. The bytes 123 and 125 are the braces. -/
theorem test_decode_brace_list :
    decode (ascii "y = WNOT<4> " ++ [123] ++ ascii "O,I,LOW,1" ++ [125]) = .ok (.wnot 4 (word "0101") none y) := by rfl

theorem test_decode_bitQuery : decode (ascii "y = W[i]<3> A") = .ok (.bitQuery 3 (wire "A") y) := by rfl

/-- R53: the ALU's names. -/
theorem test_decode_alu :
    decode (ascii "y = ALU.SUB<4> 0011, 0101") = decode (ascii "y = ALU<4> (HIGH,LOW,HIGH), 0011, 0101") ∧
    decode (ascii "y = ALU<4> (HIGH,LOW,HIGH), 0011, 0101") = .ok (.aluSub 4 (word "0011") (word "0101") y) := ⟨rfl, rfl⟩

/-- R67: a second operand of WNOT is an instance with an operand too many; a third is no line (log 12). -/
theorem test_decode_wnot_operands :
    decode (ascii "y = WNOT<4> 1100, 1010") = .ok (.wnot 4 (word "1100") (word "1010") y) ∧
    decode (ascii "y = WNOT<4> 1100, 1010, 1100") = .error .tooManyOperands := ⟨rfl, rfl⟩

theorem test_decode_errors :
    [decode (ascii "y NAND a, b"), decode (ascii "y = NAN a, b"), decode (ascii "y = WAND a, b"), decode (ascii "y = NOT a, b"),
      decode (ascii "HIGH = NOT a"), decode (ascii "y = ALU<4> F, A, B"), decode (ascii "# y = NOT a")].map
        (fun r => match r with | .error e => some e | .ok _ => none) =
      [some .noEquals, some .unknownMnemonic, some .wrongParameters, some .tooManyOperands, some .badName,
        some .selectNotLiteral, some .notAnInstance] := by rfl

/-- R54's example. -/
theorem test_renderWord : renderWord (bits "0101") = ascii "LOW HIGH LOW HIGH" := by decide

/-! ### Well-formedness: an ill-formed netlist for each of the nine reasons, sections 2.4 to 2.10 -/

theorem test_accepted : netlistReason "input a: bit\ny = NOT a\noutput y" = none := by decide

theorem test_zeroWidth : netlistReason "input A: word 4\ny = WOR<0> A, A" = some .zeroWidth := by decide

theorem test_unconnectedInput : netlistReason "input a: bit\ny = NAND a\noutput y" = some .unconnectedInput := by decide

theorem test_extraOperand : netlistReason "y = WNOT<4> 1100, 1010" = some .extraOperand := by decide

theorem test_widthMismatch : netlistReason "y = WAND<4> 01100, 01010" = some .widthMismatch := by decide

theorem test_convNarrowing : netlistReason "y = CONV<4,3> 1011" = some .convNarrowing := by decide

theorem test_indexOutOfRange : netlistReason "input A: word 4\nb = NOT A[4]\noutput b" = some .indexOutOfRange := by decide

theorem test_reservedFunctionSelect :
    netlistReason "y = ALU<4> (LOW,HIGH,HIGH), 0011, 0101" = some .reservedFunctionSelect := by decide

/-- The driver is reported before the cycle (R101). -/
theorem test_multipleDrivers :
    netlistReason "input a: bit\ny = NOT a\ny = NOT y\noutput y" = some .multipleDrivers := by decide

/-- The latch. -/
theorem test_combinationalCycle :
    netlistReason "input a: bit\np = NAND a, q\nq = NAND a, p\noutput q" = some .combinationalCycle := by decide

/-! ### Steps: program P6 and what runs first -/

/-- Program P6 with a value on `F`, p = 0011, q = 0101. -/
def p6 (f : String) : State :=
  State.reset.present (netlist "input  F: word 3\ninput  p: word 4\ninput  q: word 4\nr = ALU<4> F, p, q\noutput r")
    [(ascii "F", .word (bits f)), (ascii "p", .word (bits "0011")), (ascii "q", .word (bits "0101"))]

theorem test_p6 :
    ["000", "010", "001", "101"].map (fun f => on (some (ascii "r")) (step (p6 f))) =
      ["0111", "0001", "1000", "1110"].map fun d => some (.word (bits d)) := by decide

theorem test_p6_reserved : reason (step (p6 "011")) = some .reservedFunctionSelect := by decide

/-- The word of ALU.SUB laid before the core is what the next step runs: 0 - 0. -/
theorem test_withFetchWord :
    on (some tableResult) (step (State.reset.withFetchWord 8 5)) = some (.word (bits "0000")) := by decide

/-- An input that carries nothing, and one that carries another type than its own (D3). -/
theorem test_inputs_checked :
    reason (step (State.reset.present (netlist "input a: bit\ny = NOT a") [])) = some .unconnectedInput ∧
    reason (step (State.reset.present (netlist "input a: bit\ny = NOT a") [(ascii "a", .word [.LOW])])) =
      some .widthMismatch := by decide

/-! ### Witnesses: the hypotheses of the statements can be met, clause by clause

Each is named after the statement in Certificates/Slice0/Obligations.lean it belongs to. -/

/-- Positions 0 and 3 of a word of four, and -1 and 4 just outside it. -/
theorem witness_BitQueryReadsOnePosition :
    st.anyWordOf (wire "A") = some (bits "1100") ∧ (bits "1100")[0]? = some .HIGH ∧ (bits "1100")[3]? = some .LOW ∧
    (-1 : Int) < 0 ∧ ((bits "1100").length : Int) ≤ 4 := by decide

theorem witness_QueryOperandReadsOnePosition :
    wiresGet st.wires (ascii "A") = some (.word (bits "1100")) ∧ (bits "1100")[0]? = some .HIGH ∧
    (bits "1100")[3]? = some .LOW ∧ bits "1100" ≠ [] ∧ (-1 : Int) < 0 ∧ ((bits "1100").length : Int) ≤ 4 := by decide

/-- For the statements about gates, adder blocks and the bit multiplexer: wires, literals, a position and an omitted carry-in. -/
theorem witness_bits :
    st.bitOf (wire "a") = some .HIGH ∧ st.bitOf (wire "b") = some .LOW ∧ st.bitOf hi = some .HIGH ∧
    st.bitOf lo = some .LOW ∧ st.bitOf (query "A" 3) = some .LOW ∧ st.carryOf none = some .LOW ∧
    st.carryOf hi = some .HIGH := by decide

/-- For the statements about word cells and the ALU: two words of width 4, one of width 1, and the widths and words that are
refused. -/
theorem witness_words :
    st.wordOf 4 (wire "A") = some (bits "1100") ∧ st.wordOf 4 (wire "B") = some (bits "1010") ∧
    st.wordOf 1 (word "1") = some (bits "1") ∧ st.anyWordOf (wire "C") = some (bits "101") ∧
    ((bits "101").length : Int) ≠ 4 ∧ ((bits "1100").length : Int) ≠ 1 ∧ (0 : Int) ≤ 0 ∧ (-1 : Int) ≤ 0 := by decide

/-- A word on a port for a Bit, a Bit and a word of another width on a port for a Word, and a position of a Bit on either. -/
theorem witness_WidthMismatchIsRefused :
    (st.Carries (wire "A") ∧ st.bitOf (wire "A") = none ∧ st.wordOf 3 (wire "A") = none ∧ st.wordOf 5 (wire "A") = none) ∧
    (st.Carries (wire "a") ∧ st.anyWordOf (wire "a") = none ∧ st.wordOf 4 (wire "a") = none) ∧
    (st.Carries (query "a" 0) ∧ st.bitOf (query "a" 0) = none ∧ st.wordOf 1 (query "a" 0) = none) :=
  ⟨⟨Or.inr (Or.inl ⟨_, rfl⟩), rfl, rfl, rfl⟩, ⟨Or.inl ⟨_, rfl⟩, rfl, rfl⟩, ⟨Or.inr (Or.inr ⟨_, _, _, rfl, rfl⟩), rfl, rfl⟩⟩

/-- Equal operands, and operands all `LOW` and all `HIGH`. -/
theorem witness_cornerWords :
    st.wordOf 4 (word "0000") = some (Word.lows 4) ∧ st.wordOf 4 (word "1111") = some (Word.highs 4) ∧
    st.wordOf 4 (word "0001") = some (Word.ofVal 4 1) ∧ Word.val (bits "1010") < Word.val (bits "1100") ∧
    bits "1100" ≠ [] := by decide

theorem witness_WordCellsSplitAtAnyPosition :
    (bits "11").length = (bits "10").length ∧ (bits "001").length = (bits "101").length := by decide

/-- CONV: to a wider word, to the same width, to a narrower one, and from a word that is not of the source width. -/
theorem witness_ConvZeroExtends :
    st.wordOf 4 (wire "A") = some (bits "1100") ∧ (4 : Int) ≤ 8 ∧ (4 : Int) ≤ 4 ∧ (0 : Int) < 3 ∧ (3 : Int) < 4 ∧
    st.anyWordOf (wire "C") = some (bits "101") ∧ ((bits "101").length : Int) ≠ 4 ∧ (bits "1100").length ≤ 4 := by decide

theorem witness_AluIsItsComposition :
    (bits "1100").length = (bits "1010").length ∧ selectDefined ⟨.HIGH, .LOW, .HIGH⟩ = true ∧
    selectDefined ⟨.LOW, .HIGH, .HIGH⟩ = false := by decide

theorem witness_ReservedSelectIsRefusedUnlessThePolicyAdmitsIt :
    st.params.reservedF = .refuse ∧ stDatapath.params.reservedF = .datapath ∧
    stDatapath.wordOf 4 (wire "A") = some (bits "1100") ∧ stDatapath.wordOf 4 (wire "B") = some (bits "1010") ∧
    st.wordOf 3 (wire "F") = some (FunctionSelect.toWord ⟨.LOW, .HIGH, .HIGH⟩) := by decide

/-- Words that agree from position 2 on and differ before it. -/
theorem witness_AluResultDependsOnNoMoreSignificantPosition :
    (bits "1100").drop 2 = (bits "0000").drop 2 ∧ (bits "1100")[2]? = (bits "0000")[2]? ∧ bits "1100" ≠ bits "0000" := by
  decide

/-- A defined select and a reserved one, each on a wire. -/
theorem witness_AluReadsItsSelectAtEachEvaluation :
    st.wordOf 3 (wire "C") = some [.HIGH, .LOW, .HIGH] ∧ selectDefined ⟨.HIGH, .LOW, .HIGH⟩ = true ∧
    st.wordOf 3 (wire "F") = some [.LOW, .HIGH, .HIGH] ∧ selectDefined ⟨.LOW, .HIGH, .HIGH⟩ = false ∧
    st.params.reservedF = .refuse ∧ stDatapath.params.reservedF = .datapath ∧
    st.wordOf 4 (wire "A") = some (bits "1100") := by decide

theorem witness_ZeroWidthIsRefused :
    (∃ D ∈ (instrContract (.wor 0 (wire "A") (wire "A") y)).widths, D ≤ 0) ∧
    ∃ D ∈ (instrContract (.conv 4 (-1) (wire "A") y)).widths, D ≤ 0 := by decide

/-- An open port, and a port on a wire that nothing has driven. -/
theorem witness_UnconnectedInputIsRefused :
    Port.bitIn none ∈ (instrContract (.nand (wire "a") none y)).ports ∧ (Port.bitIn none).omissible = false ∧
    Port.bitIn (wire "q") ∈ (instrContract (.nand (wire "a") (wire "q") y)).ports ∧ ascii "q" ∉ st.known ∧
    (∀ i ∈ [Instr.nand (wire "a") none y, .nand (wire "a") (wire "q") y],
      ∀ a ∈ (instrContract i).ports.map Port.arg, argZeroWidth st.tyOf a = false) ∧
    Port.carryIn none ∈ (instrContract (.fa hi lo none y z)).ports ∧ (Port.carryIn none).omissible = true := by decide

/-- The seven checks of R101 as the statement words them. -/
def failing (i : Instr) (s : State) : List Bool :=
  let c := instrContract i
  [decide ((∃ D ∈ c.widths, D ≤ 0) ∨ (∃ p ∈ c.ports, argZeroWidth s.tyOf p.arg = true) ∨
      argZeroWidth s.tyOf c.extra = true),
    decide (∃ p ∈ c.ports, portUnconnected s.tyOf p = true), decide (c.extra ≠ none),
    decide (∃ p ∈ c.ports, portMismatch s.tyOf p = true), convNarrows c.convert,
    decide ((∃ p ∈ c.ports, portOutOfRange s.tyOf p = true) ∨ queryOutOfRange s.tyOf c = true),
    decide (c.reserved = true ∧ s.params.reservedF = .refuse)]

/-- For each check an operation that fails it and none before it, most of them failing a later one too; and one that fails none. -/
theorem witness_ChecksRunInTheFixedOrder :
    [Instr.wor 0 none none y, .wor 4 none (wire "C") y, .wnot 4 (wire "C") (wire "A") y, .conv 4 3 (wire "C") y,
      .conv 4 3 (wire "A") y, .not (query "A" 4) y, .aluReserved011 4 (wire "A") (wire "B") y,
      .aluAdd 4 (wire "A") (wire "B") y].map (fun i => failing i st) =
    [[true, true, false, false, false, false, false], [false, true, false, true, false, false, false],
      [false, false, true, true, false, false, false], [false, false, false, true, true, false, false],
      [false, false, false, false, true, false, false], [false, false, false, false, false, true, false],
      [false, false, false, false, false, false, true], [false, false, false, false, false, false, false]] := by decide

/-- A refused netlist and an accepted one; the drivers and the order of the accepted one. -/
theorem witness_NetlistIsAcceptedIffWellFormed :
    netlistReason "input a: bit\np = NAND a, q\nq = NAND a, p" = some .combinationalCycle ∧
    netlistReason "input a: bit\nz = NOT y\ny = NOT a\noutput z" = none := by decide

/-- A state that a refused netlist is laid in. -/
theorem witness_RefusedNetlistIsNeverEvaluated :
    ∃ e, netlistCheck State.reset.params.reservedF (netlist "a = NOT a") = some e := ⟨_, rfl⟩

theorem witness_OperationWritesNothingButItsOutputs :
    ∃ t, exec (.ha (wire "a") (wire "b") y none) st = .next t := ⟨_, rfl⟩

/-- Two states that differ on a wire the operation does not read. -/
theorem witness_OperationReadsNothingButItsInputs :
    st.params = (st.drive [some (ascii "A")] [.bit .LOW]).params ∧
    (∀ n ∈ instReads (.cell (.nand (wire "a") (wire "b") y)),
      wiresGet st.wires n = wiresGet (st.drive [some (ascii "A")] [.bit .LOW]).wires n) ∧
    st ≠ st.drive [some (ascii "A")] [.bit .LOW] := by decide

/-- An operation of width zero left to evaluate. No proper state has one. -/
def zeroWide : State := st.withPending [.cell (.wor 0 (wire "A") (wire "A") y)]

/-- An operation that completes, one that is refused, an ALU that is no operation yet, each the next one; and none left. -/
theorem witness_StepRunsTheNextInstance :
    ((p6 "001").violation = none ∧
      ∃ x rest i t, (p6 "001").nextInst = some (x, rest) ∧ (p6 "001").select x = .ok i ∧ exec i (p6 "001") = .next t) ∧
    (zeroWide.violation = none ∧ ∃ x rest i e,
      zeroWide.nextInst = some (x, rest) ∧ zeroWide.select x = .ok i ∧ exec i zeroWide = .refused e) ∧
    ((p6 "011").violation = none ∧
      ∃ x rest site r, (p6 "011").nextInst = some (x, rest) ∧ (p6 "011").select x = .error (site, r)) ∧
    State.reset.violation = none ∧ State.reset.pending = [] :=
  ⟨⟨by decide, _, _, _, _, rfl, rfl, rfl⟩, ⟨by decide, _, _, _, _, rfl, rfl, rfl⟩, ⟨by decide, _, _, _, _, rfl, rfl⟩,
    by decide, by decide⟩

theorem witness_StepRunsTheDecodedSelect :
    (∃ i t, decodeTableWord 8 1 = some i ∧ exec i (State.reset.withFetchWord 8 1) = .next t) ∧
    ∃ i e, decodeTableWord 8 3 = some i ∧ exec i (State.reset.withFetchWord 8 3) = .refused e :=
  ⟨⟨_, _, rfl, rfl⟩, ⟨_, _, rfl, rfl⟩⟩

/-- Two inverters in a row, written in the wrong order. -/
def inverters : Netlist := netlist "input a: bit\nz = NOT y\ny = NOT a\noutput z"

/-- The offered value of their input. -/
def offered : List (Name × Value) := [(ascii "a", .bit .HIGH)]

/-- One ALU of width 4 with a literal function-select still on its port `F`, on two literal words. -/
def literalAlu (f : String) : Netlist :=
  { inputs := [], insts := [.alu 4 (word f) (word "0011") (word "0101") y], outputs := [ascii "y"] }

/-- For PresentGivesAProperState and EvaluationEnds: a composition without an ALU, one whose ALU has a literal, and one whose ALU
is read from a wire, a reserved value under `datapath`. -/
theorem witness_EvaluationEnds :
    (netlistCheck State.reset.params.reservedF inverters = none ∧ (State.reset.present inverters offered).inputFault = none) ∧
    (netlistCheck State.reset.params.reservedF (literalAlu "001") = none ∧
      (State.reset.present (literalAlu "001") []).inputFault = none ∧
      ∀ D f op1 op2 r, Inst.alu D f op1 op2 r ∈ (literalAlu "001").insts → ∃ v : Value, f = some (.lit v)) ∧
    (stDatapath.params.reservedF = .datapath ∧ netlistCheck .datapath (p6 "011").netlist = none ∧
      (stDatapath.present (p6 "011").netlist (p6 "011").wires).inputFault = none) :=
  ⟨⟨by decide, by decide⟩, ⟨by decide, by decide, fun D f op1 op2 r h => by simp [literalAlu, word] at h; exact ⟨_, h.2.1⟩⟩,
    ⟨by decide, by decide, by decide⟩⟩

/-- An input with no value, and one with a value of another type. -/
theorem witness_UndrivenInputIsRefused :
    netlistCheck State.reset.params.reservedF inverters = none ∧ (ascii "a", Ty.bit) ∈ inverters.inputs ∧
    (State.reset.present inverters []).tyOf (ascii "a") ≠ some .bit ∧
    (State.reset.present inverters [(ascii "a", .word [.LOW])]).tyOf (ascii "a") ≠ some .bit := by decide

theorem witness_DecodeOfEncodeIsTheInstruction :
    (Instr.fa (wire "a") (query "A" (-12)) none none z).Spellable = true ∧
    (Instr.aluReserved111 16 (wire "A") (word "0101") y).Spellable = true ∧
    (Instr.wnot 4 (wire "A") (word "1") y).Spellable = true ∧ (Instr.conv 4 (-8) (word "") y).Spellable = true ∧
    (Instr.bitQuery 3 (wire "A") y).Spellable = true := by decide

theorem witness_LineOfEncodedInstIsTheInst :
    (Inst.alu 4 (wire "F") (wire "A") (wire "B") y).Spellable = true ∧
    (Inst.alu 4 (word "0101") (wire "A") none y).Spellable = true ∧ (Inst.cell (.nand hi lo y)).Spellable = true := by decide

/-! ### Proper states -/

theorem mem_of_wiresGet {ws : Wires} {n : Name} {v : Value} (h : wiresGet ws n = some v) : (n, v) ∈ ws := by
  induction ws with
  | nil => cases h
  | cons d ws ih =>
    obtain ⟨m, u⟩ := d
    unfold wiresGet at h
    split at h
    · next e => cases h; subst e; exact List.mem_cons_self
    · exact List.mem_cons_of_mem _ (ih h)

/-- A proper state, from checks over its lists; `done` are the instances it has evaluated. -/
theorem proper_of_checks {s : State} (done : List Inst)
    (hdone : s.netlist.insts.filter (fun x => decide (x ∉ s.pending)) = done)
    (hshape : wiresWf s.wires = true ∧ s.violation = none ∧ s.pending.isSublist s.netlist.insts = true ∧
      neverReady s.pending.length s.known s.pending = [])
    (hvalued : (∀ n ∈ s.known, n ∈ s.netlist.inputs.map Prod.fst ++ done.flatMap instDrives) ∧
      ∀ n ∈ s.netlist.inputs.map Prod.fst ++ done.flatMap instDrives, n ∈ s.known)
    (htyped : ∀ d ∈ s.wires, netlistTy s.netlist d.1 = some d.2.ty) (hheld : ∀ x ∈ done, s.Holds x) : s.Proper := by
  have hev : ∀ x, s.Evaluated x ↔ x ∈ done := by
    intro x; rw [← hdone]; simp [State.Evaluated]
  refine ⟨hshape.1, hshape.2.1, List.isSublist_iff_sublist.mp hshape.2.2.1, ?_, ?_, ?_, hshape.2.2.2⟩
  · intro n
    have : n ∈ s.netlist.inputs.map Prod.fst ++ done.flatMap instDrives ↔
        n ∈ s.netlist.inputs.map Prod.fst ∨ ∃ x, s.Evaluated x ∧ n ∈ instDrives x := by
      simp only [List.mem_append, List.mem_flatMap, hev]
    rw [← this]
    exact ⟨hvalued.1 n, hvalued.2 n⟩
  · intro n v h; exact htyped _ (mem_of_wiresGet h)
  · intro x hx; exact hheld x ((hev x).mp hx)

/-- The inverters after one step: `y` has its value and `z` has none yet. -/
def halfway : State :=
  { params := Config.params, netlist := inverters, pending := [.cell (.not (wire "y") z)]
    wires := [(ascii "a", .bit .HIGH), (ascii "y", .bit .LOW)] }

/-- For StepKeepsTheStateProper and ProperStateNeverFails. -/
theorem witness_ProperStateNeverFails : halfway.Proper ∧ halfway.SelectsDefined ∧ ∃ t, step halfway = .next t := by
  refine ⟨proper_of_checks [.cell (.not (wire "a") y)] (by decide) (by decide) (by decide) (by decide) ?_, ?_, ⟨_, rfl⟩⟩
  · simp only [List.mem_singleton, forall_eq]; rfl
  · exact Or.inr fun D f op1 op2 r sel h => by simp [halfway] at h

/-- P6 with a reserved select. -/
theorem witness_OnlyAReservedSelectStopsAProperState : (p6 "011").Proper ∧ ∃ e, step (p6 "011") = .refused e :=
  ⟨proper_of_checks [] (by decide) (by decide) (by decide) (by decide) (by simp), ⟨_, rfl⟩⟩

/-- The inverters at the end of an evaluation. -/
def ended : State :=
  { halfway with pending := [], wires := [(ascii "a", .bit .HIGH), (ascii "y", .bit .LOW), (ascii "z", .bit .HIGH)] }

theorem witness_ResultIsUnique : ended.Proper ∧ ended.Over := by
  refine ⟨proper_of_checks [.cell (.not (wire "y") z), .cell (.not (wire "a") y)] (by decide) (by decide) (by decide)
    (by decide) ?_, rfl⟩
  intro x hx
  simp only [List.mem_cons, List.not_mem_nil, or_false] at hx
  rcases hx with rfl | rfl <;> rfl

/-- Two inverters side by side, neither evaluated. -/
def sideBySide : State := State.reset.present (netlist "input a: bit\ny = NOT a\nz = NOT a") offered

theorem witness_OrderOfIndependentInstancesIsUnobservable :
    sideBySide.Proper ∧ Inst.cell (.not (wire "a") y) ∈ sideBySide.pending ∧
    Inst.cell (.not (wire "a") z) ∈ sideBySide.pending ∧ Inst.cell (.not (wire "a") y) ≠ .cell (.not (wire "a") z) ∧
    instReady sideBySide.known (.cell (.not (wire "a") y)) = true ∧
    instReady sideBySide.known (.cell (.not (wire "a") z)) = true ∧
    ∃ s1 s2, evalInst (.cell (.not (wire "a") y)) sideBySide = .next s1 ∧
      evalInst (.cell (.not (wire "a") z)) s1 = .next s2 :=
  ⟨proper_of_checks [] (by decide) (by decide) (by decide) (by decide) (by simp), by decide, by decide, by decide,
    by decide, by decide, ⟨_, _, rfl, rfl⟩⟩

/-- The latch, with an instance downstream of it that stands before it. -/
def latch : Netlist := netlist "input a: bit\nz = NOT p\np = NAND a, q\nq = NAND a, p"

/-- R94: the instance that is named stands on the cycle; `z` never gets its operand either, and does not. -/
theorem test_cycle_names_an_instance_on_it :
    netlistCheck .refuse latch = some (.inst (.cell (.nand (wire "a") (wire "q") (some (ascii "p")))), .combinationalCycle) := by
  decide

theorem witness_CycleRefusalNamesAnInstanceOnACycle :
    ∃ site, netlistCheck .refuse latch = some (site, .combinationalCycle) := ⟨_, rfl⟩

/-- R44, R99: an ALU with a literal on `F` is refused when it is defined for a reserved value, and accepted for a defined one. -/
theorem test_reserved_literal_on_F :
    (netlistCheck .refuse (literalAlu "011")).map Prod.snd = some .reservedFunctionSelect ∧
    netlistCheck .datapath (literalAlu "011") = none ∧ netlistCheck .refuse (literalAlu "101") = none := by decide

theorem witness_ReservedLiteralIsRefusedAtDefinition :
    selectDefined ⟨.LOW, .HIGH, .HIGH⟩ = false ∧ bits "0011" ≠ [] ∧ ((bits "0011").length : Int) = 4 ∧
    ((bits "0101").length : Int) = 4 := by decide

end Sys2Proof.Tests
end

section
/-! The two readings of a word, `Word.val` and `Word.ofVal`, as inverse functions (spec/00_scope.md R10), and the bit-position
query as an operation (R13). -/

namespace Sys2Proof.Machine

open Sys2Proof

/-! ### `val` and `word_D` -/

/-- The digit `Word.ofVal` writes at a position counts as that binary digit (R7). -/
theorem digit_toNat (n : Nat) : (if n % 2 = 1 then Bit.HIGH else Bit.LOW).toNat = n % 2 := by
  rcases Nat.mod_two_eq_zero_or_one n with h | h <;> simp [h, Bit.toNat]

theorem val_eq_sum (W : Word) :
    Word.val W = ∑ i ∈ Finset.range W.length, (W.getD i .LOW).toNat * 2 ^ (W.length - 1 - i) := by
  induction W with
  | nil => rfl
  | cons b W ih =>
    rw [Word.val, ih, List.length_cons, Finset.sum_range_succ', Nat.add_comm]
    simp [Nat.sub_sub, Nat.add_comm]

theorem val_lt (W : Word) : Word.val W < 2 ^ W.length := by
  induction W with
  | nil => simp [Word.val]
  | cons b W ih =>
    rw [List.length_cons, pow_succ]
    cases b <;> simp only [Word.val, Bit.toNat] <;> omega

/-- Words of one width with one value are the same: the leading bit is the value's quotient by its weight, the rest the
remainder. -/
theorem val_injective {V W : Word} (hl : V.length = W.length) (hv : Word.val V = Word.val W) : V = W := by
  induction V generalizing W with
  | nil => exact (List.length_eq_zero_iff.mp hl.symm).symm
  | cons a V ih =>
    cases W with
    | nil => simp at hl
    | cons b W =>
      have hVW : V.length = W.length := by simpa using hl
      have hV := val_lt V
      have hW := val_lt W
      simp only [Word.val, hVW] at hv hV
      have hab : a = b := by cases a <;> cases b <;> simp [Bit.toNat] at hv ⊢ <;> omega
      subst hab
      rw [ih hVW (Nat.add_left_cancel hv)]

@[simp] theorem val_ofVal (D n : Nat) : Word.val (Word.ofVal D n) = n % 2 ^ D := by
  induction D with
  | zero => simp [Word.ofVal, Word.val, Nat.mod_one]
  | succ D ih => rw [Word.ofVal, Word.val, digit_toNat, ofVal_length, ih, Nat.mod_pow_succ]; ring

@[simp] theorem ofVal_val (W : Word) : Word.ofVal W.length (Word.val W) = W :=
  val_injective (ofVal_length _ _) (by rw [val_ofVal, Nat.mod_eq_of_lt (val_lt W)])

/-! ### The bit-position query -/

@[simp] theorem bitAt_natCast (W : Word) (k : Nat) : bitAt W k = W[k]? := by simp [bitAt]

/-- A bit-position query at a position of its word drives the bit there. -/
theorem exec_bitQuery_of_bitAt {s : State} {i : Int} {a : Option Operand} {W : Word} {b : Bit} (y : Option Name)
    (ha : s.anyWordOf a = some W) (hb : bitAt W i = some b) :
    exec (.bitQuery i a y) s = .next (s.drive [y] [.bit b]) :=
  exec_of_values (by simp [instrValues, ha, hb]) ⟨rfl, rfl, nofun⟩

/-- On a word, the only check of a bit-position query that can fail is the one of its position (R97, R101). -/
theorem contractCheck_bitQuery_outside {s : State} {i : Int} {a : Option Operand} {W : Word} (pol : ReservedFPolicy)
    (y : Option Name) (ha : s.anyWordOf a = some W) (hi : i < 0 ∨ (W.length : Int) ≤ i) :
    contractCheck pol s.tyOf (instrContract (.bitQuery i a y)) = some .indexOutOfRange := by
  obtain ⟨hzero, hconn, htype, -⟩ := (portOk_anyWord_iff s a).mpr ⟨W, ha⟩
  have hout : queryOutOfRange s.tyOf (instrContract (.bitQuery i a y)) = true := by
    simp [queryOutOfRange, instrContract, Contract.plain, operandBase_of_anyWordOf ha, positionOutside, hi]
  have hextra : argZeroWidth s.tyOf none = false := rfl
  simp only [instrContract, Contract.plain] at hout
  simp [contractCheck, contractViolations, instrContract, Contract.plain, convNarrows, hzero, hconn, htype, hout, hextra]

end Sys2Proof.Machine

open Sys2Proof.Machine

/-- Settles O1: the sum by induction on the word, and the inverse laws from the injectivity of `val` on words of one width. -/
theorem valIsABijection : Obligations.ValIsABijection :=
  ⟨val_eq_sum, fun W => ⟨val_lt W, ofVal_val W⟩, fun D n => ⟨ofVal_length D n, val_ofVal D n⟩⟩

/-- Settles O2: inside the word the query's inputs can be read, outside it the check of its position is the one that fails. -/
theorem bitQueryReadsOnePosition : Obligations.BitQueryReadsOnePosition := by
  unfold Obligations.BitQueryReadsOnePosition
  intro s i a y W ha
  constructor
  · rintro k b rfl hb
    exact exec_bitQuery_of_bitAt y ha (by rw [bitAt_natCast, hb])
  · exact fun hi => exec_of_violation (contractCheck_bitQuery_outside _ y ha hi)

end

section
/-! What an operation reads and what it writes (spec/10_state.md R22, R25 to R27): the values of its outputs have the types of its
ports, they are driven whatever was on those wires before, and they depend on nothing but the operation's inputs. -/

namespace Sys2Proof.Machine

open Sys2Proof

/-! ### Driving output ports -/

/-- A wire among the driven output ports gets one of the offered values, whatever the wires held before. -/
theorem wiresGet_drive_mem {ns : List (Option Name)} {vs : List Value} {n : Name} (hl : ns.length = vs.length)
    (hn : some n ∈ ns) : ∃ v, (some n, v) ∈ ns.zip vs ∧ ∀ ws, wiresGet (wiresDrive ws ns vs) n = some v := by
  induction ns generalizing vs with
  | nil => simp at hn
  | cons o ns ih =>
    cases vs with
    | nil => simp at hl
    | cons u vs =>
      by_cases hlater : some n ∈ ns
      · obtain ⟨v, hv, hget⟩ := ih (by simpa using hl) hlater
        refine ⟨v, List.mem_cons_of_mem _ hv, fun ws => ?_⟩
        cases o <;> exact hget _
      · have ho : o = some n := by simpa [hlater, eq_comm] using hn
        subst ho
        exact ⟨u, List.mem_cons_self, fun ws => by rw [wiresDrive, wiresGet_drive_other _ _ _ hlater, wiresGet_set_self]⟩

/-! ### The types of an operation's values -/

/-- A function of two words of width `D` that keeps the width gives a word of width `D`. -/
theorem wordResult_ty {s : State} {D : Int} {a b : Option Operand} {f : Word → Word → Word} {vs : List Value}
    (hf : ∀ A B, (f A B).length = min A.length B.length)
    (hv : ((s.wordOf D a).bind fun A => (s.wordOf D b).bind fun B => some [.word (f A B)]) = some vs) :
    vs.map Value.ty = [.word D] := by
  simp only [Option.bind_eq_some_iff, Option.some.injEq] at hv
  obtain ⟨A, hA, B, hB, rfl⟩ := hv
  have hlA := wordOf_length hA
  have hlB := wordOf_length hB
  simp [Value.ty, hf]; omega

/-- The values an operation gives its outputs have the types of its output ports; for CONV this needs its target to be no narrower
than its source (R96). -/
theorem instrValues_ty {s : State} {i : Instr} {vs : List Value} (hv : instrValues s i = some vs)
    (hc : convNarrows (instrContract i).convert = false) : vs.map Value.ty = (instrPorts i).map Prod.snd := by
  cases i
  case wnand D a b r | wand D a b r | wor D a b r | wnor D a b r | wxor D a b r =>
    exact wordResult_ty (lift2_length _) hv
  case aluOr D a b r | aluAdd D a b r | aluAnd D a b r | aluSub D a b r | aluReserved011 D a b r
      | aluReserved100 D a b r | aluReserved110 D a b r | aluReserved111 D a b r =>
    exact wordResult_ty (aluDatapath_length _ _ _) hv
  all_goals simp only [instrValues, Option.bind_eq_bind, Option.bind_eq_some_iff, Option.some.injEq] at hv
  case wnot D a extra r =>
    obtain ⟨A, hA, rfl⟩ := hv
    simp [Value.ty, instrPorts, wordOf_length hA]
  case conv M D a r =>
    obtain ⟨A, hA, rfl⟩ := hv
    have hM := wordOf_length hA
    have hMD : M ≤ D := by simpa [instrContract, convNarrows] using hc
    have hl : (zeroExtend D.toNat A).length = D.toNat := zeroExtend_length (by omega)
    simp [Value.ty, instrPorts, hl]; omega
  case add D a b cin sum cout =>
    obtain ⟨A, hA, B, hB, k, -, rfl⟩ := hv
    have hlA := wordOf_length hA
    have hlB := wordOf_length hB
    simp [Value.ty, instrPorts]; omega
  case wmux D a b sel r =>
    obtain ⟨A, hA, B, hB, k, -, rfl⟩ := hv
    have hlA := wordOf_length hA
    have hlB := wordOf_length hB
    simp [Value.ty, instrPorts]; omega
  case not a y => obtain ⟨x, -, rfl⟩ := hv; rfl
  case fa | mux => obtain ⟨x, -, z, -, k, -, rfl⟩ := hv; rfl
  all_goals obtain ⟨x, -, z, -, rfl⟩ := hv; rfl

/-! ### Operands that read alike -/

theorem read_congr {s t : State} {o : Operand} (h : ∀ n, operandWire o = some n → wiresGet s.wires n = wiresGet t.wires n) :
    s.read o = t.read o := by
  cases o with
  | wire n => exact h n rfl
  | query n i => simp only [State.read, h n rfl]
  | lit v => rfl

theorem bitOf_congr {s t : State} {a : Option Operand} (h : a.bind s.read = a.bind t.read) : s.bitOf a = t.bitOf a := by
  simp only [State.bitOf, h]

theorem carryOf_congr {s t : State} {a : Option Operand} (h : a.bind s.read = a.bind t.read) :
    s.carryOf a = t.carryOf a := by
  cases a with
  | none => rfl
  | some o => exact bitOf_congr h

theorem anyWordOf_congr {s t : State} {a : Option Operand} (h : a.bind s.read = a.bind t.read) :
    s.anyWordOf a = t.anyWordOf a := by
  simp only [State.anyWordOf, h]

theorem wordOf_congr {s t : State} {D : Int} {a : Option Operand} (h : a.bind s.read = a.bind t.read) :
    s.wordOf D a = t.wordOf D a := by
  simp only [State.wordOf, anyWordOf_congr h]

/-- An operation's values depend on nothing but what its input ports read, and the machine's parameters. -/
theorem instrValues_congr {s t : State} {i : Instr} (hp : s.params = t.params)
    (h : ∀ p ∈ (instrContract i).ports, p.arg.bind s.read = p.arg.bind t.read) : instrValues s i = instrValues t i := by
  cases i <;>
    simp only [instrContract, Contract.plain, Contract.alu, Port.bitIn, Port.carryIn, Port.wordIn, List.mem_cons,
      List.not_mem_nil, or_false, forall_eq_or_imp, forall_eq] at h
  case not => simp only [instrValues, bitOf_congr h]
  case bitQuery => simp only [instrValues, anyWordOf_congr h]
  case wnot | conv => simp only [instrValues, wordOf_congr h]
  case nand | and | or | nor | xor | ha =>
    obtain ⟨ha, hb⟩ := h
    simp only [instrValues, bitOf_congr ha, bitOf_congr hb]
  case fa =>
    obtain ⟨ha, hb, hc⟩ := h
    simp only [instrValues, bitOf_congr ha, bitOf_congr hb, carryOf_congr hc]
  case mux =>
    obtain ⟨ha, hb, hsel⟩ := h
    simp only [instrValues, bitOf_congr ha, bitOf_congr hb, bitOf_congr hsel]
  case add =>
    obtain ⟨ha, hb, hcin⟩ := h
    simp only [instrValues, wordOf_congr ha, wordOf_congr hb, carryOf_congr hcin]
  case wmux =>
    obtain ⟨ha, hb, hsel⟩ := h
    simp only [instrValues, wordOf_congr ha, wordOf_congr hb, bitOf_congr hsel]
  all_goals
    obtain ⟨ha, hb⟩ := h
    simp only [instrValues, State.aluValue, wordOf_congr ha, wordOf_congr hb, hp]

/-! ### Contracts that are checked alike -/

/-- Two assignments of types agree on what a port or an extra operand is connected to. -/
def TypedAlike (tyOf tyOf' : Name → Option Ty) (a : Option Operand) : Prop :=
  ∀ n, a.bind operandWire = some n → tyOf n = tyOf' n

theorem operandBase_congr {tyOf tyOf' : Name → Option Ty} {o : Operand} (h : TypedAlike tyOf tyOf' (some o)) :
    operandBase tyOf o = operandBase tyOf' o := by
  cases o with
  | wire n => exact h n rfl
  | query n i => exact h n rfl
  | lit v => rfl

theorem argZeroWidth_congr {tyOf tyOf' : Name → Option Ty} {a : Option Operand} (h : TypedAlike tyOf tyOf' a) :
    argZeroWidth tyOf a = argZeroWidth tyOf' a := by
  cases a with
  | none => rfl
  | some o => simp only [argZeroWidth, operandBase_congr h]

theorem portUnconnected_congr {tyOf tyOf' : Name → Option Ty} {p : Port} (h : TypedAlike tyOf tyOf' p.arg) :
    portUnconnected tyOf p = portUnconnected tyOf' p := by
  obtain ⟨a, ty, om⟩ := p
  cases a with
  | none => rfl
  | some o => simp only [portUnconnected, operandBase_congr h]

theorem portMismatch_congr {tyOf tyOf' : Name → Option Ty} {p : Port} (h : TypedAlike tyOf tyOf' p.arg) :
    portMismatch tyOf p = portMismatch tyOf' p := by
  obtain ⟨a, ty, om⟩ := p
  cases a with
  | none => rfl
  | some o => simp only [portMismatch, operandBase_congr h]

theorem portOutOfRange_congr {tyOf tyOf' : Name → Option Ty} {p : Port} (h : TypedAlike tyOf tyOf' p.arg) :
    portOutOfRange tyOf p = portOutOfRange tyOf' p := by
  obtain ⟨a, ty, om⟩ := p
  cases a with
  | none => rfl
  | some o =>
    cases o with
    | wire n => rfl
    | query n i => simp only [portOutOfRange, h n rfl]
    | lit v => rfl

theorem queryOutOfRange_congr {tyOf tyOf' : Name → Option Ty} {c : Contract}
    (h : ∀ p ∈ c.ports, TypedAlike tyOf tyOf' p.arg) : queryOutOfRange tyOf c = queryOutOfRange tyOf' c := by
  obtain ⟨widths, ports, extra, convert, position, reserved⟩ := c
  cases position with
  | none => rfl
  | some i =>
    cases ports with
    | nil => rfl
    | cons p ps =>
      have hbase : p.arg.bind (operandBase tyOf) = p.arg.bind (operandBase tyOf') :=
        Option.bind_congr fun o ho => operandBase_congr (ho ▸ h p List.mem_cons_self)
      simp only [queryOutOfRange, hbase]

/-- The checks of a contract look at no types but those of what its ports and its extra operand are connected to. -/
theorem contractCheck_congr {tyOf tyOf' : Name → Option Ty} {c : Contract} (pol : ReservedFPolicy)
    (h : ∀ p ∈ c.ports, TypedAlike tyOf tyOf' p.arg) (hx : TypedAlike tyOf tyOf' c.extra) :
    contractCheck pol tyOf c = contractCheck pol tyOf' c := by
  have any_congr {f g : Port → Bool} (hfg : ∀ p ∈ c.ports, f p = g p) : c.ports.any f = c.ports.any g :=
    Bool.eq_iff_iff.mpr (by
      simp only [List.any_eq_true]
      exact exists_congr fun p => and_congr_right fun hp => by rw [hfg p hp])
  simp only [contractCheck, contractViolations, argZeroWidth_congr hx, queryOutOfRange_congr h,
    any_congr fun p hp => argZeroWidth_congr (h p hp), any_congr fun p hp => portUnconnected_congr (h p hp),
    any_congr fun p hp => portMismatch_congr (h p hp), any_congr fun p hp => portOutOfRange_congr (h p hp)]

/-! ### Operations on wires that agree -/

/-- The wire that a port or an extra operand is connected to, if it is connected to one, has the same value in both states. -/
def ReadAlike (s t : State) (a : Option Operand) : Prop :=
  ∀ n, a.bind operandWire = some n → wiresGet s.wires n = wiresGet t.wires n

theorem ReadAlike.typedAlike {s t : State} {a : Option Operand} (h : ReadAlike s t a) : TypedAlike s.tyOf t.tyOf a :=
  fun n hn => by rw [State.tyOf, State.tyOf, h n hn]

theorem ReadAlike.bind_read {s t : State} {a : Option Operand} (h : ReadAlike s t a) : a.bind s.read = a.bind t.read :=
  Option.bind_congr fun _ ho => read_congr fun n hn => h n (by rw [ho]; exact hn)

/-- Wires that agree on what an instance reads agree on each of its ports. -/
theorem readAlike_port {s t : State} {x : Inst} (h : ∀ n ∈ instReads x, wiresGet s.wires n = wiresGet t.wires n) :
    ∀ p ∈ (instContract x).ports, ReadAlike s t p.arg :=
  fun p hp n hn => h n (List.mem_filterMap.mpr ⟨p, hp, hn⟩)

/-- An operation whose contract is met drives its output ports with its values. -/
theorem exec_of_contract {s : State} {i : Instr} {vs : List Value}
    (hc : contractCheck s.params.reservedF s.tyOf (instrContract i) = none) (hv : instrValues s i = some vs) :
    exec i s = .next (s.drive ((instrPorts i).map Prod.fst) vs) :=
  exec_of_values hv ((contract_iff_values s i).mp hc).2

/-- CONV, where its contract is met, does not narrow (R96). -/
theorem convNarrows_of_contract {pol : ReservedFPolicy} {tyOf : Name → Option Ty} {c : Contract}
    (hc : contractCheck pol tyOf c = none) : convNarrows c.convert = false := by
  obtain ⟨-, -, -, hconv, -, -⟩ := (contractCheck_eq_none_iff _ _ _).mp hc
  exact hconv

end Sys2Proof.Machine

open Sys2Proof Sys2Proof.Machine

/-- Settles O40: a completed operation is a drive of its output ports, which leaves everything else alone, with the values its
cell gives, which have its ports' types. -/
theorem operationWritesNothingButItsOutputs : Obligations.OperationWritesNothingButItsOutputs := by
  unfold Obligations.OperationWritesNothingButItsOutputs
  intro i s t h
  obtain ⟨hc, vs, hv, rfl⟩ := exec_next h
  exact ⟨fun n hn => wiresGet_drive_other _ _ _ hn, rfl, rfl, rfl, vs, rfl, instrValues_ty hv (convNarrows_of_contract hc)⟩

/-- Settles O41: on wires that agree on its inputs an operation's contract is checked alike and its cell gives the same values. -/
theorem operationReadsNothingButItsInputs : Obligations.OperationReadsNothingButItsInputs := by
  unfold Obligations.OperationReadsNothingButItsInputs
  intro i s t hp h
  have hports : ∀ p ∈ (instrContract i).ports, ReadAlike s t p.arg :=
    readAlike_port (x := .cell i) fun n hn => h n (.inl hn)
  have hextra : ReadAlike s t (instrContract i).extra := fun n hn => h n (.inr (Option.bind_eq_some_iff.mp hn))
  have hc : contractCheck s.params.reservedF s.tyOf (instrContract i) =
      contractCheck t.params.reservedF t.tyOf (instrContract i) := by
    rw [hp]; exact contractCheck_congr _ (fun p hpp => (hports p hpp).typedAlike) hextra.typedAlike
  have hv : instrValues s i = instrValues t i := instrValues_congr hp fun p hpp => (hports p hpp).bind_read
  cases hr : contractCheck s.params.reservedF s.tyOf (instrContract i) with
  | some r => exact .inr ⟨r, exec_of_violation hr, exec_of_violation (hc ▸ hr)⟩
  | none =>
    obtain ⟨vs, hvs⟩ := ((contract_iff_values s i).mp hr).1
    exact .inl ⟨vs, exec_of_contract hr hvs, exec_of_contract (hc ▸ hr) (hv ▸ hvs)⟩

end

section
/-! The evaluation of one instance, and the order in which the instances of a composition are evaluated (spec/20_memory.md R37,
spec/43_alu.md R91, log 1 to log 3). -/

namespace Sys2Proof.Machine

open Sys2Proof

/-! ### The evaluation of one instance -/

theorem instrPorts_decodeSelect (sel : FunctionSelect) (D : Int) (a b : Option Operand) (r : Option Name) :
    instrPorts (decodeSelect sel D a b r) = [(r, .word D)] := by
  obtain ⟨f0, f1, f2⟩ := sel
  cases f0 <;> cases f1 <;> cases f2 <;> rfl

theorem contractPorts_decodeSelect (sel : FunctionSelect) (D : Int) (a b : Option Operand) (r : Option Name) :
    (instrContract (decodeSelect sel D a b r)).ports = [.wordIn D a, .wordIn D b] := by
  obtain ⟨f0, f1, f2⟩ := sel
  cases f0 <;> cases f1 <;> cases f2 <;> rfl

/-- The operation an instance is selected as has the instance's output ports. -/
theorem instPorts_of_select {s : State} {x : Inst} {i : Instr} (h : s.select x = .ok i) : instPorts x = instrPorts i := by
  rcases select_ok h with rfl | ⟨D, f, a, b, r, sel, rfl, rfl, -⟩
  · rfl
  · exact (instrPorts_decodeSelect sel D a b r).symm

/-- The operation an instance is selected as has no input port that the instance has not. -/
theorem contractPorts_of_select {s : State} {x : Inst} {i : Instr} (h : s.select x = .ok i) :
    ∀ p ∈ (instrContract i).ports, p ∈ (instContract x).ports := by
  rcases select_ok h with rfl | ⟨D, f, a, b, r, sel, rfl, rfl, -⟩
  · exact fun p hp => hp
  · rw [contractPorts_decodeSelect]
    exact fun p hp => List.mem_cons_of_mem _ hp

/-- The evaluation of an instance completes with these values on its output ports. -/
def State.Yields (s : State) (x : Inst) (vs : List Value) : Prop :=
  ∃ i, s.select x = .ok i ∧ contractCheck s.params.reservedF s.tyOf (instrContract i) = none ∧ instrValues s i = some vs

/-- The state after the output ports of an instance are given their values. -/
def State.driveInst (s : State) (x : Inst) (vs : List Value) : State := s.drive ((instPorts x).map Prod.fst) vs

theorem evalInst_next_iff {x : Inst} {s t : State} :
    evalInst x s = .next t ↔ ∃ vs, s.Yields x vs ∧ t = s.driveInst x vs := by
  constructor
  · intro h
    obtain ⟨i, hsel, hexec⟩ := evalInst_next h
    obtain ⟨hc, vs, hv, rfl⟩ := exec_next hexec
    exact ⟨vs, ⟨i, hsel, hc, hv⟩, by rw [State.driveInst, instPorts_of_select hsel]⟩
  · rintro ⟨vs, ⟨i, hsel, hc, hv⟩, rfl⟩
    simp only [evalInst, hsel, exec_of_contract hc hv, State.driveInst, instPorts_of_select hsel]

theorem State.Yields.contract {s : State} {x : Inst} {vs : List Value} (h : s.Yields x vs) :
    contractCheck s.params.reservedF s.tyOf (instContract x) = none := by
  obtain ⟨i, hsel, hc, -⟩ := h
  rcases select_ok hsel with rfl | ⟨D, f, a, b, r, sel, rfl, -, hx, -⟩
  · exact hc
  · exact hx

theorem State.Yields.ty {s : State} {x : Inst} {vs : List Value} (h : s.Yields x vs) :
    vs.map Value.ty = (instPorts x).map Prod.snd := by
  obtain ⟨i, hsel, hc, hv⟩ := h
  rw [instPorts_of_select hsel]
  exact instrValues_ty hv (convNarrows_of_contract hc)

/-- A wire that a port passing its checks is connected to has a value (R100). -/
theorem valued_of_portOk {s : State} {p : Port} {n : Name} (h : portOk s.tyOf p) (hn : p.arg.bind operandWire = some n) :
    n ∈ s.known := by
  obtain ⟨-, hconn, -, -⟩ := h
  obtain ⟨o, ho, hwire⟩ := Option.bind_eq_some_iff.mp hn
  rw [mem_known_iff, ← Option.isSome_iff_exists]
  cases o <;> simp_all [portUnconnected, operandBase, operandWire, State.tyOf, Option.isSome_iff_ne_none]

/-- An instance whose evaluation completes reads no wire without a value. -/
theorem State.Yields.reads_known {s : State} {x : Inst} {vs : List Value} (h : s.Yields x vs) {n : Name} (hn : n ∈ instReads x) :
    n ∈ s.known := by
  obtain ⟨p, hp, hwire⟩ := List.mem_filterMap.mp hn
  obtain ⟨-, hports, -⟩ := (contractCheck_eq_none_iff _ _ _).mp h.contract
  exact valued_of_portOk (hports p hp) hwire

/-- On wires that agree on what it reads an instance is selected as the same operation. -/
theorem select_congr {s t : State} {x : Inst} (hp : s.params = t.params)
    (h : ∀ n ∈ instReads x, wiresGet s.wires n = wiresGet t.wires n) : s.select x = t.select x := by
  cases x with
  | cell i => rfl
  | alu D f a b r =>
    have hports := readAlike_port h
    have hF : s.wordOf Config.selectWidth f = t.wordOf Config.selectWidth f :=
      wordOf_congr (hports _ List.mem_cons_self).bind_read
    simp only [State.select, hF, hp,
      contractCheck_congr t.params.reservedF (fun p hpp => (hports p hpp).typedAlike) (fun _ => nofun)]

/-- An instance's values depend on nothing but the wires it reads and the machine's parameters (R22). -/
theorem State.Yields.congr {s t : State} {x : Inst} {vs : List Value} (hp : s.params = t.params)
    (h : ∀ n ∈ instReads x, wiresGet s.wires n = wiresGet t.wires n) (hy : s.Yields x vs) : t.Yields x vs := by
  obtain ⟨i, hsel, hc, hv⟩ := hy
  have hports : ∀ p ∈ (instrContract i).ports, ReadAlike s t p.arg :=
    fun p hpp => readAlike_port h p (contractPorts_of_select hsel p hpp)
  obtain ⟨-, -, hextra, -⟩ := (contractCheck_eq_none_iff _ _ _).mp hc
  refine ⟨i, by rw [← select_congr hp h, hsel], ?_, ?_⟩
  · rw [← hp, ← contractCheck_congr _ (fun p hpp => (hports p hpp).typedAlike) (by rw [hextra]; exact fun _ => nofun), hc]
  · rw [← instrValues_congr hp fun p hpp => (hports p hpp).bind_read, hv]

/-! ### The wires after one instance is evaluated -/

theorem mem_instDrives_iff {x : Inst} {n : Name} : n ∈ instDrives x ↔ some n ∈ (instPorts x).map Prod.fst := by
  simp [instDrives]

theorem wiresGet_driveInst_other {s : State} {x : Inst} {n : Name} (vs : List Value) (h : n ∉ instDrives x) :
    wiresGet (s.driveInst x vs).wires n = wiresGet s.wires n :=
  wiresGet_drive_other _ _ _ (mem_instDrives_iff.not.mp h)

/-- A wire an instance drives gets a value of its port's type, whatever the wires held before. -/
theorem State.Yields.wiresGet_driveInst {s : State} {x : Inst} {vs : List Value} (h : s.Yields x vs) {n : Name}
    (hn : n ∈ instDrives x) :
    ∃ v, (some n, v.ty) ∈ instPorts x ∧ ∀ t : State, wiresGet (t.driveInst x vs).wires n = some v := by
  have hl : ((instPorts x).map Prod.fst).length = vs.length := by simpa using (congrArg List.length h.ty).symm
  obtain ⟨v, hv, hget⟩ := wiresGet_drive_mem hl (mem_instDrives_iff.mp hn)
  refine ⟨v, ?_, fun t => hget t.wires⟩
  rw [List.zip_of_prod rfl h.ty.symm, List.zip_map_right]
  exact List.mem_map_of_mem (f := Prod.map id Value.ty) hv

theorem driveInst_known {s : State} {x : Inst} {vs : List Value} (h : s.Yields x vs) (n : Name) :
    n ∈ (s.driveInst x vs).known ↔ n ∈ s.known ∨ n ∈ instDrives x := by
  by_cases hn : n ∈ instDrives x
  · obtain ⟨v, -, hget⟩ := h.wiresGet_driveInst hn
    simp [mem_known_iff, hn, hget]
  · simp [mem_known_iff, hn, wiresGet_driveInst_other]

/-! ### The next instance -/

/-- The instance picked is the first ready one, and the others stay as they are. -/
theorem pickReady_eq_some {known : List Name} {xs rest : List Inst} {x : Inst} (h : pickReady known xs = some (x, rest)) :
    ∃ pre post, xs = pre ++ x :: post ∧ rest = pre ++ post ∧ instReady known x = true ∧
      ∀ z ∈ pre, instReady known z = false := by
  induction xs generalizing rest with
  | nil => simp [pickReady] at h
  | cons y ys ih =>
    rw [pickReady] at h
    by_cases hy : instReady known y = true
    · rw [if_pos hy, Option.some.injEq, Prod.mk.injEq] at h
      obtain ⟨rfl, rfl⟩ := h
      exact ⟨[], ys, rfl, rfl, hy, by simp⟩
    · rw [if_neg hy] at h
      cases hpick : pickReady known ys with
      | none => simp [hpick] at h
      | some d =>
        obtain ⟨z, zs⟩ := d
        simp only [hpick, Option.some.injEq, Prod.mk.injEq] at h
        obtain ⟨rfl, rfl⟩ := h
        obtain ⟨pre, post, rfl, rfl, hz, hpre⟩ := ih hpick
        exact ⟨y :: pre, post, rfl, rfl, hz, by simpa [hy] using hpre⟩

theorem pickReady_perm {known : List Name} {xs rest : List Inst} {x : Inst} (h : pickReady known xs = some (x, rest)) :
    (x :: rest).Perm xs := by
  obtain ⟨pre, post, rfl, rfl, -⟩ := pickReady_eq_some h
  exact List.perm_middle.symm

theorem pickReady_sublist {known : List Name} {xs rest : List Inst} {x : Inst} (h : pickReady known xs = some (x, rest)) :
    rest.Sublist xs := by
  obtain ⟨pre, post, rfl, rfl, -⟩ := pickReady_eq_some h
  exact (List.sublist_cons_self x post).append_left pre

/-- Which instance is picked depends on which names are known, not on how they are listed. -/
theorem pickReady_congr {known known' : List Name} (h : ∀ n, n ∈ known ↔ n ∈ known') (xs : List Inst) :
    pickReady known xs = pickReady known' xs := by
  have hready (x : Inst) : instReady known x = instReady known' x := by simp only [instReady, h]
  induction xs with
  | nil => rfl
  | cons x xs ih => simp only [pickReady, hready, ih]

theorem neverReady_congr {k : Nat} {known known' : List Name} (h : ∀ n, n ∈ known ↔ n ∈ known') (xs : List Inst) :
    neverReady k known xs = neverReady k known' xs := by
  induction k generalizing known known' xs with
  | zero => rfl
  | succ k ih =>
    simp only [neverReady, pickReady_congr h]
    cases pickReady known' xs with
    | none => rfl
    | some d => exact ih (fun n => by simp only [List.mem_append, h]) d.2

/-! ### Steps -/

/-- With a composition accepted and an instance that has its operands, a step is the evaluation of that instance. -/
theorem step_of_evalInst_next {s t : State} {x : Inst} {rest : List Inst} (hv : s.violation = none)
    (hn : s.nextInst = some (x, rest)) (he : evalInst x s = .next t) : step s = .next (t.withPending rest) := by
  unfold step
  cases hp : s.pending with
  | nil => simp [State.nextInst, hp, pickReady] at hn
  | cons y ys => simp only [hv, hn, he]

theorem step_of_evalInst_refused {s : State} {x : Inst} {rest : List Inst} {e : Refusal} (hv : s.violation = none)
    (hn : s.nextInst = some (x, rest)) (he : evalInst x s = .refused e) : step s = .refused e := by
  unfold step
  cases hp : s.pending with
  | nil => simp [State.nextInst, hp, pickReady] at hn
  | cons y ys => simp only [hv, hn, he]

theorem step_of_over {s : State} (hv : s.violation = none) (hp : s.pending = []) : step s = .next s := by
  simp only [step, hv, hp]

end Sys2Proof.Machine

open Sys2Proof Sys2Proof.Machine

/-- Settles O42: a step is the evaluation of the instance `pickReady` finds, which is the first ready one. -/
theorem stepRunsTheNextInstance : Obligations.StepRunsTheNextInstance := by
  unfold Obligations.StepRunsTheNextInstance
  refine ⟨?_, ?_, ?_, ?_, fun s => step_of_over⟩
  · exact fun s x rest i t hv hn hsel hexec => step_of_evalInst_next hv hn (by simp only [evalInst, hsel, hexec])
  · exact fun s x rest i e hv hn hsel hexec => step_of_evalInst_refused hv hn (by simp only [evalInst, hsel, hexec])
  · exact fun s x rest site r hv hn hsel => step_of_evalInst_refused hv hn (by simp only [evalInst, hsel, refuse])
  · intro s x rest hn
    obtain ⟨pre, post, hpend, hrest, hready, hpre⟩ := pickReady_eq_some hn
    exact ⟨by simp [hpend], hready, pickReady_perm hn, pre, post, hpend, hrest, hpre⟩

end

section
/-! Accepted netlists (spec/60_exceptions.md R100 to R102), and the invariant `State.Proper`: it holds when an evaluation begins
(R23), every step keeps it, and at the end it determines the values (spec/10_state.md R22). -/

namespace Sys2Proof.Machine

open Sys2Proof

/-! ### What an accepted netlist is -/

theorem firstRepeated_eq_none_iff (ns : List Name) : firstRepeated ns = none ↔ ns.Nodup := by
  induction ns with
  | nil => simp [firstRepeated]
  | cons n ns ih => by_cases hn : n ∈ ns <;> simp [firstRepeated, hn, ih]

/-- In an accepted netlist no wire has two drivers (R100). -/
theorem drivers_nodup {pol : ReservedFPolicy} {nl : Netlist} (h : netlistCheck pol nl = none) :
    ((netlistDrivers nl).map Prod.fst).Nodup := by
  simp only [netlistCheck, Option.orElse_eq_none, driverViolation, Option.map_eq_none_iff] at h
  obtain ⟨-, -, -, hdrivers, -⟩ := h
  exact (firstRepeated_eq_none_iff _).mp hdrivers

/-- In an accepted netlist every instance gets its operands, from the inputs on (R102). -/
theorem neverReady_of_accepted {pol : ReservedFPolicy} {nl : Netlist} (h : netlistCheck pol nl = none) :
    neverReady nl.insts.length (nl.inputs.map Prod.fst) nl.insts = [] := by
  simp only [netlistCheck, Option.orElse_eq_none, cycleViolation, Option.map_eq_none_iff, List.head?_eq_none_iff] at h
  obtain ⟨-, -, -, -, -, hstuck⟩ := h
  exact hstuck

theorem netlistDrivers_names (nl : Netlist) :
    (netlistDrivers nl).map Prod.fst = nl.inputs.map Prod.fst ++ nl.insts.flatMap instDrives := by
  simp only [netlistDrivers, List.map_append, List.map_flatMap, List.append_cancel_left_eq]
  refine List.flatMap_congr fun x _ => ?_
  simp [instDrives, List.map_filterMap, Function.comp_def]

section Accepted

variable {pol : ReservedFPolicy} {nl : Netlist} (h : netlistCheck pol nl = none)
include h

/-- A wire's one driver gives it its type. -/
theorem netlistTy_of_driver {n : Name} {t : Ty} (hd : (n, t) ∈ netlistDrivers nl) : netlistTy nl n = some t := by
  cases hf : (netlistDrivers nl).find? fun d => decide (d.1 = n) with
  | none => simpa using List.find?_eq_none.mp hf (n, t) hd
  | some e =>
    have he : e = (n, t) := List.inj_on_of_nodup_map (drivers_nodup h) (List.mem_of_find?_eq_some hf) hd
      (by simpa using List.find?_some hf)
    simp only [netlistTy, hf, he, Option.map_some]

theorem netlistTy_of_input {n : Name} {t : Ty} (hd : (n, t) ∈ nl.inputs) : netlistTy nl n = some t :=
  netlistTy_of_driver h (List.mem_append_left _ hd)

theorem netlistTy_of_output {x : Inst} {n : Name} {t : Ty} (hx : x ∈ nl.insts) (hd : (some n, t) ∈ instPorts x) :
    netlistTy nl n = some t :=
  netlistTy_of_driver h (List.mem_append_right _ (List.mem_flatMap.mpr ⟨x, hx, List.mem_filterMap.mpr ⟨_, hd, rfl⟩⟩))

theorem input_not_driven {n : Name} (hn : n ∈ nl.inputs.map Prod.fst) {x : Inst} (hx : x ∈ nl.insts) :
    n ∉ instDrives x := by
  have hnodup := drivers_nodup h
  rw [netlistDrivers_names] at hnodup
  exact fun hd => List.disjoint_of_nodup_append hnodup hn (List.mem_flatMap.mpr ⟨x, hx, hd⟩)

/-- An instance drives no wire that another instance left drives, be that instance written like it or not. -/
theorem drives_disjoint {x : Inst} {rest : List Inst} (hsub : (x :: rest).Subperm nl.insts) {n : Name}
    (hn : n ∈ instDrives x) {z : Inst} (hz : z ∈ rest) : n ∉ instDrives z := by
  have hnodup := drivers_nodup h
  rw [netlistDrivers_names] at hnodup
  obtain ⟨l, hperm, hl⟩ := hsub
  have hdrives := (hperm.flatMap_right instDrives).nodup_iff.mp ((hnodup.of_append_right).sublist (hl.flatMap instDrives))
  rw [List.flatMap_cons] at hdrives
  exact fun hd => List.disjoint_of_nodup_append hdrives hn (List.mem_flatMap.mpr ⟨z, hz, hd⟩)

/-- A wire has one driving instance. -/
theorem driver_unique {x z : Inst} (hx : x ∈ nl.insts) (hz : z ∈ nl.insts) {n : Name} (hnx : n ∈ instDrives x)
    (hnz : n ∈ instDrives z) : x = z := by
  by_contra hne
  refine drives_disjoint h (x := x) (rest := [z]) (List.subperm_of_subset ?_ ?_) hnx List.mem_cons_self hnz
  · simp [hne]
  · simp [hx, hz]

end Accepted

/-! ### The beginning of an evaluation -/

theorem violation_eq_none_iff {s : State} :
    s.violation = none ↔ netlistCheck s.params.reservedF s.netlist = none ∧ s.inputFault = none := by
  simp only [State.violation, Option.orElse_eq_none]

/-- The inputs are accepted exactly when each carries a value of its declared type (R112). -/
theorem inputFault_eq_none_iff {s : State} : s.inputFault = none ↔ ∀ d ∈ s.netlist.inputs, s.tyOf d.1 = some d.2 := by
  simp only [State.inputFault, List.findSome?_eq_none_iff]
  refine forall₂_congr fun d _ => ?_
  cases s.tyOf d.1 <;> simp

/-- No name but a declared input gets a value from those offered (log 14). -/
theorem inputWires_names {nl : Netlist} {offered : List (Name × Value)} {d : Name × Value}
    (hd : d ∈ inputWires nl offered) : d.1 ∈ nl.inputs.map Prod.fst := by
  refine List.foldlRecOn (motive := fun ws : Wires => ∀ e ∈ ws, e.1 ∈ nl.inputs.map Prod.fst) offered _ (by simp) ?_ d hd
  intro ws hws u _ e he
  split at he
  · next hu =>
    rcases mem_wiresSet he with rfl | he
    · exact hu
    · exact hws e he
  · exact hws e he

section Present

variable {s : State} {nl : Netlist} {offered : List (Name × Value)}

/-- Once the inputs are accepted, exactly they have values. -/
theorem present_known_iff (hin : (s.present nl offered).inputFault = none) (n : Name) :
    n ∈ (s.present nl offered).known ↔ n ∈ nl.inputs.map Prod.fst := by
  constructor
  · intro hn
    obtain ⟨d, hd, rfl⟩ := List.mem_map.mp hn
    exact inputWires_names hd
  · intro hn
    obtain ⟨d, hd, rfl⟩ := List.mem_map.mp hn
    obtain ⟨v, hv, -⟩ := tyOf_eq_some_iff.mp (inputFault_eq_none_iff.mp hin d hd)
    exact (mem_known_iff _ _).mpr ⟨v, hv⟩

theorem not_evaluated_present (x : Inst) : ¬ (s.present nl offered).Evaluated x := fun ⟨hx, hleft⟩ => hleft hx

/-- Each accepted input carries a value of its wire's type. -/
theorem present_typed (hnl : netlistCheck s.params.reservedF nl = none)
    (hin : (s.present nl offered).inputFault = none) {n : Name} {v : Value}
    (hv : wiresGet (s.present nl offered).wires n = some v) : netlistTy nl n = some v.ty := by
  obtain ⟨d, hd, rfl⟩ := List.mem_map.mp ((present_known_iff hin n).mp ((mem_known_iff _ _).mpr ⟨v, hv⟩))
  obtain ⟨u, hu, hty⟩ := tyOf_eq_some_iff.mp (inputFault_eq_none_iff.mp hin d hd)
  rw [hv, Option.some.injEq] at hu
  rw [netlistTy_of_input hnl hd, hu, hty]

theorem present_proper (hnl : netlistCheck s.params.reservedF nl = none)
    (hin : (s.present nl offered).inputFault = none) : (s.present nl offered).Proper where
  sorted := wiresWf_inputWires nl offered
  accepted := violation_eq_none_iff.mpr ⟨hnl, hin⟩
  left_of_netlist := List.Sublist.refl _
  valued n := by simp only [present_known_iff hin, not_evaluated_present, false_and, exists_false, or_false, present_netlist]
  typed _ _ hv := present_typed hnl hin hv
  held x hx := absurd hx (not_evaluated_present x)
  reachable := by
    rw [present_pending, neverReady_congr (present_known_iff hin)]
    exact neverReady_of_accepted hnl

end Present

/-! ### One instance of a proper state evaluated -/

/-- An instance holds where its values are known and its outputs already carry what driving them would leave. -/
theorem holds_of_yields {t : State} {x : Inst} {vs : List Value} (hw : wiresWf t.wires = true) (hy : t.Yields x vs)
    (hout : ∀ n ∈ instDrives x, wiresGet (t.driveInst x vs).wires n = wiresGet t.wires n) : t.Holds x := by
  refine evalInst_next_iff.mpr ⟨vs, hy, ?_⟩
  have hwires : t.wires = (t.driveInst x vs).wires := by
    refine wires_ext hw (wiresWf_drive _ _ hw) fun n => ?_
    by_cases hn : n ∈ instDrives x
    · exact (hout n hn).symm
    · exact (wiresGet_driveInst_other vs hn).symm
  exact state_eq rfl rfl hwires rfl

section Step

variable {s : State} {x : Inst} {rest : List Inst} {vs : List Value}

theorem accepted_netlist (hs : s.Proper) : netlistCheck s.params.reservedF s.netlist = none :=
  (violation_eq_none_iff.mp hs.accepted).1

theorem nextInst_mem (hs : s.Proper) (hn : s.nextInst = some (x, rest)) : x ∈ s.pending ∧ x ∈ s.netlist.insts := by
  have hx : x ∈ s.pending := (pickReady_perm hn).subset List.mem_cons_self
  exact ⟨hx, hs.left_of_netlist.subset hx⟩

/-- The wires of an instance that is left have no values yet: no input and no evaluated instance drives them. -/
theorem drives_not_known (hs : s.Proper) (hx : x ∈ s.pending) {n : Name} (hn : n ∈ instDrives x) : n ∉ s.known := by
  have hmem := hs.left_of_netlist.subset hx
  rw [hs.valued]
  rintro (hin | ⟨z, ⟨hz, hleft⟩, hnz⟩)
  · exact input_not_driven (accepted_netlist hs) hin hmem hn
  · exact hleft (driver_unique (accepted_netlist hs) hz hmem hnz hn ▸ hx)

/-- Evaluating an instance that is left keeps every value already there. -/
theorem driveInst_keeps (hs : s.Proper) (hx : x ∈ s.pending) {n : Name} (hn : n ∈ s.known) :
    wiresGet (s.driveInst x vs).wires n = wiresGet s.wires n :=
  wiresGet_driveInst_other vs fun hd => drives_not_known hs hx hd hn

/-- The instances evaluated after a step are those before it, and the one it evaluated unless another like it is left. -/
theorem evaluated_next_iff (hs : s.Proper) (hn : s.nextInst = some (x, rest)) (z : Inst) :
    ((s.driveInst x vs).withPending rest).Evaluated z ↔ s.Evaluated z ∨ z = x ∧ x ∉ rest := by
  have hmem (z : Inst) : z ∈ s.pending ↔ z = x ∨ z ∈ rest := by
    rw [← (pickReady_perm hn).mem_iff, List.mem_cons]
  have hx := (nextInst_mem hs hn).2
  show z ∈ s.netlist.insts ∧ z ∉ rest ↔ (z ∈ s.netlist.insts ∧ z ∉ s.pending) ∨ z = x ∧ x ∉ rest
  rw [hmem]
  by_cases hz : z = x
  · simp [hz, hx]
  · simp [hz]

theorem next_valued (hs : s.Proper) (hn : s.nextInst = some (x, rest)) (hy : s.Yields x vs) (n : Name) :
    n ∈ (s.driveInst x vs).known ↔ n ∈ s.netlist.inputs.map Prod.fst ∨
      ∃ z, ((s.driveInst x vs).withPending rest).Evaluated z ∧ n ∈ instDrives z := by
  have hlast : n ∈ instDrives x → x ∉ rest := fun hd hx =>
    drives_disjoint (accepted_netlist hs)
      ((pickReady_perm hn).subperm.trans hs.left_of_netlist.subperm) hd hx hd
  rw [driveInst_known hy, hs.valued]
  simp only [evaluated_next_iff hs hn]
  constructor
  · rintro ((hin | ⟨z, hz, hd⟩) | hd)
    · exact .inl hin
    · exact .inr ⟨z, .inl hz, hd⟩
    · exact .inr ⟨x, .inr ⟨rfl, hlast hd⟩, hd⟩
  · rintro (hin | ⟨z, hz | ⟨rfl, -⟩, hd⟩)
    · exact .inl (.inl hin)
    · exact .inl (.inr ⟨z, hz, hd⟩)
    · exact .inr hd

theorem next_typed (hs : s.Proper) (hx : x ∈ s.netlist.insts) (hy : s.Yields x vs) {n : Name} {v : Value}
    (hv : wiresGet (s.driveInst x vs).wires n = some v) : netlistTy s.netlist n = some v.ty := by
  by_cases hd : n ∈ instDrives x
  · obtain ⟨u, hport, hget⟩ := hy.wiresGet_driveInst hd
    rw [hget, Option.some.injEq] at hv
    exact hv ▸ netlistTy_of_output (accepted_netlist hs) hx hport
  · rw [wiresGet_driveInst_other vs hd] at hv
    exact hs.typed n v hv

/-- What an instance yields in a proper state it yields after a step too, since a step keeps every value there is. -/
theorem yields_next (hs : s.Proper) (hx : x ∈ s.pending) {z : Inst} {us : List Value} (hz : s.Yields z us) :
    ((s.driveInst x vs).withPending rest).Yields z us :=
  hz.congr (s := s) rfl fun _ hread =>
    (driveInst_keeps hs hx (hz.reads_known hread)).symm

/-- An evaluated instance still holds after a step, and so does the instance the step evaluated. -/
theorem next_held (hs : s.Proper) (hn : s.nextInst = some (x, rest)) (hy : s.Yields x vs) {z : Inst}
    (hz : ((s.driveInst x vs).withPending rest).Evaluated z) : ((s.driveInst x vs).withPending rest).Holds z := by
  have hx := (nextInst_mem hs hn).1
  have hsorted : wiresWf (s.driveInst x vs).wires = true := wiresWf_drive _ _ hs.sorted
  rcases (evaluated_next_iff hs hn z).mp hz with hev | ⟨rfl, -⟩
  · obtain ⟨us, hyz, hself⟩ := evalInst_next_iff.mp (hs.held z hev)
    refine holds_of_yields hsorted (yields_next hs hx hyz) fun n hd => ?_
    obtain ⟨v, -, hget⟩ := hyz.wiresGet_driveInst hd
    have hold : wiresGet s.wires n = some v := by rw [hself]; exact hget s
    rw [hget, withPending_wires, driveInst_keeps hs hx ((mem_known_iff _ _).mpr ⟨v, hold⟩), hold]
  · refine holds_of_yields hsorted (yields_next hs hx hy) fun n hd => ?_
    obtain ⟨v, -, hget⟩ := hy.wiresGet_driveInst hd
    rw [hget, withPending_wires, hget]

theorem next_inputFault (hs : s.Proper) (hx : x ∈ s.pending) : ((s.driveInst x vs).withPending rest).inputFault = none := by
  rw [inputFault_eq_none_iff]
  intro d hd
  have hknown : d.1 ∈ s.known := (hs.valued d.1).mpr (.inl (List.mem_map_of_mem hd))
  have hty := inputFault_eq_none_iff.mp (violation_eq_none_iff.mp hs.accepted).2 d hd
  rw [withPending_tyOf, State.tyOf, driveInst_keeps hs hx hknown]
  exact hty

theorem next_reachable (hs : s.Proper) (hn : s.nextInst = some (x, rest)) (hy : s.Yields x vs) :
    neverReady rest.length (s.driveInst x vs).known rest = [] := by
  have hlen : s.pending.length = rest.length + 1 := (pickReady_perm hn).length_eq.symm
  have hreach := hs.reachable
  have hpick : pickReady s.known s.pending = some (x, rest) := hn
  rw [hlen, neverReady, hpick] at hreach
  rw [← hreach]
  exact neverReady_congr (fun n => by rw [driveInst_known hy, List.mem_append]) rest

/-- Evaluating the next instance of a proper state gives a proper state. -/
theorem next_proper (hs : s.Proper) (hn : s.nextInst = some (x, rest)) (hy : s.Yields x vs) :
    ((s.driveInst x vs).withPending rest).Proper where
  sorted := wiresWf_drive _ _ hs.sorted
  accepted := violation_eq_none_iff.mpr ⟨(accepted_netlist hs :), next_inputFault hs (nextInst_mem hs hn).1⟩
  left_of_netlist := (pickReady_sublist hn).trans hs.left_of_netlist
  valued := next_valued hs hn hy
  typed _ _ hv := next_typed hs (nextInst_mem hs hn).2 hy hv
  held _ hz := next_held hs hn hy hz
  reachable := next_reachable hs hn hy

end Step

/-! ### The end of an evaluation -/

section Ended

variable {s t : State} (hp : s.params = t.params)
include hp

/-- An instance that holds in two states whose wires agree on what it reads drives the same values in both. -/
theorem outputs_agree {x : Inst} (hs : s.Holds x) (ht : t.Holds x)
    (h : ∀ n ∈ instReads x, wiresGet s.wires n = wiresGet t.wires n) :
    ∀ n ∈ instDrives x, wiresGet s.wires n = wiresGet t.wires n := by
  intro n hn
  obtain ⟨vs, hy, hself⟩ := evalInst_next_iff.mp hs
  have ht' : t = t.driveInst x vs := by
    have := evalInst_next_iff.mpr ⟨vs, hy.congr hp h, rfl⟩
    rwa [show evalInst x t = .next t from ht, Host.Outcome.next.injEq] at this
  obtain ⟨v, -, hget⟩ := hy.wiresGet_driveInst hn
  rw [hself, hget, ht', hget]

/-- From the wires known at the start, agreement spreads along the order in which instances get their operands. -/
theorem drives_agree {k : Nat} {known : List Name} {xs : List Inst} (hxs : neverReady k known xs = [])
    (hs : ∀ x ∈ xs, s.Holds x) (ht : ∀ x ∈ xs, t.Holds x)
    (h : ∀ n ∈ known, wiresGet s.wires n = wiresGet t.wires n) :
    ∀ x ∈ xs, ∀ n ∈ instDrives x, wiresGet s.wires n = wiresGet t.wires n := by
  induction k generalizing known xs with
  | zero => simp [show xs = [] from hxs]
  | succ k ih =>
    rw [neverReady] at hxs
    cases hpick : pickReady known xs with
    | none => simp [show xs = [] by simpa [hpick] using hxs]
    | some d =>
      obtain ⟨x, rest⟩ := d
      rw [hpick] at hxs
      have hmem (z : Inst) : z ∈ xs ↔ z = x ∨ z ∈ rest := by rw [← (pickReady_perm hpick).mem_iff, List.mem_cons]
      obtain ⟨-, -, -, -, hready, -⟩ := pickReady_eq_some hpick
      have hreads : ∀ n ∈ instReads x, wiresGet s.wires n = wiresGet t.wires n :=
        fun n hn => h n (by simpa using List.all_eq_true.mp hready n hn)
      have hx := outputs_agree hp (hs x ((hmem x).mpr (.inl rfl))) (ht x ((hmem x).mpr (.inl rfl))) hreads
      have hrest := ih hxs (fun z hz => hs z ((hmem z).mpr (.inr hz))) (fun z hz => ht z ((hmem z).mpr (.inr hz)))
        (List.forall_mem_append.mpr ⟨h, hx⟩)
      intro z hz
      rcases (hmem z).mp hz with rfl | hz
      · exact hx
      · exact hrest z hz

end Ended

/-- Two proper ended states on the same netlist and inputs read alike on every wire. -/
theorem wires_agree {s t : State} (hs : s.Proper) (ht : t.Proper) (hso : s.Over) (hto : t.Over)
    (hp : s.params = t.params) (hnl : s.netlist = t.netlist)
    (hin : ∀ n ∈ s.netlist.inputs.map Prod.fst, wiresGet s.wires n = wiresGet t.wires n) (n : Name) :
    wiresGet s.wires n = wiresGet t.wires n := by
  have hevs (x : Inst) : s.Evaluated x ↔ x ∈ s.netlist.insts := by simp [State.Evaluated, show s.pending = [] from hso]
  have hevt (x : Inst) : t.Evaluated x ↔ x ∈ s.netlist.insts := by
    simp [State.Evaluated, show t.pending = [] from hto, hnl]
  have hdrives := drives_agree hp (neverReady_of_accepted (accepted_netlist hs))
    (fun x hx => hs.held x ((hevs x).mpr hx)) (fun x hx => ht.held x ((hevt x).mpr hx)) hin
  have hknown : n ∈ s.known ↔ n ∈ t.known := by rw [hs.valued, ht.valued, hnl]; simp only [hevs, hevt]
  by_cases hn : n ∈ s.known
  · rcases (hs.valued n).mp hn with hi | ⟨x, hx, hd⟩
    · exact hin n hi
    · exact hdrives x ((hevs x).mp hx) n hd
  · have hn' := hknown.not.mp hn
    simp only [mem_known_iff, ← Option.isSome_iff_exists, Option.not_isSome_iff_eq_none] at hn hn'
    rw [hn, hn']

end Sys2Proof.Machine

open Sys2Proof Sys2Proof.Machine

/-- Settles O47: a step that completes evaluates the next instance, whose wires had no values, so all that was evaluated before
reads what it read before. -/
theorem stepKeepsTheStateProper : Obligations.StepKeepsTheStateProper := by
  unfold Obligations.StepKeepsTheStateProper
  intro s t hs hstep
  obtain ⟨-, ⟨-, rfl⟩ | ⟨x, rest, u, hn, he, rfl⟩⟩ := step_next hstep
  · exact ⟨hs, rfl, rfl, fun n v hv => hv⟩
  · obtain ⟨vs, hy, rfl⟩ := evalInst_next_iff.mp he
    refine ⟨next_proper hs hn hy, rfl, rfl, fun n v hv => ?_⟩
    rw [withPending_wires, driveInst_keeps hs (nextInst_mem hs hn).1 ((mem_known_iff _ _).mpr ⟨v, hv⟩), hv]

/-- Settles O45: before the first step exactly the inputs have values, and no instance is evaluated. -/
theorem presentGivesAProperState : Obligations.PresentGivesAProperState :=
  fun _ _ _ => present_proper

/-- Settles O51: the values agree on the inputs, and from there along the order of evaluation; wires in canonical form that read
alike are the same. -/
theorem resultIsUnique : Obligations.ResultIsUnique := by
  unfold Obligations.ResultIsUnique
  intro s t hs ht hso hto hp hnl hin
  exact state_eq hp hnl (wires_ext hs.sorted ht.sorted (wires_agree hs ht hso hto hp hnl hin)) (hso.trans hto.symm)

/-- Settles O44: reset is the empty netlist laid before the core with no inputs, and nothing is left to evaluate. -/
theorem resetDefinesNothing : Obligations.ResetDefinesNothing := by
  have hproper : State.reset.Proper := present_proper (s := State.reset) (nl := Netlist.empty) (offered := []) rfl rfl
  exact ⟨rfl, rfl, rfl, rfl, hproper, step_of_over hproper.accepted rfl⟩

end

section
/-! Two instances of a proper state that both have their operands: neither reads what the other drives, and no wire is driven by
both, so their order cannot be seen (spec/20_memory.md R37). -/

namespace Sys2Proof.Machine

open Sys2Proof

theorem instReady_iff {known : List Name} {x : Inst} : instReady known x = true ↔ ∀ n ∈ instReads x, n ∈ known := by
  simp [instReady]

/-- Two different instances of a proper state drive different wires (R49). -/
theorem drives_disjoint_of_ne {s : State} {x y : Inst} (hs : s.Proper) (hx : x ∈ s.pending) (hy : y ∈ s.pending) (hne : x ≠ y)
    {n : Name} (hnx : n ∈ instDrives x) : n ∉ instDrives y := fun hny =>
  hne (driver_unique (accepted_netlist hs) (hs.left_of_netlist.subset hx) (hs.left_of_netlist.subset hy) hnx hny)

/-- Evaluating an instance that is left changes nothing for one that already has its operands. -/
theorem yields_driveInst_iff {s : State} {x z : Inst} {vs us : List Value} (hs : s.Proper) (hx : x ∈ s.pending)
    (hz : instReady s.known z = true) : (s.driveInst x vs).Yields z us ↔ s.Yields z us := by
  have hkeeps : ∀ n ∈ instReads z, wiresGet (s.driveInst x vs).wires n = wiresGet s.wires n :=
    fun n hn => driveInst_keeps hs hx (instReady_iff.mp hz n hn)
  exact ⟨State.Yields.congr rfl hkeeps, State.Yields.congr rfl fun n hn => (hkeeps n hn).symm⟩

/-- Instances that drive different wires may be driven in either order. -/
theorem driveInst_comm {s : State} {x y : Inst} {vs us : List Value} (hw : wiresWf s.wires = true) (hx : s.Yields x vs)
    (hy : s.Yields y us) (hdisj : ∀ n ∈ instDrives x, n ∉ instDrives y) :
    (s.driveInst x vs).driveInst y us = (s.driveInst y us).driveInst x vs := by
  refine state_eq rfl rfl (wires_ext ?_ ?_ fun n => ?_) rfl
  · exact wiresWf_drive _ _ (wiresWf_drive _ _ hw)
  · exact wiresWf_drive _ _ (wiresWf_drive _ _ hw)
  by_cases hnx : n ∈ instDrives x
  · obtain ⟨v, -, hget⟩ := hx.wiresGet_driveInst hnx
    rw [wiresGet_driveInst_other _ (hdisj n hnx), hget, hget]
  · rw [wiresGet_driveInst_other (s := s.driveInst y us) _ hnx]
    by_cases hny : n ∈ instDrives y
    · obtain ⟨v, -, hget⟩ := hy.wiresGet_driveInst hny
      rw [hget, hget]
    · rw [wiresGet_driveInst_other _ hny, wiresGet_driveInst_other _ hnx, wiresGet_driveInst_other _ hny]

end Sys2Proof.Machine

open Sys2Proof Sys2Proof.Machine

/-- Settles O52: each instance reads only wires that had values before, which the other leaves alone, so it gives the same values
first or second; and the two drive different wires. -/
theorem orderOfIndependentInstancesIsUnobservable : Obligations.OrderOfIndependentInstancesIsUnobservable := by
  unfold Obligations.OrderOfIndependentInstancesIsUnobservable
  intro s s1 s2 x y hs hx hy hne hxready hyready he1 he2
  obtain ⟨vs, hxy, rfl⟩ := evalInst_next_iff.mp he1
  obtain ⟨us, hyy, rfl⟩ := evalInst_next_iff.mp he2
  have hyy : s.Yields y us := (yields_driveInst_iff hs hx hyready).mp hyy
  have hcomm := driveInst_comm hs.sorted hxy hyy fun _ => drives_disjoint_of_ne hs hx hy hne
  exact ⟨s.driveInst y us, evalInst_next_iff.mpr ⟨us, hyy, rfl⟩,
    evalInst_next_iff.mpr ⟨vs, (yields_driveInst_iff hs hy hxready).mpr hxy, hcomm⟩⟩

end

section
/-! The text of netlists read back (spec/30_encoding.md R51 to R53): each part that the encoder writes (numbers, names, literals,
operands, lists between commas, lines) is decoded to what it was written from. -/

namespace Sys2Proof

/-! ### Numbers -/

theorem digitByte_toNat {d : Nat} (h : d < 10) : (BitVec.ofNat 8 (48 + d)).toNat = 48 + d := by
  rw [BitVec.toNat_ofNat]; omega

theorem isDigitByte_digit {d : Nat} (h : d < 10) : isDigitByte (BitVec.ofNat 8 (48 + d)) = true := by
  simp only [isDigitByte, digitByte_toNat h, Bool.and_eq_true, decide_eq_true_eq]; omega

theorem decimalDigits_isDigit (k n : Nat) : ∀ c ∈ decimalDigits k n, isDigitByte c = true := by
  induction k generalizing n with
  | zero => simp [decimalDigits]
  | succ k ih =>
    rw [decimalDigits]
    split
    · next h => simpa using isDigitByte_digit h
    · simpa [or_imp, forall_and] using ⟨ih _, isDigitByte_digit (Nat.mod_lt n (by decide))⟩

/-- Reading the digits of a number gives the number, when there is room for all of them. -/
theorem foldl_decimalDigits {k n : Nat} (h : n < k) :
    (decimalDigits k n).foldl (fun m c => 10 * m + (c.toNat - 48)) 0 = n := by
  induction k generalizing n with
  | zero => omega
  | succ k ih =>
    rw [decimalDigits]
    split
    · next hn => simp [digitByte_toNat hn]
    · rw [List.foldl_append, ih (by omega), List.foldl_cons, List.foldl_nil, digitByte_toNat (Nat.mod_lt n (by decide))]
      omega

theorem natDigits_ne_nil (n : Nat) : natDigits n ≠ [] := by
  rw [natDigits, decimalDigits]; split <;> simp

@[simp] theorem natOfDigits_natDigits (n : Nat) : natOfDigits (natDigits n) = some n := by
  have hdigits : (natDigits n).all isDigitByte = true := List.all_eq_true.mpr (decimalDigits_isDigit _ _)
  rw [natOfDigits, if_pos ⟨natDigits_ne_nil n, hdigits⟩, natDigits, foldl_decimalDigits n.lt_succ_self]

@[simp] theorem intOfTokens_intTokens (i : Int) : intOfTokens (intTokens i) = some i := by
  by_cases h : i < 0
  · simp [intTokens, h, intOfTokens, abs_of_neg h]
  · simp [intTokens, h, intOfTokens, abs_of_nonneg (not_lt.mp h)]

/-! ### Bytes and tokens -/

/-- A token that is read back from its bytes: a run of at least one byte, or one of the symbols. -/
def Token.legible : Token → Bool
  | .run cs => !cs.isEmpty && cs.all isRunByte
  | .sym c => isSymByte c

theorem isRunByte_of_isDigitByte {c : Byte} (h : isDigitByte c = true) : isRunByte c = true := by
  simp only [isDigitByte, Bool.and_eq_true, decide_eq_true_eq] at h
  simp [isRunByte, h]

theorem isBlankByte_of_isRunByte {c : Byte} (h : isRunByte c = true) : isBlankByte c = false := by
  by_contra hb
  simp only [isBlankByte, Bool.not_eq_false, Bool.or_eq_true, beq_iff_eq] at hb
  rcases hb with (rfl | rfl) | rfl <;> exact absurd h (by decide)

theorem isSymByte_separates {c : Byte} (h : isSymByte c = true) : isRunByte c = false ∧ isBlankByte c = false := by
  have hall : ∀ s ∈ [symEquals, symComma, symLess, symGreater, symOpenBracket, symCloseBracket, symOpenBrace, symCloseBrace,
      symOpenParen, symCloseParen, symColon, symMinus], isRunByte s = false ∧ isBlankByte s = false := by decide
  exact hall c (List.contains_iff_mem.mp h)

theorem lexLine_blank (run cs : List Byte) : lexLine run (32 :: cs) = (lexLine [] cs).map (flushRun run) := by
  have hblank : isRunByte 32 = false ∧ isBlankByte 32 = true := by decide
  rw [lexLine, hblank.1, hblank.2, if_neg nofun, if_pos rfl]

theorem lexLine_run {w : List Byte} (hw : ∀ c ∈ w, isRunByte c = true) (run cs : List Byte) :
    lexLine run (w ++ cs) = lexLine (run ++ w) cs := by
  induction w generalizing run with
  | nil => simp
  | cons c w ih =>
    rw [List.forall_mem_cons] at hw
    rw [List.cons_append, lexLine, if_pos hw.1, ih hw.2, List.append_assoc, List.singleton_append]

/-- The bytes of legible tokens are read back as those tokens. -/
theorem lexLine_spellTokens {ts : List Token} (h : ∀ t ∈ ts, t.legible = true) : lexLine [] (spellTokens ts) = .ok ts := by
  induction ts with
  | nil => rfl
  | cons t ts ih =>
    rw [List.forall_mem_cons] at h
    obtain ⟨ht, hts⟩ := h
    cases t with
    | run cs =>
      simp only [Token.legible, Bool.and_eq_true, Bool.not_eq_true', List.isEmpty_eq_false_iff, List.all_eq_true] at ht
      obtain ⟨hne, hrun⟩ := ht
      rw [spellTokens, lexLine_run hrun, List.nil_append, lexLine_blank, ih hts, Except.map, flushRun, if_neg hne]
    | sym c =>
      obtain ⟨hrun, hblank⟩ := isSymByte_separates ht
      have hsym : isSymByte c = true := ht
      rw [spellTokens, lexLine, hrun, hblank, hsym, if_neg nofun, if_neg nofun, if_pos rfl, lexLine_blank, ih hts]
      rfl

/-! ### Lists between commas -/

/-- Groups of tokens with more tokens before the first of them. -/
def prependGroup (g : List Token) (gs : List (List Token)) : List (List Token) := (g ++ gs.headD []) :: gs.tail

@[simp] theorem prependGroup_append (g h : List Token) (gs : List (List Token)) :
    prependGroup g (prependGroup h gs) = prependGroup (g ++ h) gs := by simp [prependGroup]

theorem commaGroups_comma (ts : List Token) : commaGroups 0 (.sym symComma :: ts) = [] :: commaGroups 0 ts := by
  simp [commaGroups]

theorem commaGroups_cons {d : Nat} {t : Token} (h : ¬(t = .sym symComma ∧ d = 0)) (ts : List Token) :
    commaGroups d (t :: ts) =
      prependGroup [t] (commaGroups (if opens t then d + 1 else if closes t then d - 1 else d) ts) := by
  simp only [commaGroups, if_neg h]
  split <;> next heq => rw [heq]; rfl

theorem commaGroups_ne_nil (d : Nat) (ts : List Token) : commaGroups d ts ≠ [] := by
  cases ts with
  | nil => simp [commaGroups]
  | cons t ts =>
    by_cases h : t = .sym symComma ∧ d = 0
    · rw [h.1, h.2, commaGroups_comma]; simp
    · rw [commaGroups_cons h]; simp [prependGroup]

/-- Tokens with no brackets of literals among them stay in one group, with the commas among them where these stand inside such
brackets. -/
theorem commaGroups_flat {d : Nat} {g : List Token}
    (hg : ∀ t ∈ g, opens t = false ∧ closes t = false ∧ (t = .sym symComma → d ≠ 0)) (ts : List Token) :
    commaGroups d (g ++ ts) = prependGroup g (commaGroups d ts) := by
  induction g with
  | nil =>
    obtain ⟨h, hs, heq⟩ := List.exists_cons_of_ne_nil (commaGroups_ne_nil d ts)
    simp [prependGroup, heq]
  | cons t g ih =>
    rw [List.forall_mem_cons] at hg
    obtain ⟨⟨ho, hc, hcomma⟩, hg⟩ := hg
    rw [List.cons_append, commaGroups_cons fun h => hcomma h.1 h.2, ho, hc, if_neg nofun, if_neg nofun, ih hg, prependGroup_append,
      List.singleton_append]

/-- A group that no comma splits, whatever follows it. -/
def Whole (g : List Token) : Prop := ∀ ts, commaGroups 0 (g ++ ts) = prependGroup g (commaGroups 0 ts)

theorem commaGroups_joinCommas {gs : List (List Token)} (hne : gs ≠ []) (h : ∀ g ∈ gs, Whole g) :
    commaGroups 0 (joinCommas gs) = gs := by
  induction gs with
  | nil => exact absurd rfl hne
  | cons g gs ih =>
    rw [List.forall_mem_cons] at h
    obtain ⟨hg, hgs⟩ := h
    cases gs with
    | nil => simpa [joinCommas, commaGroups, prependGroup] using hg []
    | cons g' gs => rw [joinCommas, hg, commaGroups_comma, ih (by simp) hgs]; simp [prependGroup]

theorem joinCommas_eq_nil_iff {gs : List (List Token)} (h : ∀ g ∈ gs, g ≠ []) : joinCommas gs = [] ↔ gs = [] := by
  cases gs with
  | nil => simp [joinCommas]
  | cons g gs => cases gs <;> simp [joinCommas, h g]

theorem groups_joinCommas {gs : List (List Token)} (hne : ∀ g ∈ gs, g ≠ []) (h : ∀ g ∈ gs, Whole g) :
    groups (joinCommas gs) = gs := by
  by_cases hgs : gs = []
  · subst hgs; rfl
  · rw [groups, if_neg ((joinCommas_eq_nil_iff hne).not.mpr hgs), commaGroups_joinCommas hgs h]

theorem forall_mem_joinCommas {P : Token → Prop} {gs : List (List Token)} (hcomma : P (.sym symComma))
    (h : ∀ g ∈ gs, ∀ t ∈ g, P t) : ∀ t ∈ joinCommas gs, P t := by
  induction gs with
  | nil => simp [joinCommas]
  | cons g gs ih =>
    rw [List.forall_mem_cons] at h
    cases gs with
    | nil => exact h.1
    | cons g' gs => exact List.forall_mem_append.mpr ⟨h.1, List.forall_mem_cons.mpr ⟨hcomma, ih h.2⟩⟩

/-- Decoding encoded elements in turn. -/
theorem collect_map {α β γ ε : Type} {f : α → Except ε β} {enc : γ → α} {dec : γ → β} {l : List γ}
    (h : ∀ x ∈ l, f (enc x) = .ok (dec x)) : collect f (l.map enc) = .ok (l.map dec) := by
  induction l with
  | nil => rfl
  | cons x l ih =>
    rw [List.forall_mem_cons] at h
    simp [collect, h.1, ih h.2]

theorem splitSym_append {c : Byte} {xs : List Token} (h : ∀ t ∈ xs, t ≠ .sym c) (ys : List Token) :
    splitSym c (xs ++ .sym c :: ys) = some (xs, ys) := by
  induction xs with
  | nil => simp [splitSym]
  | cons t xs ih =>
    rw [List.forall_mem_cons] at h
    simp [splitSym, h.1, ih h.2]

/-! ### Plain tokens: those of names, numbers, positions and bits -/

/-- A run, a minus sign or a square bracket. -/
def Token.plain : Token → Bool
  | .run _ => true
  | .sym c => [symMinus, symOpenBracket, symCloseBracket].contains c

/-- A plain token separates nothing. -/
theorem plain_not_separator {t : Token} (h : t.plain = true) :
    opens t = false ∧ closes t = false ∧ t ∉ [Token.sym symComma, .sym symEquals, .sym symLess, .sym symGreater] := by
  cases t with
  | run cs => simp [opens, closes]
  | sym c =>
    have hall : ∀ s ∈ [symMinus, symOpenBracket, symCloseBracket], opens (.sym s) = false ∧ closes (.sym s) = false ∧
        Token.sym s ∉ [Token.sym symComma, .sym symEquals, .sym symLess, .sym symGreater] := by decide
    exact hall c (List.contains_iff_mem.mp h)

theorem whole_of_plain {g : List Token} (h : ∀ t ∈ g, t.plain = true) : Whole g := by
  refine commaGroups_flat fun t ht => ?_
  obtain ⟨ho, hc, hsep⟩ := plain_not_separator (h t ht)
  exact ⟨ho, hc, fun heq => absurd (heq ▸ List.mem_cons_self) hsep⟩

/-- A list of plain groups between the brackets of a literal is one group. -/
theorem whole_bracketed {o c : Token} {gs : List (List Token)} (ho : opens o = true) (hc : opens c = false)
    (hcl : closes c = true) (h : ∀ g ∈ gs, ∀ t ∈ g, t.plain = true) : Whole (o :: joinCommas gs ++ [c]) := by
  have comma_ne {t : Token} (ht : opens t = true ∨ closes t = true) : t ≠ .sym symComma := by
    rintro rfl; exact absurd ht (by decide)
  have hinside : ∀ t ∈ joinCommas gs, opens t = false ∧ closes t = false ∧ (t = .sym symComma → 1 ≠ 0) :=
    forall_mem_joinCommas (by decide) fun g hg t ht => by
      obtain ⟨hto, htc, -⟩ := plain_not_separator (h g hg t ht)
      exact ⟨hto, htc, fun _ => by decide⟩
  intro ts
  rw [List.append_assoc, List.cons_append, commaGroups_cons (fun he => comma_ne (.inl ho) he.1), if_pos ho, commaGroups_flat hinside,
    List.singleton_append, commaGroups_cons (fun he => comma_ne (.inr hcl) he.1), hc, hcl]
  simp [prependGroup]

theorem intTokens_plain (i : Int) : ∀ t ∈ intTokens i, t.plain = true := by
  by_cases h : i < 0 <;> simp [intTokens, h, Token.plain]

theorem bitToken_plain (b : Bit) : ∀ t ∈ bitToken b, t.plain = true := by cases b <;> simp [bitToken, Token.plain]

theorem resultTokens_plain (r : Option Name) : ∀ t ∈ resultTokens r, t.plain = true := by
  cases r <;> simp [resultTokens, Token.plain]

/-! ### Names -/

/-- What a name is: its bytes may stand in a run, it does not begin with a digit, and it is not reserved. -/
theorem nameOk_iff {n : Name} : nameOk n = true ↔ ∃ c cs, n = c :: cs ∧ (∀ b ∈ n, isRunByte b = true) ∧
    isDigitByte c = false ∧ c ≠ 46 ∧ n ∉ reservedRuns := by
  cases n with
  | nil => simp [nameOk]
  | cons c cs => simp [nameOk, and_assoc]

theorem nameOk_legible {n : Name} (h : nameOk n = true) : (Token.run n).legible = true := by
  obtain ⟨c, cs, rfl, hrun, -⟩ := nameOk_iff.mp h
  simpa [Token.legible] using hrun

theorem ne_of_nameOk {n m : Name} (h : nameOk n = true) (hm : m ∈ reservedRuns) : n ≠ m := by
  obtain ⟨-, -, -, -, -, -, hres⟩ := nameOk_iff.mp h
  rintro rfl
  exact hres hm

/-- A name is no word literal: it does not begin with a digit. -/
theorem wordOfDigits_of_nameOk {n : Name} (h : nameOk n = true) : wordOfDigits n = none := by
  obtain ⟨c, cs, rfl, -, hdigit, -⟩ := nameOk_iff.mp h
  have hbit : bitOfDigit c = none := by
    have hne : c ≠ 48 ∧ c ≠ 49 := by constructor <;> (rintro rfl; exact absurd hdigit (by decide))
    rw [bitOfDigit, if_neg hne.1, if_neg hne.2]
  simp [wordOfDigits, hbit]

/-- A name is no bit literal: those are reserved, or digits. -/
theorem bitOfRun_of_nameOk {n : Name} (h : nameOk n = true) : bitOfRun n = none := by
  have hdigits : n ≠ ascii "1" ∧ n ≠ ascii "0" := by constructor <;> (rintro rfl; exact absurd h (by decide))
  simp [bitOfRun, hdigits, ne_of_nameOk h (m := ascii "HIGH") (by decide), ne_of_nameOk h (m := ascii "I") (by decide),
    ne_of_nameOk h (m := ascii "LOW") (by decide), ne_of_nameOk h (m := ascii "O") (by decide)]

theorem resultOfGroup_resultTokens {r : Option Name} (h : resultSpellable r = true) :
    resultOfGroup (resultTokens r) = .ok r := by
  cases r with
  | none => decide
  | some n =>
    have hn : nameOk n = true := h
    simp [resultOfGroup, resultTokens, hn, ne_of_nameOk hn (m := ascii "_") (by decide)]

/-! ### Operands -/

theorem bitOfGroup_bitToken (b : Bit) : bitOfGroup (bitToken b) = .ok b := by cases b <;> decide

/-- The inside of a bracketed word literal. -/
theorem wordOfInside_joinCommas (w : Word) : wordOfInside (joinCommas (w.map bitToken)) = .ok w := by
  rw [wordOfInside, groups_joinCommas, collect_map (dec := id) fun b _ => bitOfGroup_bitToken b, List.map_id]
  · exact List.forall_mem_map.mpr fun b _ => by cases b <;> simp [bitToken]
  · exact List.forall_mem_map.mpr fun b _ => whole_of_plain (bitToken_plain b)

theorem operandOfGroup_word (kind : PortKind) (w : Word) : operandOfGroup kind (valueTokens (.word w)) = .ok (.lit (.word w)) := by
  have hbrace : symOpenBrace ≠ symOpenParen := by decide
  by_cases h : w.length = Config.selectWidth <;> simp [valueTokens, h, operandOfGroup, wordOfInside_joinCommas, hbrace]

/-- Every operand is read back, at a port of either kind. -/
theorem operandOfGroup_operandTokens (kind : PortKind) {o : Operand} (h : operandSpellable o = true) :
    operandOfGroup kind (operandTokens o) = .ok o := by
  cases o with
  | wire n =>
    have hn : nameOk n = true := h
    simp [operandTokens, operandOfGroup, operandOfRun, wordOfDigits_of_nameOk hn, bitOfRun_of_nameOk hn, hn]
  | query n i =>
    have hn : nameOk n = true := h
    simp [operandTokens, operandOfGroup, hn]
  | lit v =>
    cases v with
    | bit b => cases b <;> cases kind <;> decide
    | word w => exact operandOfGroup_word kind w

theorem whole_operandTokens (o : Operand) : Whole (operandTokens o) := by
  have hopen : (Token.sym symOpenBracket).plain = true := by decide
  have hclose : (Token.sym symCloseBracket).plain = true := by decide
  cases o with
  | wire n => exact whole_of_plain (by simp [operandTokens, Token.plain])
  | query n i =>
    refine whole_of_plain ?_
    simpa [operandTokens, or_imp, forall_and, Token.plain, hopen, hclose] using intTokens_plain i
  | lit v =>
    cases v with
    | bit b => exact whole_of_plain (bitToken_plain b)
    | word w =>
      have hbits : ∀ g ∈ w.map bitToken, ∀ t ∈ g, t.plain = true := List.forall_mem_map.mpr fun b _ => bitToken_plain b
      rw [operandTokens, valueTokens]
      split <;> exact whole_bracketed (by decide) (by decide) (by decide) hbits

/-- An operand begins with no `<`, so it is not taken for width parameters. -/
theorem operandTokens_head (o : Operand) : ∃ t ts, operandTokens o = t :: ts ∧ t ≠ .sym symLess := by
  have hparen : symOpenParen ≠ symLess := by decide
  have hbrace : symOpenBrace ≠ symLess := by decide
  cases o with
  | wire n => simp [operandTokens]
  | query n i => simp [operandTokens]
  | lit v =>
    cases v with
    | bit b => cases b <;> simp [operandTokens, valueTokens, bitToken]
    | word w => by_cases h : w.length = Config.selectWidth <;> simp [operandTokens, valueTokens, h, hparen, hbrace]

end Sys2Proof
end

section
/-! Whole lines read back (spec/30_encoding.md R51 to R53): the parts of an instance are found in its line, and an instance is made
of its parts. -/

namespace Sys2Proof

/-! ### The tokens of a line can be read from its bytes -/

theorem natDigits_legible (n : Nat) : (Token.run (natDigits n)).legible = true := by
  have hrun : ∀ c ∈ natDigits n, isRunByte c = true := fun c hc => isRunByte_of_isDigitByte (decimalDigits_isDigit _ _ c hc)
  simpa [Token.legible, natDigits_ne_nil] using hrun

theorem intTokens_legible (i : Int) : ∀ t ∈ intTokens i, t.legible = true := by
  have hminus : (Token.sym symMinus).legible = true := by decide
  by_cases h : i < 0 <;> simp [intTokens, h, hminus, natDigits_legible]

theorem bitToken_legible (b : Bit) : ∀ t ∈ bitToken b, t.legible = true := by cases b <;> decide

theorem resultTokens_legible {r : Option Name} (h : resultSpellable r = true) : ∀ t ∈ resultTokens r, t.legible = true := by
  cases r with
  | none => decide
  | some n => simpa [resultTokens] using nameOk_legible h

theorem spelling_legible (o : OpName) : ∀ t ∈ o.spelling, t.legible = true := by cases o <;> decide

theorem joinCommas_legible {gs : List (List Token)} (h : ∀ g ∈ gs, ∀ t ∈ g, t.legible = true) :
    ∀ t ∈ joinCommas gs, t.legible = true := forall_mem_joinCommas (by decide) h

theorem bracketed_legible {o c : Token} {gs : List (List Token)} (ho : o.legible = true) (hc : c.legible = true)
    (h : ∀ g ∈ gs, ∀ t ∈ g, t.legible = true) : ∀ t ∈ o :: joinCommas gs ++ [c], t.legible = true := by
  simpa [or_imp, forall_and, ho, hc] using joinCommas_legible h

theorem operandTokens_legible {o : Operand} (h : operandSpellable o = true) : ∀ t ∈ operandTokens o, t.legible = true := by
  cases o with
  | wire n => simpa [operandTokens] using nameOk_legible h
  | query n i =>
    have hbracket : (Token.sym symOpenBracket).legible = true ∧ (Token.sym symCloseBracket).legible = true := by decide
    simpa [operandTokens, or_imp, forall_and, hbracket, nameOk_legible h] using intTokens_legible i
  | lit v =>
    cases v with
    | bit b => exact bitToken_legible b
    | word w =>
      have hbits : ∀ g ∈ w.map bitToken, ∀ t ∈ g, t.legible = true := List.forall_mem_map.mpr fun b _ => bitToken_legible b
      rw [operandTokens, valueTokens]
      split <;> exact bracketed_legible (by decide) (by decide) hbits

theorem paramTokens_legible (ps : List Int) : ∀ t ∈ paramTokens ps, t.legible = true := by
  rw [paramTokens]
  split
  · simp
  · exact bracketed_legible (by decide) (by decide) (List.forall_mem_map.mpr fun i _ => intTokens_legible i)

/-! ### The operands that are written -/

theorem writtenArgs_spellable {as : List (Option Operand)} (h : argsSpellable as = true) :
    ∀ o ∈ writtenArgs as, operandSpellable o = true := by
  induction as with
  | nil => simp [writtenArgs]
  | cons a as ih =>
    cases a with
    | none => simp [writtenArgs]
    | some o =>
      simp only [argsSpellable, Bool.and_eq_true] at h
      exact List.forall_mem_cons.mpr ⟨h.1, ih h.2⟩

/-- The operands that are not written are the open ports at the end. -/
theorem padTo_writtenArgs {as : List (Option Operand)} (h : argsSpellable as = true) : padTo as.length (writtenArgs as) = as := by
  induction as with
  | nil => rfl
  | cons a as ih =>
    cases a with
    | none =>
      have hopen : ∀ b ∈ none :: as, b = none := by simpa [argsSpellable] using h
      exact (List.eq_replicate_of_mem hopen).symm
    | some o =>
      simp only [argsSpellable, Bool.and_eq_true] at h
      simpa [padTo, writtenArgs] using ih h.2

theorem writtenArgs_length_le (as : List (Option Operand)) : (writtenArgs as).length ≤ as.length := by
  induction as with
  | nil => simp [writtenArgs]
  | cons a as ih => cases a <;> simp [writtenArgs, ih]

/-! ### The parts of a line -/

theorem opOfTokens_run {w : List Byte} {o : OpName} (hw : w ≠ ascii "W")
    (ho : (opNames.find? fun o => decide (o.spelling = [.run w])) = some o) (rest : List Token) :
    opOfTokens (.run w :: rest) = some (o, rest) := by
  unfold opOfTokens
  split
  · next b i c ts heq =>
    cases heq
    have hquery : OpName.bitQuery.spelling ≠ [.run w, .sym b, .run i, .sym c] := fun h => by
      injection h with h; injection h with h; exact hw h.symm
    rw [if_neg hquery, ho]; rfl
  · next heq => cases heq; simp [ho]
  · next h => exact absurd rfl (h w rest)

/-- An operation's name is read back, whatever follows it. -/
theorem opOfTokens_spelling (o : OpName) (rest : List Token) : opOfTokens (o.spelling ++ rest) = some (o, rest) := by
  cases o
  case bitQuery => rfl
  all_goals exact opOfTokens_run (by decide) (by decide) rest

/-- Width parameters are read back where what follows them does not begin like them. -/
theorem paramsOfTokens_paramTokens (ps : List Int) {rest : List Token} (h : ∀ t ts, rest = t :: ts → t ≠ .sym symLess) :
    paramsOfTokens (paramTokens ps ++ rest) = .ok (ps, rest) := by
  by_cases hps : ps = []
  · subst hps
    cases rest with
    | nil => rfl
    | cons t ts =>
      have ht := h t ts rfl
      cases t with
      | run cs => rfl
      | sym c => simp [paramTokens, paramsOfTokens, show c ≠ symLess from fun e => ht (e ▸ rfl)]
  · have hinside : ∀ t ∈ joinCommas (ps.map intTokens), t ≠ .sym symGreater :=
      forall_mem_joinCommas (by decide) <| List.forall_mem_map.mpr fun i _ t ht heq =>
        absurd (intTokens_plain i t ht) (by rw [heq]; decide)
    have hgroups : commaGroups 0 (joinCommas (ps.map intTokens)) = ps.map intTokens :=
      commaGroups_joinCommas (by simpa using hps) (List.forall_mem_map.mpr fun i _ => whole_of_plain (intTokens_plain i))
    have hcollect : collect intOfGroup (ps.map intTokens) = .ok ps := by
      simpa using collect_map (dec := id) fun i (_ : i ∈ ps) => show intOfGroup (intTokens i) = .ok i by simp [intOfGroup]
    simp [paramTokens, hps, paramsOfTokens, splitSym_append hinside, hgroups, hcollect]

/-- The operands do not begin like width parameters. -/
theorem operands_not_params (as : List Operand) :
    ∀ t ts, joinCommas (as.map operandTokens) = t :: ts → t ≠ .sym symLess := by
  intro t ts heq
  cases as with
  | nil => simp [joinCommas] at heq
  | cons a as =>
    obtain ⟨u, us, ha, hu⟩ := operandTokens_head a
    have htu : u = t := by cases as <;> (simp [joinCommas, ha] at heq; exact heq.1)
    exact htu ▸ hu

theorem operandsOfTokens_joinCommas {o : OpName} {as : List Operand} (hl : as.length ≤ o.kinds.length)
    (h : ∀ a ∈ as, operandSpellable a = true) : operandsOfTokens o (joinCommas (as.map operandTokens)) = .ok as := by
  have hgroups : groups (joinCommas (as.map operandTokens)) = as.map operandTokens := by
    refine groups_joinCommas (List.forall_mem_map.mpr fun a _ => ?_) (List.forall_mem_map.mpr fun a _ => whole_operandTokens a)
    obtain ⟨t, ts, heq, -⟩ := operandTokens_head a
    simp [heq]
  have hcollect := collect_map (f := fun p : PortKind × List Token => operandOfGroup p.1 p.2)
    (enc := Prod.map id operandTokens) (dec := Prod.snd) (l := o.kinds.zip as)
    fun p hp => operandOfGroup_operandTokens p.1 (h p.2 (List.of_mem_zip hp).2)
  rw [operandsOfTokens, hgroups, List.length_map, if_neg (not_lt.mpr hl), List.zip_map_right, hcollect, List.map_snd_zip hl]

theorem results_pos (o : OpName) : 0 < o.results := by cases o <;> decide

theorem resultsOfTokens_joinCommas {o : OpName} {rs : List (Option Name)} (hl : rs.length = o.results)
    (h : ∀ r ∈ rs, resultSpellable r = true) : resultsOfTokens o (joinCommas (rs.map resultTokens)) = .ok rs := by
  have hne : rs ≠ [] := List.ne_nil_of_length_pos (hl ▸ results_pos o)
  have hgroups : commaGroups 0 (joinCommas (rs.map resultTokens)) = rs.map resultTokens :=
    commaGroups_joinCommas (by simpa using hne) (List.forall_mem_map.mpr fun r _ => whole_of_plain (resultTokens_plain r))
  have hcollect : collect resultOfGroup (rs.map resultTokens) = .ok rs := by
    simpa using collect_map (dec := id) fun r hr => resultOfGroup_resultTokens (h r hr)
  simp [resultsOfTokens, hgroups, hcollect, hl]

/-! ### The line of an instance -/

/-- A line that begins with a run is no comment. -/
theorem isComment_run {n : List Byte} (h : (Token.run n).legible = true) (ts : List Token) :
    isComment (spellTokens (.run n :: ts)) = false := by
  simp only [Token.legible, Bool.and_eq_true, Bool.not_eq_true', List.isEmpty_eq_false_iff, List.all_eq_true] at h
  obtain ⟨hne, hrun⟩ := h
  obtain ⟨c, cs, rfl⟩ := List.exists_cons_of_ne_nil hne
  have hc := hrun c List.mem_cons_self
  have hhash : c ≠ 35 := by rintro rfl; exact absurd hc (by decide)
  simp only [isComment, spellTokens, List.cons_append, List.dropWhile_cons, isBlankByte_of_isRunByte hc]
  exact beq_false_of_ne hhash

section Line

variable {p : Parts} (hs : partsSpellable p = true) (hargs : p.args.length = p.op.kinds.length)
  (hres : p.results.length = p.op.results)

include hs in
theorem parts_spellable : argsSpellable p.args = true ∧ ∀ r ∈ p.results, resultSpellable r = true := by
  simpa [partsSpellable] using hs

include hs in
theorem partsTokens_legible : ∀ t ∈ partsTokens p, t.legible = true := by
  obtain ⟨ha, hr⟩ := parts_spellable hs
  have heq : (Token.sym symEquals).legible = true := by decide
  have hres := joinCommas_legible (List.forall_mem_map.mpr fun r h => resultTokens_legible (hr r h))
  have hops := joinCommas_legible (List.forall_mem_map.mpr fun o h => operandTokens_legible (writtenArgs_spellable ha o h))
  simp only [partsTokens, List.forall_mem_append, List.forall_mem_cons]
  exact ⟨⟨⟨hres, heq, spelling_legible _⟩, paramTokens_legible _⟩, hops⟩

include hs hargs hres in
/-- The parts are found in the line written from them. -/
theorem instOfTokens_partsTokens {x : Inst} (hb : build p.op p.params p.args p.results = some x) :
    instOfTokens (partsTokens p) = .ok x := by
  obtain ⟨ha, hr⟩ := parts_spellable hs
  have hlhs : ∀ t ∈ joinCommas (p.results.map resultTokens), t ≠ .sym symEquals :=
    forall_mem_joinCommas (by decide) <| List.forall_mem_map.mpr fun r _ t ht heq =>
      absurd (resultTokens_plain r t ht) (by rw [heq]; decide)
  have hlen : (writtenArgs p.args).length ≤ p.op.kinds.length := hargs ▸ writtenArgs_length_le p.args
  simp only [partsTokens, List.append_assoc, List.cons_append, instOfTokens, splitSym_append hlhs, opOfTokens_spelling,
    paramsOfTokens_paramTokens p.params (operands_not_params _), operandsOfTokens_joinCommas hlen (writtenArgs_spellable ha),
    resultsOfTokens_joinCommas hres hr, ← hargs, padTo_writtenArgs ha, hb]

include hs hres in
/-- A line begins with the name of a result, or with `_`: not with a word that begins a declaration. -/
theorem partsTokens_head : ∃ n ts, partsTokens p = .run n :: ts ∧ n ≠ ascii "input" ∧ n ≠ ascii "output" := by
  obtain ⟨-, hr⟩ := parts_spellable hs
  obtain ⟨r, rs, heq⟩ := List.exists_cons_of_length_pos (hres ▸ results_pos p.op)
  have hhead : ∃ n, resultTokens r = [.run n] ∧ n ≠ ascii "input" ∧ n ≠ ascii "output" := by
    cases r with
    | none => exact ⟨ascii "_", rfl, by decide, by decide⟩
    | some n =>
      have hn : nameOk n = true := hr (some n) (heq ▸ List.mem_cons_self)
      exact ⟨n, rfl, ne_of_nameOk hn (by decide), ne_of_nameOk hn (by decide)⟩
  obtain ⟨n, hn, hne⟩ := hhead
  cases rs <;> exact ⟨n, _, by simp [partsTokens, heq, joinCommas, hn]; rfl, hne⟩

include hs hargs hres in
/-- The line written from the parts of an instance is read back as it. -/
theorem decodeLine_partsTokens {x : Inst} (hb : build p.op p.params p.args p.results = some x) :
    decodeLine (spellTokens (partsTokens p)) = .ok (.inst x) := by
  obtain ⟨n, ts, heq, hin, hout⟩ := partsTokens_head hs hres
  have hlex := lexLine_spellTokens (partsTokens_legible hs)
  have hinst := instOfTokens_partsTokens hs hargs hres hb
  have hrun : (Token.run n).legible = true := partsTokens_legible hs _ (heq ▸ List.mem_cons_self)
  rw [decodeLine, if_neg (by rw [heq, isComment_run hrun]; nofun), hlex]
  rw [heq] at hinst ⊢
  simp [lineOfTokens, hin, hout, hinst]

end Line

/-! ### The parts of an instance -/

theorem instrParts_length (i : Instr) : (instrParts i).args.length = (instrParts i).op.kinds.length ∧
    (instrParts i).results.length = (instrParts i).op.results := by cases i <;> exact ⟨rfl, rfl⟩

/-- An operation is made of the parts it is written as. -/
theorem build_instrParts (i : Instr) : Laws.Parts.Statement i := by cases i <;> rfl

/-- An ALU whose function-select is no literal of three bits stays an ALU still to be selected (R91). -/
theorem buildAlu_of_not_select {D : Int} {f op1 op2 : Option Operand} {r : Option Name}
    (h : ∀ w, f = some (.lit (.word w)) → w.length ≠ Config.selectWidth) : buildAlu D f op1 op2 r = .alu D f op1 op2 r := by
  unfold buildAlu
  split
  · exact absurd rfl (h _ rfl)
  · rfl

theorem build_instParts {x : Inst} (h : x.Spellable = true) :
    build (instParts x).op (instParts x).params (instParts x).args (instParts x).results = some x := by
  cases x with
  | cell i => exact build_instrParts i
  | alu D f op1 op2 r =>
    have hf : ∀ w, f = some (.lit (.word w)) → w.length ≠ Config.selectWidth := by
      rintro w rfl
      simpa [Inst.Spellable] using (Bool.and_eq_true_iff.mp h).2
    exact congrArg some (buildAlu_of_not_select hf)

end Sys2Proof

open Sys2Proof Sys2Proof.Machine

/-- Settles O55: the line of an instance is read back token by token as its parts, and the parts make the instance. -/
theorem lineOfEncodedInstIsTheInst : Obligations.LineOfEncodedInstIsTheInst := by
  unfold Obligations.LineOfEncodedInstIsTheInst
  intro x hx
  have hs : partsSpellable (instParts x) = true := (Bool.and_eq_true_iff.mp hx).1
  have hlen : (instParts x).args.length = (instParts x).op.kinds.length ∧
      (instParts x).results.length = (instParts x).op.results := by
    cases x with
    | cell i => exact instrParts_length i
    | alu => exact ⟨rfl, rfl⟩
  exact decodeLine_partsTokens hs hlen.1 hlen.2 (build_instParts hx)

/-- Settles O54: an operation is an instance, and its line is read back as that instance. -/
theorem decodeOfEncodeIsTheInstruction : Obligations.DecodeOfEncodeIsTheInstruction := by
  unfold Obligations.DecodeOfEncodeIsTheInstruction
  intro i hi
  have hspell : (Inst.cell i).Spellable = true := Bool.and_eq_true_iff.mpr ⟨hi, rfl⟩
  rw [decode, encode, lineOfEncodedInstIsTheInst _ hspell]

/-- Settles O53: one case for each operation, and one for each function-select. -/
theorem functionSelectTable : Obligations.FunctionSelectTable := by
  unfold Obligations.FunctionSelectTable
  refine ⟨fun D a b r => ⟨by simp [definedAluCells, reservedAluCells, encodeSelect, decodeSelect], by decide⟩, ?_, ?_⟩
  · rintro ⟨f0, f1, f2⟩ D a b r
    cases f0 <;> cases f1 <;> cases f2 <;> exact ⟨rfl, rfl, rfl⟩
  · rintro ⟨f0, f1, f2⟩
    cases f0 <;> cases f1 <;> cases f2 <;> decide

/-- Settles O56: the decoder run on each line. -/
theorem sampleLinesDecode : Obligations.SampleLinesDecode := by
  unfold Obligations.SampleLinesDecode
  decide

end

section
/-! Which netlists are accepted (spec/30_encoding.md R49, spec/60_exceptions.md R100, R102), and two netlists of one ALU: one
with a reserved literal on its function-select (R44, R99), and the one that `withFetchWord` lays before the core (log 6, log 7). -/

namespace Sys2Proof.Machine

open Sys2Proof

/-! ### Orders of evaluation -/

/-- A list of instances in which each reads only wires that are known or that an earlier one drives (R22, R37). -/
def Ordered (known : List Name) : List Inst → Prop
  | [] => True
  | x :: xs => (∀ n ∈ instReads x, n ∈ known) ∧ Ordered (known ++ instDrives x) xs

theorem ordered_iff {known : List Name} {order : List Inst} : Ordered known order ↔
    ∀ (earlier later : List Inst) (x : Inst), order = earlier ++ x :: later → ∀ n ∈ instReads x,
      n ∈ known ∨ ∃ z ∈ earlier, n ∈ instDrives z := by
  induction order generalizing known with
  | nil => simp [Ordered]
  | cons y order ih =>
    rw [Ordered, ih]
    constructor
    · rintro ⟨hy, hrest⟩ earlier later x heq n hn
      cases earlier with
      | nil => cases heq; exact .inl (hy n hn)
      | cons z earlier =>
        cases heq
        simpa [or_assoc] using hrest earlier later x rfl n hn
    · intro h
      refine ⟨fun n hn => by simpa using h [] order y rfl n hn, fun earlier later x heq n hn => ?_⟩
      simpa [or_assoc] using h (y :: earlier) later x (by rw [heq, List.cons_append]) n hn

theorem Ordered.mono {known known' : List Name} {order : List Inst} (h : Ordered known order) (hsub : known ⊆ known') :
    Ordered known' order := by
  induction order generalizing known known' with
  | nil => trivial
  | cons x order ih => exact ⟨fun n hn => hsub (h.1 n hn), ih h.2 (List.append_subset.mpr
      ⟨fun n hn => List.mem_append_left _ (hsub hn), List.subset_append_right _ _⟩)⟩

/-- What remains of an order when one of its instances is evaluated before its turn is an order again. -/
theorem Ordered.remove {known : List Name} {pre post : List Inst} {x : Inst} (h : Ordered known (pre ++ x :: post)) :
    Ordered (known ++ instDrives x) (pre ++ post) := by
  induction pre generalizing known with
  | nil => exact h.2
  | cons y pre ih =>
    refine ⟨fun n hn => List.mem_append_left _ (h.1 n hn), (ih h.2).mono ?_⟩
    intro n hn
    simpa [or_assoc, or_comm, or_left_comm] using hn

theorem pickReady_eq_none {known : List Name} {xs : List Inst} (h : pickReady known xs = none) :
    ∀ x ∈ xs, instReady known x = false := by
  induction xs with
  | nil => simp
  | cons y ys ih =>
    rw [pickReady] at h
    by_cases hy : instReady known y = true
    · simp [hy] at h
    · cases hpick : pickReady known ys with
      | none => simpa [hy] using ih hpick
      | some d => simp [hy, hpick] at h

/-- Evaluating one ready instance after another gets through a list of instances exactly when they can be ordered. -/
theorem neverReady_eq_nil_iff {known : List Name} {xs : List Inst} :
    neverReady xs.length known xs = [] ↔ ∃ order : List Inst, order.Perm xs ∧ Ordered known order := by
  induction hk : xs.length generalizing known xs with
  | zero =>
    rw [List.length_eq_zero_iff] at hk
    subst hk
    simp [neverReady, Ordered]
  | succ k ih =>
    rw [neverReady]
    cases hpick : pickReady known xs with
    | none =>
      refine iff_of_false (List.ne_nil_of_length_eq_add_one hk) ?_
      rintro ⟨order, hperm, hord⟩
      obtain ⟨y, ys, rfl⟩ := List.exists_cons_of_length_eq_add_one (hperm.length_eq.trans hk)
      exact absurd (instReady_iff.mpr hord.1) (by simp [pickReady_eq_none hpick y (hperm.subset List.mem_cons_self)])
    | some d =>
      obtain ⟨x, rest⟩ := d
      have hxs := pickReady_perm hpick
      obtain ⟨-, -, -, -, hready, -⟩ := pickReady_eq_some hpick
      have hlen : rest.length = k := by simpa [hk] using hxs.length_eq
      rw [ih hlen]
      constructor
      · rintro ⟨order, hperm, hord⟩
        exact ⟨x :: order, (hperm.cons x).trans hxs, instReady_iff.mp hready, hord⟩
      · rintro ⟨order, hperm, hord⟩
        have hmem : x ∈ order := (hperm.trans hxs.symm).mem_iff.mpr List.mem_cons_self
        obtain ⟨pre, post, rfl⟩ := List.append_of_mem hmem
        exact ⟨pre ++ post, (List.perm_middle.symm.trans (hperm.trans hxs.symm)).cons_inv, hord.remove⟩

/-! ### The checks of a netlist, one by one -/

theorem inputViolation_eq_none_iff {nl : Netlist} : inputViolation nl = none ↔ ∀ d ∈ nl.inputs, tyZeroWidth d.2 = false := by
  simp [inputViolation]

theorem instViolation_eq_none_iff {pol : ReservedFPolicy} {nl : Netlist} : instViolation pol nl = none ↔
    ∀ x ∈ nl.insts, contractCheck pol (netlistTy nl) (instContract x) = none := by
  simp [instViolation]

/-- A wire has a type exactly when an input declaration or an instance drives it. -/
theorem netlistTy_ne_none_iff {nl : Netlist} {n : Name} :
    netlistTy nl n ≠ none ↔ n ∈ nl.inputs.map Prod.fst ∨ ∃ x ∈ nl.insts, n ∈ instDrives x := by
  have hdriver : netlistTy nl n ≠ none ↔ n ∈ (netlistDrivers nl).map Prod.fst := by simp [netlistTy]
  rw [hdriver, netlistDrivers_names, List.mem_append, List.mem_flatMap]

theorem outputViolation_eq_none_iff {nl : Netlist} : outputViolation nl = none ↔
    ∀ n ∈ nl.outputs, n ∈ nl.inputs.map Prod.fst ∨ ∃ x ∈ nl.insts, n ∈ instDrives x := by
  simp only [outputViolation, Option.map_eq_none_iff, List.find?_eq_none, Option.isNone_iff_eq_none, ← netlistTy_ne_none_iff,
    ne_eq]

theorem driverViolation_eq_none_iff {nl : Netlist} : driverViolation nl = none ↔
    (nl.inputs.map Prod.fst ++ nl.insts.flatMap instDrives).Nodup := by
  rw [← netlistDrivers_names, ← firstRepeated_eq_none_iff, driverViolation, Option.map_eq_none_iff]

theorem cycleViolation_eq_none_iff {nl : Netlist} : cycleViolation nl = none ↔
    ∃ order : List Inst, order.Perm nl.insts ∧ Ordered (nl.inputs.map Prod.fst) order := by
  rw [← neverReady_eq_nil_iff]
  simp only [cycleViolation, Option.map_eq_none_iff, Option.orElse_eq_none, List.head?_eq_none_iff]
  exact ⟨And.right, fun h => ⟨by rw [h]; rfl, h⟩⟩

theorem netlistCheck_eq_none_iff {pol : ReservedFPolicy} {nl : Netlist} : netlistCheck pol nl = none ↔
    (∀ d ∈ nl.inputs, tyZeroWidth d.2 = false) ∧
    (∀ x ∈ nl.insts, contractCheck pol (netlistTy nl) (instContract x) = none) ∧
    (∀ n ∈ nl.outputs, n ∈ nl.inputs.map Prod.fst ∨ ∃ x ∈ nl.insts, n ∈ instDrives x) ∧
    (nl.inputs.map Prod.fst ++ nl.insts.flatMap instDrives).Nodup ∧
    ∃ order : List Inst, order.Perm nl.insts ∧ Ordered (nl.inputs.map Prod.fst) order := by
  simp only [netlistCheck, Option.orElse_eq_none, inputViolation_eq_none_iff, instViolation_eq_none_iff,
    outputViolation_eq_none_iff, driverViolation_eq_none_iff, cycleViolation_eq_none_iff]

/-- A netlist of one instance and no inputs whose contract is not met is refused for that. -/
theorem netlistCheck_single {pol : ReservedFPolicy} {x : Inst} {outs : List Name} {e : Reason}
    (h : contractCheck pol (netlistTy ⟨[], [x], outs⟩) (instContract x) = some e) :
    netlistCheck pol ⟨[], [x], outs⟩ = some (.inst x, e) := by
  simp [netlistCheck, inputViolation, instViolation, h]

/-! ### Reserved literals -/

theorem instrContract_decodeSelect (sel : FunctionSelect) (D : Int) (a b : Option Operand) (r : Option Name) :
    instrContract (decodeSelect sel D a b r) = .alu D a b (!selectDefined sel) := by
  obtain ⟨f0, f1, f2⟩ := sel
  cases f0 <;> cases f1 <;> cases f2 <;> rfl

/-- Of the checks of an instance the one of a reserved function-select comes last (R101). -/
theorem contractCheck_reserved {tyOf : Name → Option Ty} {c : Contract} (h : contractCheck .datapath tyOf c = none)
    (hr : c.reserved = true) : contractCheck .refuse tyOf c = some .reservedFunctionSelect := by
  simp only [contractCheck, Option.map_eq_none_iff, List.find?_eq_none, contractViolations, List.forall_mem_cons] at h ⊢
  obtain ⟨h1, h2, h3, h4, h5, h6, -⟩ := h
  simp [h1, h2, h3, h4, h5, h6, hr]

/-- A literal word of a port's width passes its checks, whatever the wires' types. -/
theorem portOk_literal {tyOf : Name → Option Ty} {D : Int} {W : Word} (hne : W ≠ []) (hl : (W.length : Int) = D) :
    portOk tyOf (.wordIn D (some (.lit (.word W)))) := by
  subst hl
  simp [portOk, Port.wordIn, argZeroWidth, portUnconnected, portMismatch, portOutOfRange, operandBase, portAccepts, tyZeroWidth,
    Value.ty, hne]

section Reserved

variable {sel : FunctionSelect} {D : Int} {op1 op2 : Option Operand} {r : Option Name} {x : Inst}
  (hx : x = .cell (decodeSelect sel D op1 op2 r) ∨ x = .alu D (some (.lit (.word sel.toWord))) op1 op2 r)
include hx

/-- The contract of an ALU with a reserved literal says so, in whichever form the ALU is written (R44). -/
theorem reserved_of_literal (hsel : selectDefined sel = false) : (instContract x).reserved = true := by
  rcases hx with rfl | rfl
  · simp [instContract, instrContract_decodeSelect, Contract.alu, hsel]
  · simp [instContract, literalReserved, FunctionSelect.toWord, hsel]

/-- On literal words of its width an ALU with a literal function-select meets its contract under `datapath`. -/
theorem contractCheck_of_literals {A B : Word} (tyOf : Name → Option Ty) (h1 : op1 = some (.lit (.word A)))
    (h2 : op2 = some (.lit (.word B))) (hne : A ≠ []) (hA : (A.length : Int) = D) (hB : (B.length : Int) = D) :
    contractCheck .datapath tyOf (instContract x) = none := by
  have hAB : B.length = A.length := by omega
  have hpos : 0 < A.length := List.length_pos_iff.mpr hne
  have hp1 : portOk tyOf (.wordIn D op1) := h1 ▸ portOk_literal hne hA
  have hp2 : portOk tyOf (.wordIn D op2) := h2 ▸ portOk_literal (List.length_pos_iff.mp (by omega)) hB
  rcases hx with rfl | rfl
  · rw [instContract, instrContract_decodeSelect, contractCheck_alu_eq_none_iff]
    exact ⟨by omega, hp1, hp2, fun _ => rfl⟩
  · have hF : portOk tyOf (.wordIn Config.selectWidth (some (.lit (.word sel.toWord)))) := portOk_literal nofun rfl
    rw [contractCheck_eq_none_iff]
    simp [instContract, Contract.plain, convNarrows, queryOutOfRange, hp1, hp2, hF]
    omega

end Reserved

/-! ### The netlist of `withFetchWord` -/

/-- The composition that is laid before the core to run one instruction (log 7). -/
def tableNetlist (i : Instr) : Netlist := ⟨[], [.cell i], [tableResult]⟩

theorem withFetchWord_eq {s : State} {nbits w : Nat} {i : Instr} (h : decodeTableWord nbits w = some i) :
    s.withFetchWord nbits w = s.present (tableNetlist i) [] := by
  simp only [State.withFetchWord, tableInst, h, tableNetlist]

/-- A function-select is decoded to its operation on literal words, driving one wire. -/
theorem decodeTableWord_eq_some {nbits w : Nat} {i : Instr} (h : decodeTableWord nbits w = some i) :
    ∃ f, i = decodeSelect f Config.tableWidth (some tableOperand) (some tableOperand) (some tableResult) := by
  rw [decodeTableWord] at h
  split at h
  · obtain ⟨f, -, rfl⟩ := Option.map_eq_some_iff.mp h
    exact ⟨f, rfl⟩
  · cases h

section Table

variable {f : FunctionSelect} {i : Instr}
  (hi : i = decodeSelect f Config.tableWidth (some tableOperand) (some tableOperand) (some tableResult))
include hi

theorem table_drives : instDrives (.cell i) = [tableResult] := by
  simp [instDrives, instPorts, hi, instrPorts_decodeSelect]

theorem table_reads : instReads (.cell i) = [] := by
  simp [instReads, instContract, hi, contractPorts_decodeSelect, Port.wordIn, tableOperand, operandWire]

/-- The contract is checked on literals, so the wires' types do not matter. -/
theorem table_contract (pol : ReservedFPolicy) (tyOf tyOf' : Name → Option Ty) :
    contractCheck pol tyOf (instrContract i) = contractCheck pol tyOf' (instrContract i) := by
  refine contractCheck_congr pol (fun p hp n hn => ?_) ?_
  · have hmem : n ∈ instReads (.cell i) := List.mem_filterMap.mpr ⟨p, hp, hn⟩
    simp [table_reads hi] at hmem
  · rw [hi, instrContract_decodeSelect]
    exact fun _ => nofun

/-- The one instance is accepted as a netlist where its contract is met. -/
theorem table_accepted {pol : ReservedFPolicy} {tyOf : Name → Option Ty} (h : contractCheck pol tyOf (instrContract i) = none) :
    netlistCheck pol (tableNetlist i) = none := by
  rw [netlistCheck_eq_none_iff]
  refine ⟨by simp [tableNetlist], ?_, ?_, ?_, [.cell i], .refl _, ?_⟩
  · simpa [tableNetlist, instContract, table_contract hi pol _ tyOf] using h
  · simp [tableNetlist, table_drives hi]
  · simp [tableNetlist, table_drives hi]
  · simp [Ordered, table_reads hi]

theorem table_nextInst (s : State) : (s.present (tableNetlist i) []).nextInst = some (.cell i, []) := by
  simp [State.nextInst, tableNetlist, pickReady, instReady, table_reads hi]

end Table

theorem step_of_violation {s : State} {site : Site} {e : Reason} (h : s.violation = some (site, e)) : step s = refuse site e := by
  simp only [step, h]

end Sys2Proof.Machine

open Sys2Proof Sys2Proof.Machine

/-- Settles O39: check by check; that no instance is left over means that the instances can be ordered. -/
theorem netlistIsAcceptedIffWellFormed : Obligations.NetlistIsAcceptedIffWellFormed := by
  unfold Obligations.NetlistIsAcceptedIffWellFormed
  intro pol nl
  simp only [netlistCheck_eq_none_iff, ordered_iff]

/-- Settles O59: no contract with a reserved literal is met under `refuse`; on literal words of its width every other check
passes. -/
theorem reservedLiteralIsRefusedAtDefinition : Obligations.ReservedLiteralIsRefusedAtDefinition := by
  unfold Obligations.ReservedLiteralIsRefusedAtDefinition
  intro sel D op1 op2 r x hsel hx
  have hres := reserved_of_literal hx hsel
  constructor
  · intro nl hmem hnl
    obtain ⟨-, hinsts, -⟩ := netlistCheck_eq_none_iff.mp hnl
    obtain ⟨-, -, -, -, -, hpol⟩ := (contractCheck_eq_none_iff _ _ _).mp (hinsts x hmem)
    exact absurd (hpol hres) nofun
  · intro A B h1 h2 hne hA hB
    exact netlistCheck_single (contractCheck_reserved (contractCheck_of_literals hx _ h1 h2 hne hA hB) hres)

/-- Settles O43: the netlist of the one operation is accepted exactly where the operation's contract is met, and then the
operation is the next instance. -/
theorem stepRunsTheDecodedSelect : Obligations.StepRunsTheDecodedSelect := by
  unfold Obligations.StepRunsTheDecodedSelect
  intro s nbits w i hw
  obtain ⟨f, hi⟩ := decodeTableWord_eq_some hw
  rw [withFetchWord_eq hw]
  constructor
  · intro t ht
    have hv : (s.present (tableNetlist i) []).violation = none :=
      violation_eq_none_iff.mpr ⟨table_accepted hi (exec_next ht).1, rfl⟩
    exact step_of_evalInst_next hv (table_nextInst hi s) ht
  · intro e he
    rcases exec_cases i (s.present (tableNetlist i) []) with ⟨vs, -, hexec⟩ | ⟨reason, hc, hexec⟩
    · simp [hexec] at he
    · rw [table_contract hi _ _ (netlistTy (tableNetlist i))] at hc
      have hv : (s.present (tableNetlist i) []).violation = some (.inst (.cell i), reason) := by
        have hnl : netlistCheck s.params.reservedF (tableNetlist i) = some (.inst (.cell i), reason) := netlistCheck_single hc
        simp [State.violation, hnl]
      rw [step_of_violation hv, ← hexec, he]

end

section
/-! The gates (spec/40_gates.md): on Bits each gate completes and drives the value of its composition, and the compositions that the
structure of the cells writes down have these values over any primitive. -/

namespace Sys2Proof.Machine

open Sys2Proof

/-- A gate with two inputs drives the value its rule gives for the Bits on them. -/
theorem exec_bitCell2 {p : BitCell2 × (Bit → Bit → Bit)} (hp : p ∈ bitCells2) {s : State} {a b : Option Operand} {x z : Bit}
    (y : Option Name) (ha : s.bitOf a = some x) (hb : s.bitOf b = some z) :
    exec (p.1 a b y) s = .next (s.drive [y] [.bit (p.2 x z)]) := by
  simp only [bitCells2, List.mem_cons, List.not_mem_nil, or_false] at hp
  obtain rfl | rfl | rfl | rfl | rfl := hp <;>
    exact exec_of_values (by simp [instrValues, ha, hb]) ⟨rfl, rfl, nofun⟩

theorem exec_nand {s : State} {a b : Option Operand} {x z : Bit} (y : Option Name) (ha : s.bitOf a = some x)
    (hb : s.bitOf b = some z) : exec (.nand a b y) s = .next (s.drive [y] [.bit (nandGate x z)]) :=
  exec_bitCell2 (p := (.nand, nandGate)) (by simp [bitCells2]) y ha hb

theorem exec_not {s : State} {a : Option Operand} {x : Bit} (y : Option Name) (ha : s.bitOf a = some x) :
    exec (.not a y) s = .next (s.drive [y] [.bit (notGate nandGate x)]) :=
  exec_of_values (by simp [instrValues, ha]) ⟨rfl, rfl, nofun⟩

end Sys2Proof.Machine

open Sys2Proof Sys2Proof.Machine

/-- Settles O4: NAND drives the primitive's value, which is NOT's value where both inputs carry one Bit. -/
theorem nandIsLowIffBothInputsHigh : Obligations.NandIsLowIffBothInputsHigh := by
  unfold Obligations.NandIsLowIffBothInputsHigh
  constructor
  · intro s a b y x z ha hb
    exact exec_nand y ha hb
  · intro s a y x ha
    exact ⟨_, exec_nand y ha ha, exec_not y ha⟩

/-- Settles O5: each gate drives its composition of NAND, which has the canonical table. -/
theorem derivedGatesComposeNand : Obligations.DerivedGatesComposeNand := by
  unfold Obligations.DerivedGatesComposeNand
  constructor
  · intro s a y x ha
    exact ⟨exec_not y ha, notGate_nand x⟩
  · intro s a b y x z ha hb
    have gate {p} (hp : p ∈ bitCells2) := exec_bitCell2 hp y ha hb
    exact ⟨gate (p := (.and, andGate nandGate)) (by simp [bitCells2]), andGate_nand x z,
      gate (p := (.or, orGate nandGate)) (by simp [bitCells2]), orGate_nand x z,
      gate (p := (.nor, norGate nandGate)) (by simp [bitCells2]), norGate_nand x z,
      gate (p := (.xor, xorGate nandGate)) (by simp [bitCells2]), xorGate_nand x z⟩

/-- Settles O7: each composition, evaluated on inputs left open, is the cell's own rule. -/
theorem bitCellsAreCompositionsOfThePrimitive : Obligations.BitCellsAreCompositionsOfThePrimitive := by
  unfold Obligations.BitCellsAreCompositionsOfThePrimitive
  intro g a b c
  exact ⟨rfl, rfl, rfl, rfl, rfl, rfl, rfl, rfl, rfl⟩

end

section
/-! The adder blocks and the bit multiplexer (spec/41_adders_mux.md): on Bits each completes and drives the value of its cell
function, whose arithmetic is then a law of the function alone. -/

namespace Sys2Proof.Machine

open Sys2Proof

theorem halfAdder_nand_toNat (a b : Bit) :
    2 * (halfAdder nandGate a b).carry.toNat + (halfAdder nandGate a b).sum.toNat = a.toNat + b.toNat := by
  cases a <;> cases b <;> rfl

/-- R63: the second half-adder adds the carry-in to the first one's sum, over any primitive. -/
theorem fullAdder_eq_halfAdders (g : Prim) (a b c : Bit) :
    fullAdder g a b c =
      ⟨(halfAdder g (halfAdder g a b).sum c).sum,
        orGate g (halfAdder g a b).carry (halfAdder g (halfAdder g a b).sum c).carry⟩ := rfl

section Exec

variable {s : State} {a b c : Option Operand} {x z k : Bit} (ha : s.bitOf a = some x) (hb : s.bitOf b = some z)
include ha hb

theorem exec_ha (sum carry : Option Name) :
    exec (.ha a b sum carry) s =
      .next (s.drive [sum, carry] [.bit (halfAdder nandGate x z).sum, .bit (halfAdder nandGate x z).carry]) :=
  exec_of_values (by simp [instrValues, ha, hb]) ⟨rfl, rfl, nofun⟩

/-- The carry-in is read as R28 has it, so one rule serves both an open port and a connected one. -/
theorem exec_fa (hc : s.carryOf c = some k) (sum carry : Option Name) :
    exec (.fa a b c sum carry) s =
      .next (s.drive [sum, carry] [.bit (fullAdder nandGate x z k).sum, .bit (fullAdder nandGate x z k).carry]) :=
  exec_of_values (by simp [instrValues, ha, hb, hc]) ⟨rfl, rfl, nofun⟩

theorem exec_mux (hc : s.bitOf c = some k) (y : Option Name) :
    exec (.mux a b c y) s = .next (s.drive [y] [.bit (muxGate nandGate x z k)]) :=
  exec_of_values (by simp [instrValues, ha, hb, hc]) ⟨rfl, rfl, nofun⟩

end Exec

end Sys2Proof.Machine

open Sys2Proof Sys2Proof.Machine

/-- Settles O9: HA drives the half-adder's outputs, which are the composition and add up to the inputs. -/
theorem halfAdderAddsTwoBits : Obligations.HalfAdderAddsTwoBits := by
  unfold Obligations.HalfAdderAddsTwoBits
  intro s a b sum carry x z ha hb
  exact ⟨exec_ha ha hb sum carry, halfAdder_nand_toNat x z⟩

/-- Settles O10: one rule for FA, at a connected carry-in and at an open one, which reads as `LOW`. -/
theorem fullAdderIsTwoHalfAdders : Obligations.FullAdderIsTwoHalfAdders := by
  unfold Obligations.FullAdderIsTwoHalfAdders
  constructor
  · intro s a b sum carry x z ha hb
    constructor
    · intro c k hc
      have hcarry : s.carryOf (some c) = some k := hc
      exact exec_fa ha hb hcarry sum carry
    · have hopen : s.carryOf none = some .LOW := rfl
      exact exec_fa ha hb hopen sum carry
  · exact fullAdder_eq_halfAdders nandGate

/-- Settles O11: the Bits FA drives are the full-adder's outputs, which add up to its three inputs. -/
theorem fullAdderAddsThreeBits : Obligations.FullAdderAddsThreeBits := by
  unfold Obligations.FullAdderAddsThreeBits
  intro s a b c sum carry x z k ha hb hc
  exact ⟨_, _, exec_fa ha hb hc sum carry, fullAdder_nand_toNat x z k⟩

/-- Settles O12: MUX drives the multiplexer's composition, which selects by the third input. -/
theorem muxSelectsByItsThirdInput : Obligations.MuxSelectsByItsThirdInput := by
  unfold Obligations.MuxSelectsByItsThirdInput
  intro s a b sel y x z k ha hb hsel
  exact ⟨exec_mux ha hb hsel y, muxGate_nand x z k⟩

end

section
/-! The refusals that word cells share (spec/60_exceptions.md R95, R98, R101), and the bitwise lifter (spec/42_word_ops.md section 1):
what its instances drive, and the laws of their functions. -/

namespace Sys2Proof.Machine

open Sys2Proof

/-! ### Refusals -/

/-- R98, D11: the widths are checked before anything else. -/
theorem exec_zeroWidth {s : State} {i : Instr} {D : Int} (hmem : D ∈ (instrContract i).widths) (hD : D ≤ 0) :
    exec i s = refuse (.inst (.cell i)) .zeroWidth := by
  have hzero : (instrContract i).widths.any (fun D => decide (D ≤ 0)) = true :=
    List.any_eq_true.mpr ⟨D, hmem, decide_eq_true hD⟩
  exact exec_of_violation (by simp [contractCheck, contractViolations, hzero])

theorem not_portOk_wordIn {s : State} {D : Int} {a : Option Operand} {A : Word} (hD : 0 < D) (ha : s.anyWordOf a = some A)
    (hl : (A.length : Int) ≠ D) : ¬ portOk s.tyOf (.wordIn D a) := by
  simp [portOk_wordIn_of_pos hD, State.wordOf, ha, hl]

/-- R95 for the cells that begin with two words of their width: what the ports after them are connected to is of no account, as
long as it carries a value or may be omitted. -/
theorem exec_words_widthMismatch {s : State} {i : Instr} {D : Int} {a b : Option Operand} {rest : List Port} {A B : Word}
    (hw : (instrContract i).widths = [D]) (hp : (instrContract i).ports = .wordIn D a :: .wordIn D b :: rest)
    (he : (instrContract i).extra = none) (hrest : ∀ p ∈ rest, s.Carries p.arg ∨ p.arg = none ∧ p.omissible = true)
    (hD : 0 < D) (ha : s.anyWordOf a = some A) (hb : s.anyWordOf b = some B)
    (hl : (A.length : Int) ≠ D ∨ (B.length : Int) ≠ D) : exec i s = refuse (.inst (.cell i)) .widthMismatch := by
  have hca : s.Carries a := .inr (.inl ⟨A, ha⟩)
  have hcb : s.Carries b := .inr (.inl ⟨B, hb⟩)
  refine exec_of_violation (contractCheck_widthMismatch (by simp [hw, hD]) he ?_ ?_)
  · simpa [hp, Port.wordIn, hca, hcb] using hrest
  · rcases hl with hl | hl
    · exact ⟨.wordIn D a, by simp [hp], hca, not_portOk_wordIn hD ha hl⟩
    · exact ⟨.wordIn D b, by simp [hp], hcb, not_portOk_wordIn hD hb hl⟩

/-- R95 for the cells with one word. -/
theorem exec_word_widthMismatch {s : State} {i : Instr} {D : Int} {a : Option Operand} {A : Word}
    (hw : ∀ E ∈ (instrContract i).widths, 0 < E) (hp : (instrContract i).ports = [.wordIn D a])
    (he : (instrContract i).extra = none) (hD : 0 < D) (ha : s.anyWordOf a = some A) (hl : (A.length : Int) ≠ D) :
    exec i s = refuse (.inst (.cell i)) .widthMismatch := by
  have hca : s.Carries a := .inr (.inl ⟨A, ha⟩)
  refine exec_of_violation (contractCheck_widthMismatch hw he ?_ ?_)
  · simp [hp, Port.wordIn, hca]
  · exact ⟨.wordIn D a, by simp [hp], hca, not_portOk_wordIn hD ha hl⟩

/-- A cell whose contract is that of two words of its width refuses bad widths. -/
theorem refusesBadWidths_of_contract {mk : WordCell2} (hw : ∀ D a b r, (instrContract (mk D a b r)).widths = [D])
    (hp : ∀ D a b r, (instrContract (mk D a b r)).ports = [.wordIn D a, .wordIn D b])
    (he : ∀ D a b r, (instrContract (mk D a b r)).extra = none) : RefusesBadWidths mk := by
  intro s D a b r
  constructor
  · intro A B hD ha hb hl
    exact exec_words_widthMismatch (hw D a b r) (hp D a b r) (he D a b r) (by simp) hD ha hb hl
  · exact fun hD => exec_zeroWidth (by simp [hw]) hD

/-! ### Boolean functions with equal and with constant inputs -/

@[simp] theorem boolNot_boolNot (x : Bit) : boolNot (boolNot x) = x := by cases x <;> rfl

@[simp] theorem boolAnd_self (x : Bit) : boolAnd x x = x := by cases x <;> rfl

@[simp] theorem boolAnd_low (x : Bit) : boolAnd x .LOW = .LOW := by cases x <;> rfl

@[simp] theorem boolAnd_high (x : Bit) : boolAnd x .HIGH = x := by cases x <;> rfl

@[simp] theorem boolOr_self (x : Bit) : boolOr x x = x := by cases x <;> rfl

@[simp] theorem boolOr_low (x : Bit) : boolOr x .LOW = x := by cases x <;> rfl

@[simp] theorem boolOr_high (x : Bit) : boolOr x .HIGH = .HIGH := by cases x <;> rfl

@[simp] theorem boolXor_self (x : Bit) : boolXor x x = .LOW := by cases x <;> rfl

@[simp] theorem boolXor_low (x : Bit) : boolXor x .LOW = x := by cases x <;> rfl

@[simp] theorem boolXor_high (x : Bit) : boolXor x .HIGH = boolNot x := by cases x <;> rfl

/-! ### The lifted two-input gates -/

section Lifted

variable {p : WordCell2 × (Bit → Bit → Bit)} (hp : p ∈ liftedCells)
include hp

theorem liftedCells_contract (D : Int) (a b : Option Operand) (r : Option Name) :
    instrContract (p.1 D a b r) = .plain [D] [.wordIn D a, .wordIn D b] := by
  simp only [liftedCells, List.mem_cons, List.not_mem_nil, or_false] at hp
  obtain rfl | rfl | rfl | rfl | rfl := hp <;> rfl

theorem liftedCells_refuse : RefusesBadWidths p.1 := by
  have hc := liftedCells_contract hp
  exact refusesBadWidths_of_contract (by simp [hc, Contract.plain]) (by simp [hc, Contract.plain]) (by simp [hc, Contract.plain])

theorem liftedCells_comm (x z : Bit) : p.2 x z = p.2 z x := by
  simp only [liftedCells, List.mem_cons, List.not_mem_nil, or_false] at hp
  obtain rfl | rfl | rfl | rfl | rfl := hp <;> cases x <;> cases z <;> rfl

theorem exec_lifted {s : State} {D : Int} {a b : Option Operand} {A B : Word} (r : Option Name)
    (ha : s.wordOf D a = some A) (hb : s.wordOf D b = some B) :
    exec (p.1 D a b r) s = .next (s.drive [r] [.word (lift2 p.2 A B)]) := by
  simp only [liftedCells, List.mem_cons, List.not_mem_nil, or_false] at hp
  obtain rfl | rfl | rfl | rfl | rfl := hp <;>
    exact exec_of_values (by simp [instrValues, ha, hb]) ⟨rfl, rfl, nofun⟩

end Lifted

theorem lift2_comm {gate : Bit → Bit → Bit} (h : ∀ x z, gate x z = gate z x) (A B : Word) :
    lift2 gate A B = lift2 gate B A := List.zipWith_comm_of_comm h

/-- A lifted gate on a word and itself is one gate with its inputs joined, at every position. -/
theorem lift2_self (gate : Bit → Bit → Bit) (A : Word) : lift2 gate A A = A.map fun x => gate x x := by
  simp [lift2, List.zipWith_self]

/-- R68: NOT is the primitive with its inputs joined (R57). -/
theorem lift2_nand_self (A : Word) : lift2 nandGate A A = wordNot nandGate A := lift2_self nandGate A

/-- A lifted gate with one Bit at every position of its second word. -/
theorem lift2_replicate (gate : Bit → Bit → Bit) (A : Word) (z : Bit) :
    lift2 gate A (List.replicate A.length z) = A.map fun x => gate x z := by
  induction A with
  | nil => rfl
  | cons x A ih => simpa [lift2, List.replicate_succ] using ih

theorem lift2_norGate (A B : Word) :
    lift2 (norGate nandGate) A B = wordNot nandGate (lift2 (orGate nandGate) A B) := by
  rw [lift2, wordNot, lift2, List.map_zipWith]
  rfl

/-! ### WNOT -/

theorem exec_wnot {s : State} {D : Int} {a : Option Operand} {A : Word} (r : Option Name) (ha : s.wordOf D a = some A) :
    exec (.wnot D a none r) s = .next (s.drive [r] [.word (wordNot nandGate A)]) :=
  exec_of_values (by simp [instrValues, ha]) ⟨rfl, rfl, nofun⟩

@[simp] theorem wordNot_wordNot (A : Word) : wordNot nandGate (wordNot nandGate A) = A := by
  simp [wordNot, Function.comp_def]

/-- A word and its complement add up to the largest value of their width. -/
theorem val_wordNot_add (A : Word) : Word.val (wordNot nandGate A) + Word.val A + 1 = 2 ^ A.length := by
  induction A with
  | nil => rfl
  | cons x A ih =>
    have hlen := wordNot_length nandGate A
    rw [List.length_cons, pow_succ]
    simp only [wordNot, List.map_cons, Word.val, notGate_nand] at ih hlen ⊢
    rw [hlen]
    cases x <;> simp only [boolNot, Bit.toNat] <;> omega

/-- R67, D8: a second word is refused where the first one fits and both carry values. -/
theorem contractCheck_wnot_extra {s : State} {D : Int} {a e : Option Operand} {A E : Word} (pol : ReservedFPolicy)
    (r : Option Name) (ha : s.wordOf D a = some A) (he : s.anyWordOf e = some E) :
    contractCheck pol s.tyOf (instrContract (.wnot D a e r)) = some .extraOperand := by
  obtain ⟨hD, hzero, hconn, -, -⟩ := (portOk_wordIn_iff s D a).mpr ⟨A, ha⟩
  have hezero : argZeroWidth s.tyOf e = false := (carries_port (.inr (.inl ⟨E, he⟩))).1
  have hesome : e.isSome = true := by cases e <;> simp [State.anyWordOf] at he ⊢
  simp [contractCheck, contractViolations, instrContract, Contract.plain, hD, hzero, hconn, hezero, hesome]

end Sys2Proof.Machine

open Sys2Proof Sys2Proof.Machine

/-- Settles O14: each lifted cell drives its gate zipped over the two words. -/
theorem liftedGateWorksPositionByPosition : Obligations.LiftedGateWorksPositionByPosition := by
  unfold Obligations.LiftedGateWorksPositionByPosition
  intro p hp
  refine ⟨fun s D a b r A B ha hb => ⟨_, exec_lifted hp r ha hb, ?_, fun i x z => lift2_getElem? p.2⟩, liftedCells_refuse hp⟩
  have hA := wordOf_length ha
  have hB := wordOf_length hb
  rw [lift2_length]
  omega

/-- Settles O15: the value law is that a word and its complement add up to the largest value. -/
theorem wordNotComplementsEveryPosition : Obligations.WordNotComplementsEveryPosition := by
  unfold Obligations.WordNotComplementsEveryPosition
  refine ⟨?_, ?_, ?_, ?_⟩
  · intro s D a r A ha
    refine ⟨_, exec_wnot r ha, by rw [wordNot_length, wordOf_length ha], ?_, ?_, wordNot_wordNot A⟩
    · intro i x hx
      rw [wordNot_getElem? nandGate hx, notGate_nand]
    · have := val_wordNot_add A
      omega
  · intro s D a e r A E ha he
    exact exec_of_violation (contractCheck_wnot_extra _ r ha he)
  · intro s D a r A hD ha hl
    exact exec_word_widthMismatch (by simpa [instrContract, Contract.plain] using hD) rfl rfl hD ha hl
  · intro s D a e r hD
    exact exec_zeroWidth List.mem_cons_self hD

/-- Settles O16: with the second word determined by the first a lifted gate is a map over the first, and that map is the
identity, the complement or constant. -/
theorem liftedGateCornerCases : Obligations.LiftedGateCornerCases := by
  unfold Obligations.LiftedGateCornerCases
  refine ⟨fun p hp => liftedCells_refuse hp, ?_⟩
  intro s D a b r A B ha hb
  refine ⟨?_, ?_, ?_, ?_, lift2_norGate A B⟩
  · intro p hp
    exact ⟨exec_lifted hp r ha hb, by rw [exec_lifted hp r hb ha, lift2_comm (liftedCells_comm hp)]⟩
  · rintro rfl
    exact ⟨lift2_nand_self B, by simp [lift2_self, wordNot, Word.lows]⟩
  · rintro rfl
    simp [Word.lows, lift2_replicate]
  · rintro rfl
    simp [Word.highs, lift2_replicate, wordNot]

end

section
/-! The word adder (spec/42_word_ops.md section 2): its carries, its sum as a number, and the words the spec names. -/

namespace Sys2Proof.Machine

open Sys2Proof

/-- The carry-in is read as R28 has it, so one rule serves both an open port and a connected one. -/
theorem exec_add {s : State} {D : Int} {a b cin : Option Operand} {A B : Word} {k : Bit} (ha : s.wordOf D a = some A)
    (hb : s.wordOf D b = some B) (hc : s.carryOf cin = some k) (sum cout : Option Name) :
    exec (.add D a b cin sum cout) s =
      .next (s.drive [sum, cout] [.word (rippleAdd nandGate A B k).sum, .bit (rippleAdd nandGate A B k).carry]) :=
  exec_of_values (by simp [instrValues, ha, hb, hc]) ⟨rfl, rfl, nofun⟩

/-- A carry-in that can be read is connected to what carries a value, or omitted. -/
theorem carryIn_carries {s : State} {c : Option Operand} {k : Bit} (h : s.carryOf c = some k) :
    s.Carries c ∨ c = none := by
  cases c with
  | none => exact .inr rfl
  | some o => exact .inl (.inl ⟨k, h⟩)

/-! ### The chain of carries -/

/-- R73: one full-adder, whose carry-in is the carry of the rest. -/
@[simp] theorem rippleAdd_cons (g : Prim) (a b : Bit) (A B : Word) (k : Bit) :
    rippleAdd g (a :: A) (b :: B) k =
      ⟨(fullAdder g a b (rippleAdd g A B k).carry).sum :: (rippleAdd g A B k).sum,
        (fullAdder g a b (rippleAdd g A B k).carry).carry⟩ := rfl

@[simp] theorem rippleAdd_nil (g : Prim) (B : Word) (k : Bit) : rippleAdd g [] B k = ⟨[], k⟩ := rfl

/-- R73's `c[i]`: the carry out of the positions from `i` on. -/
def carryAt (g : Prim) (A B : Word) (k : Bit) (i : Nat) : Bit := (rippleAdd g (A.drop i) (B.drop i) k).carry

@[simp] theorem carryAt_length (g : Prim) (A B : Word) (k : Bit) : carryAt g A B k A.length = k := by simp [carryAt]

/-- R73: at every position stands one full-adder, fed by the carry of the next less significant one. -/
theorem rippleAdd_position (g : Prim) {A B : Word} (k : Bit) {i : Nat} {x z : Bit} (ha : A[i]? = some x) (hb : B[i]? = some z) :
    (rippleAdd g A B k).sum[i]? = some (fullAdder g x z (carryAt g A B k (i + 1))).sum ∧
      carryAt g A B k i = (fullAdder g x z (carryAt g A B k (i + 1))).carry := by
  induction i generalizing A B with
  | zero =>
    cases A <;> cases B <;> simp at ha hb
    subst ha hb
    exact ⟨rfl, rfl⟩
  | succ i ih =>
    cases A <;> cases B <;> simp at ha hb
    exact ih ha hb

/-! ### The sum -/

/-- R74, from the law of the full-adder (R64) position by position. -/
theorem rippleAdd_val {A B : Word} (h : A.length = B.length) (k : Bit) :
    Word.val (rippleAdd nandGate A B k).sum + 2 ^ A.length * (rippleAdd nandGate A B k).carry.toNat =
      Word.val A + Word.val B + k.toNat := by
  induction A generalizing B with
  | nil =>
    cases B with
    | nil => simp [Word.val]
    | cons => simp at h
  | cons a A ih =>
    cases B with
    | nil => simp at h
    | cons b B =>
      have hAB : A.length = B.length := by simpa using h
      have hlow := ih hAB
      have hhere := fullAdder_nand_toNat a b (rippleAdd nandGate A B k).carry
      simp only [rippleAdd_cons, Word.val, rippleAdd_length, List.length_cons, ← hAB, min_self]
      linear_combination hlow + 2 ^ A.length * hhere

theorem rippleAdd_val_mod {A B : Word} (h : A.length = B.length) (k : Bit) :
    Word.val (rippleAdd nandGate A B k).sum = (Word.val A + Word.val B + k.toNat) % 2 ^ A.length := by
  have hlt := val_lt (rippleAdd nandGate A B k).sum
  rw [rippleAdd_length, ← h, min_self] at hlt
  rw [← rippleAdd_val h, Nat.add_mul_mod_self_left, Nat.mod_eq_of_lt hlt]

theorem rippleAdd_carry_iff {A B : Word} (h : A.length = B.length) (k : Bit) :
    (rippleAdd nandGate A B k).carry = .HIGH ↔ 2 ^ A.length ≤ Word.val A + Word.val B + k.toNat := by
  have hlt := val_lt (rippleAdd nandGate A B k).sum
  rw [rippleAdd_length, ← h, min_self] at hlt
  rw [← rippleAdd_val h]
  cases (rippleAdd nandGate A B k).carry <;> simp [Bit.toNat, hlt]

/-- D20: the two's-complement reading and `val` agree modulo `2^D`. -/
theorem sval_sub_val_dvd (A : Word) : (2 ^ A.length : Int) ∣ Word.sval A - Word.val A := by
  unfold Word.sval
  split <;> simp

theorem rippleAdd_sval {A B : Word} (h : A.length = B.length) (k : Bit) :
    (2 ^ A.length : Int) ∣ Word.sval (rippleAdd nandGate A B k).sum - (Word.sval A + Word.sval B + k.toNat) := by
  have hS := sval_sub_val_dvd (rippleAdd nandGate A B k).sum
  have hB := sval_sub_val_dvd B
  rw [rippleAdd_length, ← h, min_self] at hS
  rw [← h] at hB
  obtain ⟨u, hu⟩ := hS
  obtain ⟨v, hv⟩ := sval_sub_val_dvd A
  obtain ⟨w, hw⟩ := hB
  have hval : (Word.val (rippleAdd nandGate A B k).sum : Int) + 2 ^ A.length * (rippleAdd nandGate A B k).carry.toNat =
      Word.val A + Word.val B + k.toNat := mod_cast rippleAdd_val h k
  exact ⟨u - v - w - (rippleAdd nandGate A B k).carry.toNat, by linear_combination hu - hv - hw + hval⟩

theorem rippleAdd_comm (A B : Word) (k : Bit) : rippleAdd nandGate A B k = rippleAdd nandGate B A k := by
  have hfull : ∀ a b c, fullAdder nandGate a b c = fullAdder nandGate b a c := by
    intro a b c; cases a <;> cases b <;> rfl
  induction A generalizing B with
  | nil => cases B <;> rfl
  | cons a A ih =>
    cases B with
    | nil => rfl
    | cons b B => rw [rippleAdd_cons, rippleAdd_cons, ih, hfull]

/-! ### The words R73 names -/

theorem rippleAdd_lows (A : Word) : rippleAdd nandGate A (Word.lows A.length) .LOW = ⟨A, .LOW⟩ := by
  have hfull : ∀ a, fullAdder nandGate a .LOW .LOW = ⟨a, .LOW⟩ := by intro a; cases a <;> rfl
  induction A with
  | nil => rfl
  | cons a A ih =>
    rw [Word.lows] at ih
    simp [Word.lows, List.replicate_succ, ih, hfull]

theorem rippleAdd_highs_lows (D : Nat) :
    rippleAdd nandGate (Word.highs D) (Word.lows D) .HIGH = ⟨Word.lows D, .HIGH⟩ := by
  have hfull : fullAdder nandGate .HIGH .LOW .HIGH = ⟨.LOW, .HIGH⟩ := rfl
  induction D with
  | zero => rfl
  | succ D ih =>
    rw [Word.highs, Word.lows] at ih
    simp [Word.highs, Word.lows, List.replicate_succ, ih, hfull]

theorem rippleAdd_highs_highs (D : Nat) :
    rippleAdd nandGate (Word.highs D) (Word.highs D) .HIGH = ⟨Word.highs D, .HIGH⟩ := by
  have hfull : fullAdder nandGate .HIGH .HIGH .HIGH = ⟨.HIGH, .HIGH⟩ := rfl
  induction D with
  | zero => rfl
  | succ D ih =>
    rw [Word.highs] at ih
    simp [Word.highs, List.replicate_succ, ih, hfull]

end Sys2Proof.Machine

open Sys2Proof Sys2Proof.Machine

/-- Settles O17: the carries are those out of the positions from `i` on. -/
theorem adderRipplesFromTheLeastSignificantPosition : Obligations.AdderRipplesFromTheLeastSignificantPosition := by
  unfold Obligations.AdderRipplesFromTheLeastSignificantPosition
  refine ⟨?_, ?_, rippleAdd_lows, fun D => ⟨rippleAdd_highs_lows D, rippleAdd_highs_highs D⟩⟩
  · intro s D a b cin sum cout A B ha hb k hk
    have hc : s.carryOf cin = some k := by
      rcases hk with ⟨rfl, rfl⟩ | hk
      · rfl
      · cases cin with
        | none => simp [State.bitOf] at hk
        | some o => exact hk
    have hA := wordOf_length ha
    have hB := wordOf_length hb
    refine ⟨_, carryAt nandGate A B k, exec_add ha hb hc sum cout, ?_, carryAt_length nandGate A B k,
      fun i x z => rippleAdd_position nandGate k⟩
    rw [rippleAdd_length]
    omega
  · intro s D a b cin sum cout
    constructor
    · intro A B k hD ha hb hc hl
      have hrest : ∀ p ∈ [Port.carryIn cin], s.Carries p.arg ∨ p.arg = none ∧ p.omissible = true := by
        simpa [Port.carryIn] using carryIn_carries hc
      exact exec_words_widthMismatch rfl rfl rfl hrest hD ha hb hl
    · exact fun hD => exec_zeroWidth List.mem_cons_self hD

/-- Settles O18: the sum law of the adder, and what follows from it. -/
theorem adderComputesTheBinarySum : Obligations.AdderComputesTheBinarySum := by
  unfold Obligations.AdderComputesTheBinarySum
  intro s D a b cin sum cout A B k ha hb hc
  have hlen : A.length = B.length := by
    have hA := wordOf_length ha
    have hB := wordOf_length hb
    omega
  refine ⟨_, _, exec_add ha hb hc sum cout, rippleAdd_val hlen k, rippleAdd_val_mod hlen k, rippleAdd_carry_iff hlen k,
    rippleAdd_sval hlen k, ?_⟩
  rw [exec_add hb ha hc, rippleAdd_comm B A]

end

section
/-! The word multiplexer and what splits at a position (spec/42_word_ops.md section 3). -/

namespace Sys2Proof.Machine

open Sys2Proof

/-! ### The word multiplexer -/

theorem exec_wmux {s : State} {D : Int} {a b sel : Option Operand} {A B : Word} {k : Bit} (r : Option Name)
    (ha : s.wordOf D a = some A) (hb : s.wordOf D b = some B) (hk : s.bitOf sel = some k) :
    exec (.wmux D a b sel r) s = .next (s.drive [r] [.word (wordMux nandGate A B k)]) :=
  exec_of_values (by simp [instrValues, ha, hb, hk]) ⟨rfl, rfl, nofun⟩

/-- R75: one select bit chooses a whole word, since it makes the same choice at every position. -/
theorem wordMux_nand {A B : Word} (h : A.length = B.length) (k : Bit) :
    wordMux nandGate A B k = if k = .LOW then A else B := by
  refine List.ext_getElem (by split <;> simp [h]) fun i _ _ => ?_
  simp only [wordMux, List.getElem_zipWith, muxGate_nand]
  split <;> rfl

theorem anyWordOf_of_wordOf {s : State} {D : Int} {a : Option Operand} {W : Word} (h : s.wordOf D a = some W) :
    s.anyWordOf a = some W := by
  obtain ⟨hread, hpos, -⟩ := wordOf_eq_some_iff.mp h
  exact anyWordOf_eq_some_iff.mpr ⟨hread, hpos⟩

/-- What carries a Word carries no Bit. -/
theorem bitOf_of_anyWordOf {s : State} {a : Option Operand} {W : Word} (h : s.anyWordOf a = some W) : s.bitOf a = none := by
  obtain ⟨hread, -⟩ := anyWordOf_eq_some_iff.mp h
  simp [State.bitOf, hread]

/-- R75: two words that fit do not make up for a word as select. -/
theorem contractCheck_wmux_word_select {s : State} {D : Int} {a b sel : Option Operand} {A B K : Word} (pol : ReservedFPolicy)
    (r : Option Name) (ha : s.wordOf D a = some A) (hb : s.wordOf D b = some B) (hk : s.anyWordOf sel = some K) :
    contractCheck pol s.tyOf (instrContract (.wmux D a b sel r)) = some .widthMismatch := by
  have word {o : Option Operand} {W : Word} (h : s.wordOf D o = some W) : s.Carries o :=
    .inr (.inl ⟨W, anyWordOf_of_wordOf h⟩)
  have hsel : s.Carries sel := .inr (.inl ⟨K, hk⟩)
  have hnot : ¬ portOk s.tyOf (.bitIn sel) := by simp [portOk_bitIn_iff, bitOf_of_anyWordOf hk]
  refine contractCheck_widthMismatch (by simpa [instrContract, Contract.plain] using wordOf_pos ha) rfl ?_ ?_
  · simp [instrContract, Contract.plain, Port.wordIn, Port.bitIn, word ha, word hb, hsel]
  · exact ⟨.bitIn sel, by simp [instrContract, Contract.plain], hsel, hnot⟩

/-! ### Words in two parts -/

theorem lift2_append (gate : Bit → Bit → Bit) {A1 B1 : Word} (h : A1.length = B1.length) (A2 B2 : Word) :
    lift2 gate (A1 ++ A2) (B1 ++ B2) = lift2 gate A1 B1 ++ lift2 gate A2 B2 := List.zipWith_append h

theorem wordNot_append (g : Prim) (A1 A2 : Word) : wordNot g (A1 ++ A2) = wordNot g A1 ++ wordNot g A2 := List.map_append

theorem wordMux_append (g : Prim) {A1 B1 : Word} (h : A1.length = B1.length) (A2 B2 : Word) (k : Bit) :
    wordMux g (A1 ++ A2) (B1 ++ B2) k = wordMux g A1 B1 k ++ wordMux g A2 B2 k := List.zipWith_append h

/-- R76: the carry out of the less significant part is the carry into the more significant one. -/
theorem rippleAdd_append (g : Prim) {A1 B1 : Word} (h : A1.length = B1.length) (A2 B2 : Word) (k : Bit) :
    rippleAdd g (A1 ++ A2) (B1 ++ B2) k =
      ⟨(rippleAdd g A1 B1 (rippleAdd g A2 B2 k).carry).sum ++ (rippleAdd g A2 B2 k).sum,
        (rippleAdd g A1 B1 (rippleAdd g A2 B2 k).carry).carry⟩ := by
  induction A1 generalizing B1 with
  | nil =>
    cases B1 with
    | nil => rfl
    | cons => simp at h
  | cons a A1 ih =>
    cases B1 with
    | nil => simp at h
    | cons b B1 =>
      have hlow := ih (by simpa using h)
      simp only [List.cons_append, rippleAdd_cons, hlow]

end Sys2Proof.Machine

open Sys2Proof Sys2Proof.Machine

/-- Settles O19: at NAND the multiplexer's choice is one of its two words; a word on the select port is no Bit. -/
theorem wordMuxSelectsAWholeWord : Obligations.WordMuxSelectsAWholeWord := by
  unfold Obligations.WordMuxSelectsAWholeWord
  intro s D a b sel r
  refine ⟨?_, ?_, ?_, ?_⟩
  · intro A B k ha hb hk
    have hA := wordOf_length ha
    have hB := wordOf_length hb
    have hmux := wordMux_nand (A := A) (B := B) (by omega) k
    refine ⟨_, exec_wmux r ha hb hk, ?_, fun i x z => wordMux_getElem? nandGate, hmux, ?_⟩
    · rw [wordMux_length]
      omega
    · rintro rfl
      rw [hmux, ite_self]
  · intro A B k hD ha hb hk hl
    have hrest : ∀ p ∈ [Port.bitIn sel], s.Carries p.arg ∨ p.arg = none ∧ p.omissible = true := by
      simpa [Port.bitIn] using .inl ⟨k, hk⟩
    exact exec_words_widthMismatch rfl rfl rfl hrest hD ha hb hl
  · intro A B K ha hb hk
    exact exec_of_violation (contractCheck_wmux_word_select _ r ha hb hk)
  · exact fun hD => exec_zeroWidth List.mem_cons_self hD

/-- Settles O20: zipping and mapping split at any position; adding does not where the less significant part carries out, as in
`01 + 01`. -/
theorem wordCellsSplitAtAnyPosition : Obligations.WordCellsSplitAtAnyPosition := by
  unfold Obligations.WordCellsSplitAtAnyPosition
  constructor
  · intro A1 A2 B1 B2 k h _
    exact ⟨fun p _ => lift2_append p.2 h A2 B2, wordNot_append nandGate A1 A2, wordMux_append nandGate h A2 B2 k,
      rippleAdd_append nandGate h A2 B2 k⟩
  · exact ⟨[.LOW], [.HIGH], [.LOW], [.HIGH], rfl, rfl, by decide⟩

end

section
/-! The width converter (spec/42_word_ops.md section 4). -/

namespace Sys2Proof.Machine

open Sys2Proof

section Conv

variable {s : State} {M D : Int} {a : Option Operand} {A : Word} (r : Option Name) (ha : s.wordOf M a = some A)
include ha

/-- R77: with widths in range CONV drives its word behind `D - M` positions of `LOW`. -/
theorem exec_conv (hMD : M ≤ D) : exec (.conv M D a r) s = .next (s.drive [r] [.word (Word.lows (D - M).toNat ++ A)]) := by
  have hM := wordOf_length ha
  have hpad : zeroExtend D.toNat A = Word.lows (D - M).toNat ++ A := by
    have hn : D.toNat - A.length = (D - M).toNat := by omega
    rw [zeroExtend, hn]
  have hwide : convNarrows (instrContract (.conv M D a r)).convert = false := by simpa [instrContract, convNarrows] using hMD
  exact exec_of_values (by simp [instrValues, ha, hpad]) ⟨rfl, hwide, nofun⟩

/-- R78: on a word of the source width the check of CONV's widths against each other is the one that fails. -/
theorem contractCheck_conv_narrow (pol : ReservedFPolicy) (hD : 0 < D) (hDM : D < M) :
    contractCheck pol s.tyOf (instrContract (.conv M D a r)) = some .convNarrowing := by
  obtain ⟨hM, hzero, hconn, htype, -⟩ := (portOk_wordIn_iff s M a).mpr ⟨A, ha⟩
  have hextra : argZeroWidth s.tyOf none = false := rfl
  simp [contractCheck, contractViolations, instrContract, Contract.plain, convNarrows, hM, hD, hDM, hzero, hconn, htype, hextra]

end Conv

/-! ### Padding with `LOW` -/

theorem val_lows_append (n : Nat) (A : Word) : Word.val (Word.lows n ++ A) = Word.val A := by
  induction n with
  | zero => rfl
  | succ n ih =>
    rw [Word.lows] at ih
    simp [Word.lows, List.replicate_succ, Word.val, Bit.toNat, ih]

/-- R77: the positions before the source word are `LOW`. -/
theorem lows_append_getElem?_lt (A : Word) {n j : Nat} (h : j < n) : (Word.lows n ++ A)[j]? = some .LOW := by
  simp [Word.lows, List.getElem?_append, h]

/-- R77: from there on stands the source word. -/
theorem lows_append_getElem?_ge (A : Word) {n j : Nat} (h : n ≤ j) : (Word.lows n ++ A)[j]? = A[j - n]? := by
  rw [List.getElem?_append_right (by simpa using h), lows_length]

/-- R79 (4): the two stretches of `LOW` are one. -/
theorem zeroExtend_zeroExtend {A : Word} {D1 D2 : Nat} (h1 : A.length ≤ D1) (h2 : D1 ≤ D2) :
    zeroExtend D2 (zeroExtend D1 A) = zeroExtend D2 A := by
  have hn : D2 - D1 + (D1 - A.length) = D2 - A.length := by omega
  rw [zeroExtend, zeroExtend_length h1, zeroExtend, ← List.append_assoc, Word.lows, Word.lows, List.replicate_append_replicate, hn]
  rfl

end Sys2Proof.Machine

open Sys2Proof Sys2Proof.Machine

/-- Settles O21: what CONV drives is read position by position; each refusal is the first check of R101 that fails. -/
theorem convZeroExtends : Obligations.ConvZeroExtends := by
  unfold Obligations.ConvZeroExtends
  intro s M D a r
  refine ⟨?_, ?_, ?_, ?_⟩
  · intro A ha hMD
    have hM := wordOf_length ha
    refine ⟨_, exec_conv r ha hMD, ?_, fun j hj => lows_append_getElem?_lt A (by omega),
      fun j hj => lows_append_getElem?_ge A (by omega)⟩
    rw [List.length_append, lows_length]
    omega
  · intro A ha hD hDM
    exact exec_of_violation (contractCheck_conv_narrow r ha _ hD hDM)
  · intro A hM hD ha hl
    exact exec_word_widthMismatch (by simp [instrContract, Contract.plain, hM, hD]) rfl rfl hM ha hl
  · rintro (hM | hD)
    · exact exec_zeroWidth List.mem_cons_self hM
    · exact exec_zeroWidth (List.mem_cons_of_mem M List.mem_cons_self) hD

/-- Settles O22: positions that hold `LOW` count nothing, and dropping or taking as many gives back the parts. -/
theorem convKeepsTheValue : Obligations.ConvKeepsTheValue := by
  unfold Obligations.ConvKeepsTheValue
  constructor
  · intro s M D a r A ha hMD
    refine ⟨_, exec_conv r ha hMD, val_lows_append _ A, List.drop_left' (lows_length _), List.take_left' (lows_length _), ?_⟩
    rintro rfl
    simp [Word.lows]
  · exact fun A D1 D2 => zeroExtend_zeroExtend

end

section
/-! The ALU (spec/43_alu.md section 2): its composition at NAND, the operation each function-select runs, and the refusals R81 lists. -/

namespace Sys2Proof.Machine

open Sys2Proof

/-! ### The composition at NAND -/

theorem wordMux_nand_high {A B : Word} (h : A.length = B.length) (k : Bit) :
    wordMux nandGate A B k = if k = .HIGH then B else A := by
  rw [wordMux_nand h]
  cases k <;> rfl

/-- R80: `op2'` is the second operand, complemented where `f0` is `HIGH`. -/
theorem aluOp2_nand (f : FunctionSelect) (B : Word) :
    aluOp2 nandGate f B = if f.f0 = .HIGH then wordNot nandGate B else B :=
  wordMux_nand_high (wordNot_length nandGate B).symm f.f0

/-- R86: a multiplexer with equal words on its inputs passes them, and so does none. -/
@[simp] theorem muxSum_nand (sel : MuxSumSel) (f : FunctionSelect) (W : Word) : muxSum nandGate sel f W = W := by
  cases sel <;> simp [muxSum, wordMux_nand]

theorem aluArithmetic_nand (sel : MuxSumSel) (f : FunctionSelect) (A B : Word) :
    aluArithmetic nandGate sel f A B = (rippleAdd nandGate A (aluOp2 nandGate f B) f.f0).sum :=
  muxSum_nand sel f _

theorem aluLogic_nand (f : FunctionSelect) (A B : Word) :
    aluLogic nandGate f A B =
      if f.f1 = .HIGH then lift2 (andGate nandGate) A (aluOp2 nandGate f B) else lift2 (orGate nandGate) A (aluOp2 nandGate f B) :=
  wordMux_nand_high (by simp) f.f1

/-- R80: `f2` chooses between the two paths. -/
theorem aluDatapath_nand (sel : MuxSumSel) (f : FunctionSelect) (A B : Word) :
    aluDatapath nandGate sel f A B =
      if f.f2 = .HIGH then (rippleAdd nandGate A (aluOp2 nandGate f B) f.f0).sum else aluLogic nandGate f A B := by
  rw [aluDatapath, wordMux_nand_high (by simp [aluLogic, aluArithmetic]), aluArithmetic_nand]

section Values

variable (sel : MuxSumSel) (A B : Word)

@[simp] theorem aluDatapath_or :
    aluDatapath nandGate sel ⟨.LOW, .LOW, .LOW⟩ A B = lift2 (orGate nandGate) A B := by
  simp [aluDatapath_nand, aluLogic_nand, aluOp2_nand]

@[simp] theorem aluDatapath_and :
    aluDatapath nandGate sel ⟨.LOW, .HIGH, .LOW⟩ A B = lift2 (andGate nandGate) A B := by
  simp [aluDatapath_nand, aluLogic_nand, aluOp2_nand]

@[simp] theorem aluDatapath_add :
    aluDatapath nandGate sel ⟨.LOW, .LOW, .HIGH⟩ A B = (rippleAdd nandGate A B .LOW).sum := by
  simp [aluDatapath_nand, aluOp2_nand]

@[simp] theorem aluDatapath_sub :
    aluDatapath nandGate sel ⟨.HIGH, .LOW, .HIGH⟩ A B = (rippleAdd nandGate A (wordNot nandGate B) .HIGH).sum := by
  simp [aluDatapath_nand, aluOp2_nand]

end Values

/-! ### The operation of a function-select -/

theorem wordOf_length_eq {s : State} {D : Int} {a b : Option Operand} {A B : Word} (ha : s.wordOf D a = some A)
    (hb : s.wordOf D b = some B) : A.length = B.length := by
  have hA := wordOf_length ha
  have hB := wordOf_length hb
  omega

theorem instrValues_decodeSelect (s : State) (sel : FunctionSelect) (D : Int) (op1 op2 : Option Operand) (r : Option Name) :
    instrValues s (decodeSelect sel D op1 op2 r) = s.aluValue sel D op1 op2 := by
  obtain ⟨f0, f1, f2⟩ := sel
  cases f0 <;> cases f1 <;> cases f2 <;> rfl

section Exec

variable {s : State} {D : Int} {op1 op2 : Option Operand} {A B : Word} {sel : FunctionSelect} (r : Option Name)
  (h1 : s.wordOf D op1 = some A) (h2 : s.wordOf D op2 = some B)
include h1 h2

/-- R80, R87: the operation of a function-select that is defined, or that the policy admits, drives the composition's value. -/
theorem exec_decodeSelect (hsel : selectDefined sel = true ∨ s.params.reservedF = .datapath) :
    exec (decodeSelect sel D op1 op2 r) s =
      .next (s.drive [r] [.word (aluDatapath nandGate s.params.muxSum sel A B)]) := by
  have hv : instrValues s (decodeSelect sel D op1 op2 r) = some [.word (aluDatapath nandGate s.params.muxSum sel A B)] := by
    simp [instrValues_decodeSelect, State.aluValue, h1, h2]
  have hadm : instrAdmitted s.params.reservedF (decodeSelect sel D op1 op2 r) := by
    rw [instrAdmitted, instrContract_decodeSelect]
    exact ⟨rfl, rfl, by simpa [Contract.alu] using hsel.resolve_left⟩
  simpa [instrPorts_decodeSelect] using exec_of_values hv hadm

/-- R87: the operation of a reserved function-select fails the last check of its contract, and no other. -/
theorem exec_decodeSelect_reserved (hsel : selectDefined sel = false) (hpol : s.params.reservedF = .refuse) :
    exec (decodeSelect sel D op1 op2 r) s =
      refuse (.inst (.cell (decodeSelect sel D op1 op2 r))) .reservedFunctionSelect := by
  obtain ⟨hD, hp1, hp2⟩ := ports_two_words.mpr ⟨A, B, h1, h2⟩
  refine exec_of_violation ?_
  rw [hpol]
  refine contractCheck_reserved ?_ (by simp [instrContract_decodeSelect, Contract.alu, hsel])
  rw [instrContract_decodeSelect, contractCheck_alu_eq_none_iff]
  exact ⟨hD, hp1, hp2, fun _ => rfl⟩

theorem exec_aluOr : exec (.aluOr D op1 op2 r) s = .next (s.drive [r] [.word (lift2 (orGate nandGate) A B)]) := by
  simpa [decodeSelect] using exec_decodeSelect (sel := ⟨.LOW, .LOW, .LOW⟩) r h1 h2 (.inl rfl)

theorem exec_aluAnd : exec (.aluAnd D op1 op2 r) s = .next (s.drive [r] [.word (lift2 (andGate nandGate) A B)]) := by
  simpa [decodeSelect] using exec_decodeSelect (sel := ⟨.LOW, .HIGH, .LOW⟩) r h1 h2 (.inl rfl)

theorem exec_aluAdd : exec (.aluAdd D op1 op2 r) s = .next (s.drive [r] [.word (rippleAdd nandGate A B .LOW).sum]) := by
  simpa [decodeSelect] using exec_decodeSelect (sel := ⟨.LOW, .LOW, .HIGH⟩) r h1 h2 (.inl rfl)

theorem exec_aluSub :
    exec (.aluSub D op1 op2 r) s = .next (s.drive [r] [.word (rippleAdd nandGate A (wordNot nandGate B) .HIGH).sum]) := by
  simpa [decodeSelect] using exec_decodeSelect (sel := ⟨.HIGH, .LOW, .HIGH⟩) r h1 h2 (.inl rfl)

end Exec

/-- R81: every defined ALU operation has the contract of two words of its width. -/
theorem definedAluCells_refuse {p : WordCell2 × FunctionSelect} (hp : p ∈ definedAluCells) : RefusesBadWidths p.1 := by
  have hc : ∀ D a b r, instrContract (p.1 D a b r) = .alu D a b false := by
    simp only [definedAluCells, List.mem_cons, List.not_mem_nil, or_false] at hp
    obtain rfl | rfl | rfl | rfl := hp <;> exact fun _ _ _ _ => rfl
  exact refusesBadWidths_of_contract (fun D a b r => by rw [hc]; rfl) (fun D a b r => by rw [hc]; rfl)
    (fun D a b r => by rw [hc]; rfl)

/-! ### The logic path: equal and constant operands -/

section Logic

variable (A : Word)

@[simp] theorem lift2_or_self : lift2 (orGate nandGate) A A = A := by simp [lift2_self]

@[simp] theorem lift2_or_lows : lift2 (orGate nandGate) A (Word.lows A.length) = A := by simp [Word.lows, lift2_replicate]

@[simp] theorem lift2_or_highs : lift2 (orGate nandGate) A (Word.highs A.length) = Word.highs A.length := by
  simp [Word.highs, lift2_replicate]

@[simp] theorem lift2_and_self : lift2 (andGate nandGate) A A = A := by simp [lift2_self]

@[simp] theorem lift2_and_lows : lift2 (andGate nandGate) A (Word.lows A.length) = Word.lows A.length := by
  simp [Word.lows, lift2_replicate]

@[simp] theorem lift2_and_highs : lift2 (andGate nandGate) A (Word.highs A.length) = A := by
  simp [Word.highs, lift2_replicate]

end Logic

end Sys2Proof.Machine

open Sys2Proof Sys2Proof.Machine

/-- Settles O23: at NAND each multiplexer of the composition is a choice, and a defined function-select admits its operation. -/
theorem aluIsItsComposition : Obligations.AluIsItsComposition := by
  unfold Obligations.AluIsItsComposition
  intro f A B _
  have hvalue (sel : MuxSumSel) := aluDatapath_nand sel f A B
  rw [aluLogic_nand, aluOp2_nand] at hvalue
  refine ⟨hvalue, fun s D op1 op2 r h1 h2 hf => ?_⟩
  rw [exec_decodeSelect r h1 h2 (.inl hf), hvalue]

/-- Settles O24: ALU.OR drives the lifted OR, which with the second word given is the identity or constant. -/
theorem aluOrIsBitwiseOr : Obligations.AluOrIsBitwiseOr := by
  unfold Obligations.AluOrIsBitwiseOr
  refine ⟨fun s D op1 op2 r A B h1 h2 => ?_, definedAluCells_refuse (p := (.aluOr, _)) List.mem_cons_self⟩
  refine ⟨_, exec_aluOr r h1 h2, rfl, fun i x z => lift2_getElem? _, ?_, ?_, ?_⟩ <;> rintro rfl
  · exact lift2_or_lows A
  · exact lift2_or_self B
  · exact lift2_or_highs A

/-- Settles O25: ALU.AND drives the lifted AND, which with the second word given is the identity or constant. -/
theorem aluAndIsBitwiseAnd : Obligations.AluAndIsBitwiseAnd := by
  unfold Obligations.AluAndIsBitwiseAnd
  refine ⟨fun s D op1 op2 r A B h1 h2 => ?_,
    definedAluCells_refuse (p := (.aluAnd, ⟨.LOW, .HIGH, .LOW⟩)) (by simp [definedAluCells])⟩
  refine ⟨_, exec_aluAnd r h1 h2, rfl, fun i x z => lift2_getElem? _, ?_, ?_, ?_⟩ <;> rintro rfl
  · exact lift2_and_lows A
  · exact lift2_and_self B
  · exact lift2_and_highs A

/-- Settles O28: at NAND the multiplexer passes its word; a constant primitive makes a multiplexer that passes nothing. -/
theorem muxSumChangesNothing : Obligations.MuxSumChangesNothing := by
  unfold Obligations.MuxSumChangesNothing
  refine ⟨fun sel f A B _ => ⟨aluArithmetic_nand sel f A B, ?_⟩, ⟨fun _ _ => .LOW, .HIGH, .LOW, by decide⟩⟩
  rw [aluDatapath_nand, aluDatapath_nand]

end

section
/-! The arithmetic path of the ALU (spec/43_alu.md R84, R85, R88): its sums and differences modulo `2^D`, and the words they are in
the corner cases. -/

namespace Sys2Proof.Machine

open Sys2Proof

/-! ### Values of the words the spec names -/

@[simp] theorem val_lows (n : Nat) : Word.val (Word.lows n) = 0 := by simpa [Word.val] using val_lows_append n []

theorem wordNot_lows (n : Nat) : wordNot nandGate (Word.lows n) = Word.highs n := by
  simp [wordNot, Word.lows, Word.highs, boolNot]

theorem val_highs (n : Nat) : Word.val (Word.highs n) + 1 = 2 ^ n := by
  simpa [wordNot_lows] using val_wordNot_add (Word.lows n)

/-- R10: a word is `word_D(n)` exactly when its value is `n` modulo `2^D`. -/
theorem eq_ofVal_iff {W : Word} {D n : Nat} (hl : W.length = D) : W = Word.ofVal D n ↔ Word.val W = n % 2 ^ D :=
  ⟨fun h => by rw [h, val_ofVal], fun h => val_injective (by rw [hl, ofVal_length]) (by rw [h, val_ofVal])⟩

theorem lows_eq_ofVal (D : Nat) : Word.lows D = Word.ofVal D (2 ^ D) := (eq_ofVal_iff (lows_length D)).mpr (by simp)

/-! ### Sums and differences -/

section Arithmetic

variable {A B : Word} (h : A.length = B.length)
include h

/-- R84 as one word; every corner case of the sum is one of its value. -/
theorem sum_eq_ofVal : (rippleAdd nandGate A B .LOW).sum = Word.ofVal A.length (Word.val A + Word.val B) :=
  (eq_ofVal_iff (by simp [← h])).mpr (rippleAdd_val_mod h .LOW)

/-- The complement of a word counts, with the carry-in, as what the word lacks to `2^D`. -/
theorem val_wordNot_add_one : Word.val (wordNot nandGate B) + 1 = 2 ^ A.length - Word.val B := by
  have hnot := val_wordNot_add B
  rw [h]
  omega

theorem difference_val :
    Word.val (rippleAdd nandGate A (wordNot nandGate B) .HIGH).sum =
      (Word.val A + (2 ^ A.length - Word.val B)) % 2 ^ A.length := by
  rw [rippleAdd_val_mod (by simpa using h), add_assoc, ← val_wordNot_add_one h]
  rfl

/-- R85 as one word; every corner case of the difference is one of its value. -/
theorem difference_eq_ofVal :
    (rippleAdd nandGate A (wordNot nandGate B) .HIGH).sum =
      Word.ofVal A.length (Word.val A + (2 ^ A.length - Word.val B)) :=
  (eq_ofVal_iff (by simp [← h])).mpr (difference_val h)

/-- R85: the value of a difference, as an integer remainder. -/
theorem difference_val_int :
    (Word.val (rippleAdd nandGate A (wordNot nandGate B) .HIGH).sum : Int) =
      ((Word.val A : Int) - (Word.val B : Int)) % 2 ^ A.length := by
  have hB : Word.val B ≤ 2 ^ A.length := h ▸ (val_lt B).le
  have hcomm : (Word.val A : Int) + (2 ^ A.length - Word.val B) = (Word.val A - Word.val B) + 2 ^ A.length := by ring
  rw [difference_val h]
  push_cast [hB]
  rw [hcomm, Int.add_emod_right]

/-- R85: the dropped carry-out says that nothing is borrowed. -/
theorem difference_carry_iff :
    (rippleAdd nandGate A (wordNot nandGate B) .HIGH).carry = .HIGH ↔ Word.val B ≤ Word.val A := by
  have hnot := val_wordNot_add_one h
  have hB : Word.val B < 2 ^ A.length := h ▸ val_lt B
  rw [rippleAdd_carry_iff (by simpa using h), add_assoc, show Bit.toNat .HIGH = 1 from rfl, hnot]
  omega

/-- R88: the complement with the carry-in is the signed opposite modulo `2^D`. -/
theorem difference_sval :
    (2 ^ A.length : Int) ∣
      Word.sval (rippleAdd nandGate A (wordNot nandGate B) .HIGH).sum - (Word.sval A - Word.sval B) := by
  have hnot : (Word.val (wordNot nandGate B) : Int) + Word.val B + 1 = 2 ^ A.length := by
    rw [h]; exact_mod_cast val_wordNot_add B
  have hsum := rippleAdd_sval (A := A) (B := wordNot nandGate B) (by simpa using h) .HIGH
  have hN := sval_sub_val_dvd (wordNot nandGate B)
  have hB := sval_sub_val_dvd B
  rw [wordNot_length, ← h] at hN
  rw [← h] at hB
  obtain ⟨u, hu⟩ := hsum
  obtain ⟨v, hv⟩ := hN
  obtain ⟨w, hw⟩ := hB
  have hcarry : ((Bit.toNat .HIGH : Nat) : Int) = 1 := rfl
  exact ⟨u + v + w + 1, by linear_combination hu + hv + hw + hnot + hcarry⟩

end Arithmetic

/-! ### Corner cases -/

section Corners

variable (A : Word)

@[simp] theorem sum_lows : (rippleAdd nandGate A (Word.lows A.length) .LOW).sum = A := by rw [rippleAdd_lows]

theorem sum_self : (rippleAdd nandGate A A .LOW).sum = Word.ofVal A.length (2 * Word.val A) := by
  rw [sum_eq_ofVal rfl, two_mul]

/-- R84: adding one to the largest value wraps to zero. -/
theorem sum_highs_one (D : Nat) : (rippleAdd nandGate (Word.highs D) (Word.ofVal D 1) .LOW).sum = Word.lows D := by
  have hval : (Word.val (Word.highs D) + 1 % 2 ^ D) % 2 ^ D = 0 := by rw [Nat.add_mod_mod, val_highs, Nat.mod_self]
  refine val_injective (by simp) ?_
  rw [rippleAdd_val_mod (by simp), highs_length, val_ofVal, val_lows]
  exact hval

@[simp] theorem difference_self : (rippleAdd nandGate A (wordNot nandGate A) .HIGH).sum = Word.lows A.length := by
  rw [difference_eq_ofVal rfl, Nat.add_sub_cancel' (val_lt A).le, lows_eq_ofVal]

@[simp] theorem difference_lows : (rippleAdd nandGate A (wordNot nandGate (Word.lows A.length)) .HIGH).sum = A := by
  rw [difference_eq_ofVal (lows_length _).symm, eq_comm, eq_ofVal_iff rfl, val_lows, Nat.sub_zero, Nat.add_mod_right,
    Nat.mod_eq_of_lt (val_lt A)]

theorem lows_difference :
    (rippleAdd nandGate (Word.lows A.length) (wordNot nandGate A) .HIGH).sum =
      Word.ofVal A.length (2 ^ A.length - Word.val A) := by
  rw [difference_eq_ofVal (lows_length _), val_lows, Nat.zero_add, lows_length]

end Corners

/-- R84, R85: at width 1 the sum and the difference are both XOR. -/
theorem sum_and_difference_width_one (x z : Bit) :
    (rippleAdd nandGate [x] [z] .LOW).sum = [xorGate nandGate x z] ∧
      (rippleAdd nandGate [x] (wordNot nandGate [z]) .HIGH).sum = [xorGate nandGate x z] := by
  cases x <;> cases z <;> decide

end Sys2Proof.Machine

open Sys2Proof Sys2Proof.Machine

/-- Settles O26: ALU.ADD drives the adder's sum, and each corner case is a sum of values. -/
theorem aluAddWrapsModuloTheWidth : Obligations.AluAddWrapsModuloTheWidth := by
  unfold Obligations.AluAddWrapsModuloTheWidth
  refine ⟨fun s D op1 op2 r A B h1 h2 => ?_,
    definedAluCells_refuse (p := (.aluAdd, ⟨.LOW, .LOW, .HIGH⟩)) (by simp [definedAluCells])⟩
  refine ⟨_, exec_aluAdd r h1 h2, rfl, rippleAdd_val_mod (wordOf_length_eq h1 h2) .LOW, ?_, ?_, ?_, ?_⟩
  · rintro rfl
    exact sum_lows A
  · intro hA hB
    rw [hB, hA, highs_length]
    exact sum_highs_one A.length
  · rintro rfl
    exact sum_self B
  · rintro x z rfl rfl
    exact (sum_and_difference_width_one x z).1

/-- Settles O27: ALU.SUB drives the sum with the complement, which counts as what the second word lacks to `2^D`. -/
theorem aluSubWrapsModuloTheWidth : Obligations.AluSubWrapsModuloTheWidth := by
  unfold Obligations.AluSubWrapsModuloTheWidth
  refine ⟨fun s D op1 op2 r A B h1 h2 => ?_,
    definedAluCells_refuse (p := (.aluSub, ⟨.HIGH, .LOW, .HIGH⟩)) (by simp [definedAluCells])⟩
  have hlen := wordOf_length_eq h1 h2
  refine ⟨_, exec_aluSub r h1 h2, rfl, difference_val_int hlen, ?_, ?_, ?_, ?_, ?_, ?_⟩
  · rw [aluDroppedCarry, aluOp2_nand]
    exact difference_carry_iff hlen
  · rintro rfl
    exact difference_self B
  · rintro rfl
    exact difference_lows A
  · intro hA
    rw [hA, lows_length, hlen]
    exact lows_difference B
  · intro hlt
    have hB : Word.val B < 2 ^ A.length := hlen ▸ val_lt B
    rw [difference_val hlen, Nat.mod_eq_of_lt (by omega)]
    omega
  · rintro x z rfl rfl
    exact (sum_and_difference_width_one x z).2

/-- Settles O30: the readings differ from the values by multiples of `2^D`, so the laws of the values carry over. -/
theorem aluArithmeticHoldsForSignedReading : Obligations.AluArithmeticHoldsForSignedReading := by
  unfold Obligations.AluArithmeticHoldsForSignedReading
  intro s D op1 op2 r A B h1 h2
  have hlen := wordOf_length_eq h1 h2
  refine ⟨_, _, exec_aluAdd r h1 h2, exec_aluSub r h1 h2, ?_, difference_sval hlen⟩
  simpa [Bit.toNat] using rippleAdd_sval hlen .LOW

end

section
/-! What a position of the ALU's result depends on (spec/43_alu.md R89), and the table of its corner cases (R92). -/

namespace Sys2Proof.Machine

open Sys2Proof

/-! ### Positions -/

/-- A lifted gate looks at one position of each word for each position of its result. -/
theorem lift2_getElem?_congr (gate : Bit → Bit → Bit) {A B A' B' : Word} {i : Nat} (hA : A[i]? = A'[i]?) (hB : B[i]? = B'[i]?) :
    (lift2 gate A B)[i]? = (lift2 gate A' B')[i]? := by
  rw [lift2, lift2, List.getElem?_zipWith, List.getElem?_zipWith, hA, hB]

/-- R73: carries run towards position 0, so the positions from `i` on add up by themselves. -/
theorem rippleAdd_drop (g : Prim) {A B : Word} (h : A.length = B.length) (k : Bit) (i : Nat) :
    (rippleAdd g A B k).sum.drop i = (rippleAdd g (A.drop i) (B.drop i) k).sum := by
  have hsplit := rippleAdd_append g (A1 := A.take i) (B1 := B.take i) (by simp [h]) (A.drop i) (B.drop i) k
  rw [List.take_append_drop, List.take_append_drop] at hsplit
  by_cases hi : i ≤ A.length
  · rw [hsplit]
    exact List.drop_left' (by simp [← h, hi])
  · rw [List.drop_eq_nil_of_le (by simp [← h]; omega), List.drop_eq_nil_of_le (by omega : A.length ≤ i), rippleAdd_nil]

theorem wordNot_drop (g : Prim) (A : Word) (i : Nat) : (wordNot g A).drop i = wordNot g (A.drop i) := List.map_drop.symm

/-! ### Corner cases with an operand all `HIGH` or all `LOW` -/

section Corners

variable (A : Word)

theorem sum_highs :
    (rippleAdd nandGate A (Word.highs A.length) .LOW).sum = Word.ofVal A.length (Word.val A + 2 ^ A.length - 1) := by
  have hhighs := val_highs A.length
  rw [sum_eq_ofVal (highs_length _).symm]
  congr 1
  omega

theorem difference_highs :
    (rippleAdd nandGate A (wordNot nandGate (Word.highs A.length)) .HIGH).sum = Word.ofVal A.length (Word.val A + 1) := by
  have hhighs := val_highs A.length
  rw [difference_eq_ofVal (highs_length _).symm]
  congr 1
  omega

theorem lows_sum : (rippleAdd nandGate (Word.lows A.length) A .LOW).sum = A := by rw [rippleAdd_comm, sum_lows]

theorem lows_or : lift2 (orGate nandGate) (Word.lows A.length) A = A := by
  rw [lift2_comm (liftedCells_comm (p := (.wor, orGate nandGate)) (by simp [liftedCells])), lift2_or_lows]

theorem lows_and : lift2 (andGate nandGate) (Word.lows A.length) A = Word.lows A.length := by
  rw [lift2_comm (liftedCells_comm (p := (.wand, andGate nandGate)) (by simp [liftedCells])), lift2_and_lows]

end Corners

end Sys2Proof.Machine

open Sys2Proof Sys2Proof.Machine

/-- Settles O31: the logic path is a lifted gate, and the carries of the arithmetic path run towards position 0. -/
theorem aluResultDependsOnNoMoreSignificantPosition : Obligations.AluResultDependsOnNoMoreSignificantPosition := by
  unfold Obligations.AluResultDependsOnNoMoreSignificantPosition
  intro sel A B A' B' i hAB hA hB
  have hAB' : A'.length = B'.length := hA.trans hB.symm
  simp only [List.forall_mem_cons, List.not_mem_nil, false_imp_iff, implies_true, and_true, aluDatapath_or, aluDatapath_and,
    aluDatapath_add, aluDatapath_sub]
  constructor
  · exact fun ha hb => ⟨lift2_getElem?_congr _ ha hb, lift2_getElem?_congr _ ha hb⟩
  · intro ha hb
    constructor
    · rw [rippleAdd_drop _ hAB, rippleAdd_drop _ hAB', ha, hb]
    · rw [rippleAdd_drop _ (by simpa using hAB), rippleAdd_drop _ (by simpa using hAB'), wordNot_drop, wordNot_drop, ha, hb]

/-- Settles O32: row by row, each entry a corner case of the logic path or of the arithmetic path. -/
theorem aluCornerCases : Obligations.AluCornerCases := by
  unfold Obligations.AluCornerCases
  intro sel A _
  simp only [aluDatapath_or, aluDatapath_and, aluDatapath_add, aluDatapath_sub]
  refine ⟨fun x z => ?_, ?_, ?_, ?_, ?_⟩
  · obtain ⟨hsum, hdiff⟩ := sum_and_difference_width_one x z
    exact ⟨by simp [lift2], by simp [lift2], by rw [hsum, xorGate_nand], by rw [hdiff, xorGate_nand]⟩
  · exact ⟨lift2_or_self A, lift2_and_self A, sum_self A, difference_self A⟩
  · exact ⟨lift2_or_lows A, lift2_and_lows A, sum_lows A, difference_lows A⟩
  · exact ⟨lift2_or_highs A, lift2_and_highs A, sum_highs A, difference_highs A⟩
  · exact ⟨lows_or A, lows_and A, lows_sum A, lows_difference A⟩

end

section
/-! Reading the function-select of an ALU (spec/43_alu.md R87, R91): the operation it stands for, or the refusal of a reserved value,
which is all that can stop a step of a proper state (spec/60_exceptions.md R93, R99). -/

namespace Sys2Proof.Machine

open Sys2Proof

/-! ### Function-selects as words -/

@[simp] theorem selectOfWord_toWord (sel : FunctionSelect) : selectOfWord sel.toWord = some sel := rfl

theorem exists_toWord_eq {F : Word} (h : F.length = 3) : ∃ sel : FunctionSelect, F = sel.toWord := by
  obtain ⟨f0, f1, f2, rfl⟩ := List.length_eq_three.mp h
  exact ⟨⟨f0, f1, f2⟩, rfl⟩

/-- A literal that is refused at definition (R44) is a reserved value where it is read. -/
theorem selectDefined_of_literalReserved {s : State} {f : Option Operand} {sel : FunctionSelect} (h : literalReserved f = true)
    (hF : s.wordOf Config.selectWidth f = some sel.toWord) : selectDefined sel = false := by
  obtain ⟨hread, -⟩ := wordOf_eq_some_iff.mp hF
  unfold literalReserved at h
  split at h
  · simp only [Option.bind_some, State.read, Option.some.injEq, Value.word.injEq, FunctionSelect.toWord, List.cons.injEq,
      and_true] at hread
    obtain ⟨rfl, rfl, rfl⟩ := hread
    simpa using h
  · cases h

/-! ### An ALU whose three words can be read -/

section Select

variable {s : State} {D : Int} {f op1 op2 : Option Operand} {A B : Word} {sel : FunctionSelect} (r : Option Name)
  (hF : s.wordOf Config.selectWidth f = some sel.toWord) (h1 : s.wordOf D op1 = some A) (h2 : s.wordOf D op2 = some B)

include hF h1 h2

theorem contractCheck_alu_datapath : contractCheck .datapath s.tyOf (instContract (.alu D f op1 op2 r)) = none := by
  obtain ⟨hD, hp1, hp2⟩ := ports_two_words.mpr ⟨A, B, h1, h2⟩
  obtain ⟨-, hpF⟩ := (portOk_wordIn_iff s _ f).mpr ⟨_, hF⟩
  rw [contractCheck_eq_none_iff]
  simp [instContract, Contract.plain, convNarrows, queryOutOfRange, hD, hp1, hp2, hpF]

/-- R91: what an ALU is selected as, be its function-select a literal or read from a wire (log 23). -/
theorem select_alu :
    s.select (.alu D f op1 op2 r) =
      if selectDefined sel = false ∧ s.params.reservedF = .refuse then
        .error (.inst (.alu D f op1 op2 r), .reservedFunctionSelect)
      else .ok (decodeSelect sel D op1 op2 r) := by
  by_cases hlit : literalReserved f = true ∧ s.params.reservedF = .refuse
  · obtain ⟨hres, hpol⟩ := hlit
    have hc := contractCheck_reserved (contractCheck_alu_datapath r hF h1 h2) hres
    simp [State.select, hpol, hc, selectDefined_of_literalReserved hres hF]
  · have hpol : literalReserved f = true → s.params.reservedF = .datapath := by
      intro hres
      cases hp : s.params.reservedF with
      | refuse => exact absurd ⟨hres, hp⟩ hlit
      | datapath => rfl
    have hc := (contract_alu_iff s D f op1 op2 r).mpr ⟨⟨_, A, B, hF, h1, h2⟩, hpol⟩
    simp only [State.select, hc, hF, Option.bind_some, selectOfWord_toWord]

theorem evalInst_alu_of_admitted (hsel : selectDefined sel = true ∨ s.params.reservedF = .datapath) :
    evalInst (.alu D f op1 op2 r) s = exec (decodeSelect sel D op1 op2 r) s := by
  have hadm : ¬ (selectDefined sel = false ∧ s.params.reservedF = .refuse) := by
    rcases hsel with h | h <;> simp [h]
  rw [evalInst, select_alu r hF h1 h2, if_neg hadm]

theorem evalInst_alu_reserved (hsel : selectDefined sel = false) (hpol : s.params.reservedF = .refuse) :
    evalInst (.alu D f op1 op2 r) s = refuse (.inst (.alu D f op1 op2 r)) .reservedFunctionSelect := by
  rw [evalInst, select_alu r hF h1 h2, if_pos ⟨hsel, hpol⟩]

end Select

/-- R44: each reserved ALU operation is that of its function-select. -/
theorem reservedAluCells_decodeSelect {p : WordCell2 × FunctionSelect} (hp : p ∈ reservedAluCells) :
    selectDefined p.2 = false ∧ ∀ D op1 op2 r, p.1 D op1 op2 r = decodeSelect p.2 D op1 op2 r := by
  simp only [reservedAluCells, List.mem_cons, List.not_mem_nil, or_false] at hp
  obtain rfl | rfl | rfl | rfl := hp <;> exact ⟨rfl, fun _ _ _ _ => rfl⟩

/-! ### Steps of a proper state -/

section Proper

variable {s : State} (hs : s.Proper)
include hs

/-- Some instance left has its operands. -/
theorem nextInst_ne_none (hp : s.pending ≠ []) : s.nextInst ≠ none := by
  intro hn
  have hpick : pickReady s.known s.pending = none := hn
  have hreach := hs.reachable
  obtain ⟨k, hk⟩ := Nat.exists_eq_succ_of_ne_zero (List.length_pos_iff.mpr hp).ne'
  rw [hk, neverReady, hpick] at hreach
  exact hp hreach

/-- A wire that has a value has the type its driver gives it. -/
theorem tyOf_of_known {n : Name} (hn : n ∈ s.known) : s.tyOf n = netlistTy s.netlist n := by
  obtain ⟨v, hv⟩ := (mem_known_iff _ _).mp hn
  rw [hs.typed n v hv, State.tyOf, hv, Option.map_some]

/-- An instance of the composition that has its operands meets its contract among their values, as it did when it was defined. -/
theorem contract_of_ready {x : Inst} (hx : x ∈ s.netlist.insts) (hr : instReady s.known x = true) :
    contractCheck s.params.reservedF s.tyOf (instContract x) = none := by
  obtain ⟨-, hdef, -⟩ := netlistCheck_eq_none_iff.mp (accepted_netlist hs)
  have hnl := hdef x hx
  obtain ⟨-, -, hextra, -⟩ := (contractCheck_eq_none_iff _ _ _).mp hnl
  rw [← hnl]
  refine contractCheck_congr _ (fun p hp n hn => tyOf_of_known hs ?_) (by rw [hextra]; exact fun _ => nofun)
  exact instReady_iff.mp hr n (List.mem_filterMap.mpr ⟨p, hp, hn⟩)

end Proper

/-- An instance whose contract is met evaluates to a next state, unless it is an ALU with a reserved value on `F` under `refuse`. -/
theorem evalInst_cases {s : State} {x : Inst} (hc : contractCheck s.params.reservedF s.tyOf (instContract x) = none) :
    (∃ t, evalInst x s = .next t) ∨ s.params.reservedF = .refuse ∧
      ∃ (D : Int) (f op1 op2 : Option Operand) (r : Option Name) (sel : FunctionSelect), x = .alu D f op1 op2 r ∧
        s.wordOf Config.selectWidth f = some sel.toWord ∧ selectDefined sel = false ∧
        evalInst x s = refuse (.inst x) .reservedFunctionSelect := by
  cases x with
  | cell i =>
    obtain ⟨⟨vs, hv⟩, hadm⟩ := (contract_iff_values s i).mp hc
    exact .inl ⟨_, exec_of_values hv hadm⟩
  | alu D f op1 op2 r =>
    obtain ⟨⟨F, A, B, hF, h1, h2⟩, -⟩ := (contract_alu_iff s D f op1 op2 r).mp hc
    obtain ⟨sel, rfl⟩ := exists_toWord_eq (by exact_mod_cast wordOf_length hF)
    by_cases hres : selectDefined sel = false ∧ s.params.reservedF = .refuse
    · obtain ⟨hsel, hpol⟩ := hres
      exact .inr ⟨hpol, D, f, op1, op2, r, sel, rfl, hF, hsel, evalInst_alu_reserved r hF h1 h2 hsel hpol⟩
    · have hadm : selectDefined sel = true ∨ s.params.reservedF = .datapath := by
        cases hp : s.params.reservedF <;> simp [hp] at hres ⊢
        exact hres
      exact .inl ⟨_, (evalInst_alu_of_admitted r hF h1 h2 hadm).trans (exec_decodeSelect r h1 h2 hadm)⟩

end Sys2Proof.Machine

open Sys2Proof Sys2Proof.Machine

/-- Settles O29: under `refuse` a reserved operation fails its last check and a reserved value on `F` selects no operation; under
`datapath` each drives the composition's value. -/
theorem reservedSelectIsRefusedUnlessThePolicyAdmitsIt : Obligations.ReservedSelectIsRefusedUnlessThePolicyAdmitsIt := by
  unfold Obligations.ReservedSelectIsRefusedUnlessThePolicyAdmitsIt
  refine ⟨rfl, fun s D op1 op2 r A B h1 h2 => ⟨fun hpol => ⟨fun p hp => ?_, fun f sel hF hsel => ?_⟩, fun hpol => ?_⟩⟩
  · obtain ⟨hsel, hcell⟩ := reservedAluCells_decodeSelect hp
    rw [hcell]
    exact exec_decodeSelect_reserved r h1 h2 hsel hpol
  · exact evalInst_alu_reserved r hF h1 h2 hsel hpol
  · have hexec (sel : FunctionSelect) := exec_decodeSelect (sel := sel) r h1 h2 (.inr hpol)
    simp only [aluDatapath_nand, aluLogic_nand, aluOp2_nand] at hexec
    exact ⟨hexec ⟨.LOW, .HIGH, .HIGH⟩, hexec ⟨.HIGH, .LOW, .LOW⟩, hexec ⟨.HIGH, .HIGH, .LOW⟩, hexec ⟨.HIGH, .HIGH, .HIGH⟩⟩

/-- Settles O33: three bits on `F` are a function-select, which is selected or refused as R91 has it. -/
theorem aluReadsItsSelectAtEachEvaluation : Obligations.AluReadsItsSelectAtEachEvaluation := by
  unfold Obligations.AluReadsItsSelectAtEachEvaluation
  rintro s D f op1 op2 r F A B f0 f1 f2 hF rfl h1 h2
  have hsel : s.wordOf Config.selectWidth f = some (FunctionSelect.mk f0 f1 f2).toWord := hF
  exact ⟨evalInst_alu_of_admitted r hsel h1 h2, evalInst_alu_reserved r hsel h1 h2⟩

/-- Settles O49: the next instance has its operands, with the types it was accepted with, so its contract is met. -/
theorem onlyAReservedSelectStopsAProperState : Obligations.OnlyAReservedSelectStopsAProperState := by
  unfold Obligations.OnlyAReservedSelectStopsAProperState
  intro s e hs hstep
  rcases step_refused hstep with ⟨site, reason, hv, -⟩ | ⟨-, ⟨x, ys, hp, hn, -⟩ | ⟨x, rest, hn, he⟩⟩
  · simp [hs.accepted] at hv
  · exact absurd hn (nextInst_ne_none hs (by simp [hp]))
  · obtain ⟨hpend, hmem⟩ := nextInst_mem hs hn
    obtain ⟨-, -, -, -, hready, -⟩ := pickReady_eq_some hn
    rcases evalInst_cases (contract_of_ready hs hmem hready) with
      ⟨t, ht⟩ | ⟨hpol, D, f, op1, op2, r, sel, rfl, hF, hsel, hrefuse⟩
    · simp [ht] at he
    · refine ⟨hpol, D, f, op1, op2, r, sel, hpend, ?_, hsel, ?_⟩
      · exact (congrArg (·.bind selectOfWord) hF :)
      · rw [hrefuse, refuse, Host.Outcome.refused.injEq] at he
        exact he.symm

end

section
/-! Cycles (spec/60_exceptions.md R94, R100, R102): the levels of dependencies that `onCycle` searches reach all that an instance
depends on, and evaluating one ready instance after another leaves an instance on a cycle where it leaves any. -/

namespace Sys2Proof.Machine

open Sys2Proof

/-! ### Levels of dependencies -/

/-- The instances that drive one of some wires. -/
def driversOf (xs : List Inst) (ns : List Name) : List Inst := xs.filter fun z => (instDrives z).any fun n => decide (n ∈ ns)

theorem mem_driversOf {xs : List Inst} {ns : List Name} {z : Inst} :
    z ∈ driversOf xs ns ↔ z ∈ xs ∧ ∃ n ∈ instDrives z, n ∈ ns := by
  simp [driversOf]

theorem onCycle_iff {xs : List Inst} {x : Inst} (hx : x ∈ xs) :
    onCycle xs x = true ↔ x ∈ driversOf xs (upstream xs xs.length (instReads x)) := by
  simp [onCycle, mem_driversOf, hx]

/-- One level more is what the drivers of the last level read. -/
theorem mem_upstream_succ {xs : List Inst} {k : Nat} {ns : List Name} {n : Name} :
    n ∈ upstream xs (k + 1) ns ↔ n ∈ upstream xs k ns ∨ ∃ z ∈ driversOf xs (upstream xs k ns), n ∈ instReads z := by
  have hfold (l ms : List Name) : n ∈ l.foldr List.insert ms ↔ n ∈ ms ∨ n ∈ l := by
    induction l with
    | nil => simp
    | cons m l ih => rw [List.foldr_cons, List.mem_insert_iff, ih, List.mem_cons, or_left_comm]
  induction k generalizing ns with
  | zero =>
    simp only [upstream, hfold, List.mem_flatMap]
    rfl
  | succ k ih => exact ih

theorem upstream_mono (xs : List Inst) (ns : List Name) : Monotone fun k => {n | n ∈ upstream xs k ns} :=
  monotone_nat_of_le_succ fun _ _ hn => mem_upstream_succ.mpr (.inl hn)

theorem driversOf_congr {xs : List Inst} {ms ns : List Name} (h : ∀ n, n ∈ ms ↔ n ∈ ns) : driversOf xs ms = driversOf xs ns := by
  simp only [driversOf, h]

theorem driversOf_sublist {xs : List Inst} {ms ns : List Name} (h : ∀ n ∈ ms, n ∈ ns) :
    (driversOf xs ms).Sublist (driversOf xs ns) :=
  List.monotone_filter_right xs fun z hz => by
    simp only [List.any_eq_true, decide_eq_true_eq] at hz ⊢
    obtain ⟨n, hd, hn⟩ := hz
    exact ⟨n, hd, h n hn⟩

/-- An instance that drives a wire of some level drives one of the level `onCycle` looks at: the drivers grow with every level until
they no longer do, and there are no more of them than instances. -/
theorem driversOf_upstream_le {xs : List Inst} {ns : List Name} {k : Nat} {z : Inst} (h : z ∈ driversOf xs (upstream xs k ns)) :
    z ∈ driversOf xs (upstream xs xs.length ns) := by
  have hsub {i j : Nat} (hij : i ≤ j) : (driversOf xs (upstream xs i ns)).Sublist (driversOf xs (upstream xs j ns)) :=
    driversOf_sublist fun n hn => upstream_mono xs ns hij hn
  have hstable : ∀ i, (driversOf xs (upstream xs i ns)).length = (driversOf xs (upstream xs (i + 1) ns)).length →
      (driversOf xs (upstream xs (i + 1) ns)).length = (driversOf xs (upstream xs (i + 2) ns)).length := by
    intro i hi
    have heq := (hsub i.le_succ).eq_of_length hi
    refine congrArg List.length (driversOf_congr fun n => ⟨fun hn => upstream_mono xs ns (Nat.le_succ _) hn, fun hn => ?_⟩)
    rcases mem_upstream_succ.mp hn with hn | ⟨w, hw, hn⟩
    · exact hn
    · exact mem_upstream_succ.mpr (.inr ⟨w, heq ▸ hw, hn⟩)
  rcases le_total k xs.length with hk | hk
  · exact (hsub hk).subset h
  · have hlen := Nat.stabilises_of_monotone (fun i j hij => (hsub hij).length_le) (fun _ => List.length_filter_le _ _) hstable hk
    rwa [(hsub hk).eq_of_length hlen.symm]

/-! ### Dependencies between instances -/

/-- An instance depends on another exactly when that one drives a wire at some level of its dependencies. -/
theorem transGen_feeds_iff {nl : Netlist} {x z : Inst} (hx : x ∈ nl.insts) :
    Relation.TransGen (Feeds nl) z x ↔ ∃ k, z ∈ driversOf nl.insts (upstream nl.insts k (instReads x)) := by
  constructor
  · intro h
    induction h using Relation.TransGen.head_induction_on with
    | single h =>
      obtain ⟨hz, -, n, hd, hr⟩ := h
      exact ⟨0, mem_driversOf.mpr ⟨hz, n, hd, hr⟩⟩
    | head h _ ih =>
      obtain ⟨hz, -, n, hd, hr⟩ := h
      obtain ⟨k, hw⟩ := ih
      exact ⟨k + 1, mem_driversOf.mpr ⟨hz, n, hd, mem_upstream_succ.mpr (.inr ⟨_, hw, hr⟩)⟩⟩
  · rintro ⟨k, hk⟩
    induction k generalizing z with
    | zero =>
      obtain ⟨hz, n, hd, hn⟩ := mem_driversOf.mp hk
      exact .single ⟨hz, hx, n, hd, hn⟩
    | succ k ih =>
      obtain ⟨hz, n, hd, hn⟩ := mem_driversOf.mp hk
      rcases mem_upstream_succ.mp hn with hn | ⟨w, hw, hr⟩
      · exact ih (mem_driversOf.mpr ⟨hz, n, hd, hn⟩)
      · exact .head ⟨hz, (mem_driversOf.mp hw).1, n, hd, hr⟩ (ih hw)

/-- The search of `onCycle` finds what R94 says: an instance whose input depends on its own output. -/
theorem onCycle_iff_transGen {nl : Netlist} {x : Inst} (hx : x ∈ nl.insts) :
    onCycle nl.insts x = true ↔ Relation.TransGen (Feeds nl) x x := by
  rw [onCycle_iff hx, transGen_feeds_iff hx]
  exact ⟨fun h => ⟨_, h⟩, fun ⟨_, h⟩ => driversOf_upstream_le h⟩

/-- Among some instances, one depends on another. -/
def DependsWithin (nl : Netlist) (xs : List Inst) (z x : {y // y ∈ xs}) : Prop := Relation.TransGen (Feeds nl) z x

/-- Where each of some instances depends on one of them, one of them depends on itself. -/
theorem exists_transGen_self {nl : Netlist} {xs : List Inst} (hne : xs ≠ []) (h : ∀ x ∈ xs, ∃ z ∈ xs, Feeds nl z x) :
    ∃ x ∈ xs, Relation.TransGen (Feeds nl) x x := by
  by_contra hno
  push Not at hno
  have htrans : IsTrans _ (DependsWithin nl xs) := ⟨fun _ _ _ => Relation.TransGen.trans⟩
  have hirrefl : Std.Irrefl (DependsWithin nl xs) := ⟨fun x => hno x x.2⟩
  obtain ⟨y, hy⟩ := List.exists_mem_of_ne_nil xs hne
  obtain ⟨⟨x, hx⟩, -, hmin⟩ := (Finite.wellFounded_of_trans_of_irrefl (DependsWithin nl xs)).has_min Set.univ ⟨⟨y, hy⟩, trivial⟩
  obtain ⟨z, hz, hzx⟩ := h x hx
  exact hmin ⟨z, hz⟩ trivial (.single hzx)

/-! ### The instances that never get their operands -/

/-- The instances evaluated one after another are in order, and of those left over none is ready when they are all evaluated. -/
theorem neverReady_spec {k : Nat} {known : List Name} {xs : List Inst} (hk : xs.length ≤ k) :
    (neverReady k known xs).Sublist xs ∧ ∃ done : List Inst, (done ++ neverReady k known xs).Perm xs ∧ Ordered known done ∧
      ∀ x ∈ neverReady k known xs, instReady (known ++ done.flatMap instDrives) x = false := by
  induction k generalizing known xs with
  | zero =>
    rw [List.length_eq_zero_iff.mp (Nat.le_zero.mp hk)]
    exact ⟨.refl _, [], .refl _, trivial, by simp [neverReady]⟩
  | succ k ih =>
    rw [neverReady]
    cases hpick : pickReady known xs with
    | none => exact ⟨.refl _, [], .refl _, trivial, by simpa using pickReady_eq_none hpick⟩
    | some d =>
      obtain ⟨x, rest⟩ := d
      have hperm := pickReady_perm hpick
      obtain ⟨-, -, -, -, hready, -⟩ := pickReady_eq_some hpick
      have hlen := hperm.length_eq
      rw [List.length_cons] at hlen
      obtain ⟨hsub, done, hdone, hord, hleft⟩ := ih (known := known ++ instDrives x) (xs := rest) (by omega)
      refine ⟨hsub.trans (pickReady_sublist hpick), x :: done, (hdone.cons x).trans hperm, ⟨instReady_iff.mp hready, hord⟩, ?_⟩
      simpa using hleft

/-- A wire that an instance meeting its contract reads has a driver (R100). -/
theorem typed_of_portOk {tyOf : Name → Option Ty} {p : Port} {n : Name} (h : portOk tyOf p)
    (hn : p.arg.bind operandWire = some n) : tyOf n ≠ none := by
  obtain ⟨-, hconn, -, -⟩ := h
  obtain ⟨o, ho, hwire⟩ := Option.bind_eq_some_iff.mp hn
  cases o <;> simp_all [portUnconnected, operandBase, operandWire, Option.isSome_iff_ne_none]

section Stuck

variable {pol : ReservedFPolicy} {nl : Netlist}

/-- The instances left over are fed by one another: each of them reads a wire that another of them drives. -/
theorem stuck_fed (h : instViolation pol nl = none) {x : Inst}
    (hx : x ∈ neverReady nl.insts.length (nl.inputs.map Prod.fst) nl.insts) :
    ∃ z ∈ neverReady nl.insts.length (nl.inputs.map Prod.fst) nl.insts, Feeds nl z x := by
  obtain ⟨hsub, done, hperm, -, hleft⟩ := neverReady_spec (known := nl.inputs.map Prod.fst) (le_refl nl.insts.length)
  have hnot := hleft x hx
  rw [Bool.eq_false_iff, ne_eq, instReady_iff] at hnot
  push Not at hnot
  obtain ⟨n, hr, hn⟩ := hnot
  simp only [List.mem_append, List.mem_flatMap, not_or, not_exists, not_and] at hn
  obtain ⟨hninput, hndone⟩ := hn
  obtain ⟨p, hp, hwire⟩ := List.mem_filterMap.mp hr
  obtain ⟨-, hports, -⟩ := (contractCheck_eq_none_iff _ _ _).mp (instViolation_eq_none_iff.mp h x (hsub.subset hx))
  obtain ⟨z, hz, hd⟩ := (netlistTy_ne_none_iff.mp (typed_of_portOk (hports p hp) hwire)).resolve_left hninput
  rcases List.mem_append.mp (hperm.mem_iff.mpr hz) with hzdone | hzleft
  · exact absurd hd (hndone z hzdone)
  · exact ⟨z, hzleft, hz, hsub.subset hx, n, hd, hr⟩

/-- Where no wire has two drivers, no wire has two driving instances. -/
theorem driver_eq_of_driverViolation (h : driverViolation nl = none) {x z : Inst} (hx : x ∈ nl.insts) (hz : z ∈ nl.insts)
    {n : Name} (hnx : n ∈ instDrives x) (hnz : n ∈ instDrives z) : x = z := by
  by_contra hne
  obtain ⟨-, hdisjoint⟩ := List.nodup_flatMap.mp (driverViolation_eq_none_iff.mp h).of_append_right
  have hsymm : Std.Symm (Function.onFun List.Disjoint instDrives) := ⟨fun _ _ hd => hd.symm⟩
  exact hdisjoint.forall hx hz hne hnx hnz

/-- Instances in order are on no cycle, if the instances that drive the known wires are not. -/
theorem Ordered.not_transGen (h : driverViolation nl = none) {known : List Name} {order : List Inst} (hord : Ordered known order)
    (hmem : ∀ x ∈ order, x ∈ nl.insts)
    (hknown : ∀ n ∈ known, ∀ z ∈ nl.insts, n ∈ instDrives z → ¬Relation.TransGen (Feeds nl) z z) :
    ∀ x ∈ order, ¬Relation.TransGen (Feeds nl) x x := by
  induction order generalizing known with
  | nil => simp
  | cons y order ih =>
    obtain ⟨hreads, hrest⟩ := hord
    obtain ⟨hy, hmem⟩ := List.forall_mem_cons.mp hmem
    have hyc : ¬Relation.TransGen (Feeds nl) y y := by
      intro hc
      obtain ⟨w, hyw, hfeeds⟩ := Relation.TransGen.tail'_iff.mp hc
      have ⟨hw, _, n, hd, hr⟩ := hfeeds
      exact hknown n (hreads n hr) w hw hd (.head' hfeeds hyw)
    refine List.forall_mem_cons.mpr ⟨hyc, ih hrest hmem fun n hn z hz hd => ?_⟩
    rcases List.mem_append.mp hn with hn | hn
    · exact hknown n hn z hz hd
    · exact driver_eq_of_driverViolation h hy hz hn hd ▸ hyc

/-- The instances on a cycle are all left over, in written order. -/
theorem stuck_filter_onCycle (h : driverViolation nl = none) :
    (neverReady nl.insts.length (nl.inputs.map Prod.fst) nl.insts).filter (onCycle nl.insts) =
      nl.insts.filter (onCycle nl.insts) := by
  obtain ⟨hsub, done, hperm, hord, -⟩ := neverReady_spec (known := nl.inputs.map Prod.fst) (le_refl nl.insts.length)
  have hmem : ∀ x ∈ done, x ∈ nl.insts := fun x hx => hperm.subset (List.mem_append_left _ hx)
  have hinput : ∀ n ∈ nl.inputs.map Prod.fst, ∀ z ∈ nl.insts, n ∈ instDrives z → ¬Relation.TransGen (Feeds nl) z z :=
    fun n hn z hz hd => absurd (List.mem_flatMap.mpr ⟨z, hz, hd⟩)
      (List.disjoint_of_nodup_append (driverViolation_eq_none_iff.mp h) hn)
  have hdone : done.filter (onCycle nl.insts) = [] :=
    List.filter_eq_nil_iff.mpr fun x hx hc => hord.not_transGen h hmem hinput x hx ((onCycle_iff_transGen (hmem x hx)).mp hc)
  have hlen := (hperm.filter (onCycle nl.insts)).length_eq
  rw [List.filter_append, hdone, List.nil_append] at hlen
  exact (hsub.filter _).eq_of_length hlen

end Stuck

/-! ### The refusal of a cycle -/

/-- No instance is refused for a cycle: that check looks at the netlist as a whole (R101). -/
theorem contractCheck_ne_combinationalCycle (pol : ReservedFPolicy) (tyOf : Name → Option Ty) (c : Contract) :
    contractCheck pol tyOf c ≠ some .combinationalCycle := by
  intro h
  obtain ⟨p, hp, hr⟩ := Option.map_eq_some_iff.mp h
  have hmem := List.mem_of_find?_eq_some hp
  simp only [contractViolations, List.mem_cons, List.not_mem_nil, or_false] at hmem
  obtain rfl | rfl | rfl | rfl | rfl | rfl | rfl := hmem <;> cases hr

/-- The check for cycles is the last: where it refuses a netlist, the others have passed (R101). -/
theorem checks_of_cycle {pol : ReservedFPolicy} {nl : Netlist} {site : Site}
    (h : netlistCheck pol nl = some (site, .combinationalCycle)) :
    instViolation pol nl = none ∧ driverViolation nl = none ∧ cycleViolation nl = some (site, .combinationalCycle) := by
  have hinput : inputViolation nl ≠ some (site, .combinationalCycle) := by simp [inputViolation]
  have hinst : instViolation pol nl ≠ some (site, .combinationalCycle) := by
    simp [instViolation, List.findSome?_eq_some_iff, contractCheck_ne_combinationalCycle]
  have houtput : outputViolation nl ≠ some (site, .combinationalCycle) := by simp [outputViolation]
  have hdriver : driverViolation nl ≠ some (site, .combinationalCycle) := by simp [driverViolation]
  simp only [netlistCheck, Option.orElse_eq_some, hinput, hinst, houtput, hdriver, false_or] at h
  obtain ⟨-, hi, -, hd, hc⟩ := h
  exact ⟨hi, hd, hc⟩

end Sys2Proof.Machine

open Sys2Proof Sys2Proof.Machine

/-- Settles O58: some instance left over is on a cycle, and the instances on cycles are all left over, so the first one left over
that is on a cycle is the first one of all. -/
theorem cycleRefusalNamesAnInstanceOnACycle : Obligations.CycleRefusalNamesAnInstanceOnACycle := by
  unfold Obligations.CycleRefusalNamesAnInstanceOnACycle
  intro pol nl site hcheck
  obtain ⟨hinst, hdriver, hcycle⟩ := checks_of_cycle hcheck
  have hstuck : neverReady nl.insts.length (nl.inputs.map Prod.fst) nl.insts ≠ [] := by
    intro h
    simp [cycleViolation, h] at hcycle
  obtain ⟨y, hy, hyc⟩ := exists_transGen_self hstuck fun x hx => stuck_fed hinst hx
  have hys : y ∈ nl.insts := (neverReady_spec (le_refl nl.insts.length)).1.subset hy
  have hfound : (nl.insts.find? (onCycle nl.insts)).isSome := List.find?_isSome.mpr ⟨y, hys, (onCycle_iff_transGen hys).mpr hyc⟩
  obtain ⟨x, hx⟩ := Option.isSome_iff_exists.mp hfound
  have hsite : site = .inst x := by
    rw [cycleViolation, ← List.head?_filter, stuck_filter_onCycle hdriver, List.head?_filter, hx] at hcycle
    simpa using hcycle.symm
  obtain ⟨hxc, earlier, later, hsplit, hearlier⟩ := List.find?_eq_some_iff_append.mp hx
  have hmem : ∀ z ∈ earlier, z ∈ nl.insts := fun z hz => hsplit ▸ List.mem_append_left _ hz
  refine ⟨earlier, later, x, hsplit, hsite, (onCycle_iff_transGen (List.mem_of_find?_eq_some hx)).mp hxc, fun z hz => ?_⟩
  rw [← onCycle_iff_transGen (hmem z hz)]
  simpa using hearlier z hz

end

section
/-! The checks of one operation (spec/60_exceptions.md R94 to R101): the first that fails gives the reason, and what makes each of
them fail. -/

namespace Sys2Proof.Machine

open Sys2Proof

/-! ### The fixed order -/

/-- The checks of a list before one of its positions have passed. -/
def PassedBefore (vs : List (Bool × Reason)) (k : Nat) : Prop := ∀ v ∈ vs.take k, v.1 = false

theorem passedBefore_zero (vs : List (Bool × Reason)) : PassedBefore vs 0 := by simp [PassedBefore]

theorem PassedBefore.succ {vs : List (Bool × Reason)} {k : Nat} {b : Bool} {r : Reason} (h : PassedBefore vs k)
    (hk : vs[k]? = some (b, r)) (hb : b = false) : PassedBefore vs (k + 1) := by
  intro v hv
  rw [List.take_add_one, hk, List.mem_append] at hv
  rcases hv with hv | hv
  · exact h v hv
  · rw [List.mem_singleton.mp hv, hb]

/-- R101: the reason reported is that of the first check that fails. -/
theorem exec_of_first_failure {i : Instr} {s : State} {r : Reason} {k : Nat} {b : Bool}
    (h : PassedBefore (contractViolations s.params.reservedF s.tyOf (instrContract i)) k)
    (hk : (contractViolations s.params.reservedF s.tyOf (instrContract i))[k]? = some (b, r)) (hb : b = true) :
    exec i s = refuse (.inst (.cell i)) r := by
  refine exec_of_violation ?_
  subst hb
  obtain ⟨hlt, hget⟩ := List.getElem?_eq_some_iff.mp hk
  rw [contractCheck, ← List.take_append_drop k (contractViolations _ _ _), List.drop_eq_getElem_cons hlt, hget, List.find?_append,
    List.find?_eq_none.mpr (by simpa [PassedBefore] using h)]
  rfl

/-- Where none of the seven checks fails the operation completes. -/
theorem exec_of_no_failure {i : Instr} {s : State}
    (h : PassedBefore (contractViolations s.params.reservedF s.tyOf (instrContract i)) 7) : ∃ t, exec i s = .next t := by
  have hc : contractCheck s.params.reservedF s.tyOf (instrContract i) = none := by
    rw [contractCheck, Option.map_eq_none_iff, List.find?_eq_none]
    exact fun v hv => Bool.not_eq_true _ ▸ h v hv
  obtain ⟨⟨vs, hv⟩, -⟩ := (contract_iff_values s i).mp hc
  exact ⟨_, exec_of_contract hc hv⟩

/-! ### A position asked of a wire's word -/

theorem bitOf_query {s : State} {n : Name} {W : Word} (h : wiresGet s.wires n = some (.word W)) (i : Int) :
    s.bitOf (some (.query n i)) = bitAt W i := by
  cases hb : bitAt W i <;> simp [State.bitOf, State.read, h, hb]

/-- R97, D26: of the checks of a port for a Bit only that of the position can fail on a position of a word. -/
theorem contractCheck_not_outside {s : State} {n : Name} {i : Int} {W : Word} (pol : ReservedFPolicy) (y : Option Name)
    (h : wiresGet s.wires n = some (.word W)) (hne : W ≠ []) (hi : i < 0 ∨ (W.length : Int) ≤ i) :
    contractCheck pol s.tyOf (instrContract (.not (some (.query n i)) y)) = some .indexOutOfRange := by
  have hty : s.tyOf n = some (.word W.length) := by simp [State.tyOf, h, Value.ty]
  have hextra : argZeroWidth s.tyOf none = false := rfl
  simp [contractCheck, contractViolations, instrContract, Contract.plain, Port.bitIn, argZeroWidth, portUnconnected, portMismatch,
    portAccepts, portOutOfRange, operandBase, positionOutside, convNarrows, tyZeroWidth, hty, hne, hi]

/-! ### Ports without a value -/

/-- R100: a port connected to a wire without a value is as good as open. -/
theorem portUnconnected_of_not_known {s : State} {p : Port} {n : Name} {k : Int}
    (harg : p.arg = some (.wire n) ∨ p.arg = some (.query n k)) (hn : n ∉ s.known) : portUnconnected s.tyOf p = true := by
  have hty : s.tyOf n = none := by
    rw [mem_known_iff, ← Option.isSome_iff_exists, Option.not_isSome_iff_eq_none] at hn
    rw [State.tyOf, hn, Option.map_none]
  rcases harg with h | h <;> simp [portUnconnected, h, operandBase, hty]

/-- R28: the only ports with a default are the carry-ins of FA and ADD. -/
theorem omissible_carryIn {i : Instr} {p : Port} (hp : p ∈ (instrContract i).ports) (hom : p.omissible = true) :
    (∃ a b sum carry, i = .fa a b p.arg sum carry) ∨ ∃ D a b sum cout, i = .add D a b p.arg sum cout := by
  obtain ⟨arg, ty, om⟩ := p
  cases hom
  cases i
  case fa a b c sum carry =>
    have hc : arg = c ∧ ty = .bit := by simpa [instrContract, Contract.plain, Port.bitIn, Port.carryIn] using hp
    exact .inl ⟨a, b, sum, carry, by rw [hc.1]⟩
  case add D a b c sum cout =>
    have hc : arg = c ∧ ty = .bit := by simpa [instrContract, Contract.plain, Port.wordIn, Port.carryIn] using hp
    exact .inr ⟨D, a, b, sum, cout, by rw [hc.1]⟩
  all_goals simp [instrContract, Contract.plain, Contract.alu, Port.bitIn, Port.wordIn] at hp

/-! ### Ports with a value of another type -/

theorem not_portOk_bitIn_iff (s : State) (a : Option Operand) : ¬portOk s.tyOf (.bitIn a) ↔ s.bitOf a = none := by
  rw [portOk_bitIn_iff, ← Option.isSome_iff_exists, Option.not_isSome_iff_eq_none]

theorem not_portOk_wordIn_iff {s : State} {D : Int} (hD : 0 < D) (a : Option Operand) :
    ¬portOk s.tyOf (.wordIn D a) ↔ s.wordOf D a = none := by
  rw [portOk_wordIn_of_pos hD, ← Option.isSome_iff_exists, Option.not_isSome_iff_eq_none]

theorem not_portOk_anyWord_iff (s : State) (a : Option Operand) : ¬portOk s.tyOf ⟨a, .anyWord, false⟩ ↔ s.anyWordOf a = none := by
  rw [portOk_anyWord_iff, ← Option.isSome_iff_exists, Option.not_isSome_iff_eq_none]

/-- A carry-in that is connected is a port for a Bit like any other. -/
theorem not_portOk_carryIn_iff {s : State} {c : Option Operand} (h : s.Carries c) :
    ¬portOk s.tyOf (.carryIn c) ↔ s.bitOf c = none := by
  cases c with
  | none => simp [State.Carries, State.bitOf, State.anyWordOf] at h
  | some o => exact not_portOk_bitIn_iff s (some o)

@[simp] theorem bitIn_arg (a : Option Operand) : (Port.bitIn a).arg = a := rfl

@[simp] theorem wordIn_arg (D : Int) (a : Option Operand) : (Port.wordIn D a).arg = a := rfl

@[simp] theorem carryIn_arg (a : Option Operand) : (Port.carryIn a).arg = a := rfl

/-- An open carry-in passes its checks (R28). -/
theorem portOk_carryIn_none (s : State) : portOk s.tyOf (.carryIn none) := (portOk_carryIn_iff s none).mpr ⟨.LOW, rfl⟩

/-- Ports connected to what carries a value, and open carry-ins. -/
def State.CarriesAll (s : State) (ps : List Port) : Prop := ∀ p ∈ ps, s.Carries p.arg ∨ p = .carryIn none

/-- R95, D11: a contract with positive widths on ports that carry values fails first for a value that is not of its port's type. -/
theorem contractCheck_mismatch {s : State} {c : Contract} (pol : ReservedFPolicy) (hw : ∀ D ∈ c.widths, 0 < D)
    (he : c.extra = none) (hc : s.CarriesAll c.ports) (hm : ∃ p ∈ c.ports, ¬portOk s.tyOf p) :
    contractCheck pol s.tyOf c = some .widthMismatch := by
  refine contractCheck_widthMismatch hw he (fun p hp => ?_) ?_
  · rcases hc p hp with h | rfl
    · exact .inl h
    · exact .inr ⟨rfl, rfl⟩
  · obtain ⟨p, hp, hnot⟩ := hm
    rcases hc p hp with h | rfl
    · exact ⟨p, hp, h, hnot⟩
    · exact absurd (portOk_carryIn_none s) hnot

/-- The same for an operation, its widths and its ports written out. -/
theorem exec_mismatch {s : State} {i : Instr} (ws : List Int) (ps : List Port) (hws : (instrContract i).widths = ws)
    (hps : (instrContract i).ports = ps) (he : (instrContract i).extra = none) (hw : ∀ D ∈ ws, 0 < D) (hc : s.CarriesAll ps)
    (hm : ∃ p ∈ ps, ¬portOk s.tyOf p) : exec i s = refuse (.inst (.cell i)) .widthMismatch := by
  subst hws hps
  exact exec_of_violation (contractCheck_mismatch _ hw he hc hm)

/-- An ALU whose contract is not met among the values of its operands is selected as no operation. -/
theorem evalInst_alu_of_violation {s : State} {D : Int} {f op1 op2 : Option Operand} {r : Option Name} {e : Reason}
    (h : contractCheck s.params.reservedF s.tyOf (instContract (.alu D f op1 op2 r)) = some e) :
    evalInst (.alu D f op1 op2 r) s = refuse (.inst (.alu D f op1 op2 r)) e := by
  simp only [evalInst, State.select, h]

theorem bitCells2_contract {p : BitCell2 × (Bit → Bit → Bit)} (hp : p ∈ bitCells2) (a b : Option Operand) (y : Option Name) :
    instrContract (p.1 a b y) = .plain [] [.bitIn a, .bitIn b] := by
  simp only [bitCells2, List.mem_cons, List.not_mem_nil, or_false] at hp
  obtain rfl | rfl | rfl | rfl | rfl := hp <;> rfl

theorem wordCells2_contract {mk : WordCell2} (hmk : mk ∈ wordCells2) (D : Int) (a b : Option Operand) (r : Option Name) :
    ∃ reserved, instrContract (mk D a b r) = .alu D a b reserved := by
  simp only [wordCells2, List.mem_append, List.mem_map] at hmk
  rcases hmk with (⟨p, hp, rfl⟩ | ⟨p, hp, rfl⟩) | ⟨p, hp, rfl⟩
  · exact ⟨false, liftedCells_contract hp D a b r⟩
  · simp only [definedAluCells, List.mem_cons, List.not_mem_nil, or_false] at hp
    obtain rfl | rfl | rfl | rfl := hp <;> exact ⟨false, rfl⟩
  · rw [(reservedAluCells_decodeSelect hp).2, instrContract_decodeSelect]
    exact ⟨_, rfl⟩

end Sys2Proof.Machine

open Sys2Proof Sys2Proof.Machine

/-- Settles O3: inside the word the operand reads the bit there, outside it the check of its position is the one that fails. -/
theorem queryOperandReadsOnePosition : Obligations.QueryOperandReadsOnePosition := by
  unfold Obligations.QueryOperandReadsOnePosition
  intro s n i y W hn
  constructor
  · rintro k b rfl hb
    rw [exec_not y (x := b) (by rw [bitOf_query hn, bitAt_natCast, hb]), notGate_nand]
  · exact fun hne hi => exec_of_violation (contractCheck_not_outside _ y hn hne hi)

/-- Settles O35: the widths are checked before anything else. -/
theorem zeroWidthIsRefused : Obligations.ZeroWidthIsRefused :=
  fun _ _ ⟨_, hmem, hD⟩ => exec_zeroWidth hmem hD

/-- Settles O37: the list of checks, split at the first that fails. -/
theorem checksRunInTheFixedOrder : Obligations.ChecksRunInTheFixedOrder := by
  unfold Obligations.ChecksRunInTheFixedOrder
  intro i s c zero openPort mismatch narrow outside reserved
  have hzero : (c.widths.any (fun D => decide (D ≤ 0)) || c.ports.any (fun p => argZeroWidth s.tyOf p.arg) ||
      argZeroWidth s.tyOf c.extra) = true ↔ zero := by simp [zero, or_assoc]
  have hopen : c.ports.any (portUnconnected s.tyOf) = true ↔ openPort := List.any_eq_true
  have hextra : c.extra.isSome = true ↔ c.extra ≠ none := Option.isSome_iff_ne_none
  have hmismatch : c.ports.any (portMismatch s.tyOf) = true ↔ mismatch := List.any_eq_true
  have houtside : (c.ports.any (portOutOfRange s.tyOf) || queryOutOfRange s.tyOf c) = true ↔ outside := by simp [outside]
  have hreserved : (c.reserved && decide (s.params.reservedF = .refuse)) = true ↔ reserved := by simp [reserved]
  have passed {b : Bool} {P : Prop} (h : b = true ↔ P) (hP : ¬P) : b = false := Bool.eq_false_iff.mpr (h.not.mpr hP)
  have pass0 := passedBefore_zero (contractViolations s.params.reservedF s.tyOf c)
  have pass1 (h : ¬zero) := pass0.succ rfl (passed hzero h)
  have pass2 (h : ¬zero) (h' : ¬openPort) := (pass1 h).succ rfl (passed hopen h')
  have pass3 (h : ¬zero) (h' : ¬openPort) (he : c.extra = none) := (pass2 h h').succ rfl (passed hextra (not_not.mpr he))
  have pass4 (h : ¬zero) (h' : ¬openPort) (he : c.extra = none) (hm : ¬mismatch) := (pass3 h h' he).succ rfl (passed hmismatch hm)
  have pass5 (h : ¬zero) (h' : ¬openPort) (he : c.extra = none) (hm : ¬mismatch) (hn : ¬narrow) :=
    (pass4 h h' he hm).succ rfl (passed .rfl hn)
  have pass6 (h : ¬zero) (h' : ¬openPort) (he : c.extra = none) (hm : ¬mismatch) (hn : ¬narrow) (ho : ¬outside) :=
    (pass5 h h' he hm hn).succ rfl (passed houtside ho)
  have pass7 (h : ¬zero) (h' : ¬openPort) (he : c.extra = none) (hm : ¬mismatch) (hn : ¬narrow) (ho : ¬outside)
      (hr : ¬reserved) := (pass6 h h' he hm hn ho).succ rfl (passed hreserved hr)
  exact ⟨fun h => exec_of_first_failure pass0 rfl (hzero.mpr h),
    fun h0 h => exec_of_first_failure (pass1 h0) rfl (hopen.mpr h),
    fun h0 h1 h => exec_of_first_failure (pass2 h0 h1) rfl (hextra.mpr h),
    fun h0 h1 h2 h => exec_of_first_failure (pass3 h0 h1 h2) rfl (hmismatch.mpr h),
    fun h0 h1 h2 h3 h => exec_of_first_failure (pass4 h0 h1 h2 h3) rfl h,
    fun h0 h1 h2 h3 h4 h => exec_of_first_failure (pass5 h0 h1 h2 h3 h4) rfl (houtside.mpr h),
    fun h0 h1 h2 h3 h4 h5 h => exec_of_first_failure (pass6 h0 h1 h2 h3 h4 h5) rfl (hreserved.mpr h),
    fun h0 h1 h2 h3 h4 h5 h6 => exec_of_no_failure (pass7 h0 h1 h2 h3 h4 h5 h6)⟩

/-- Settles O36: no check before that of open ports fails, and that one does. -/
theorem unconnectedInputIsRefused : Obligations.UnconnectedInputIsRefused := by
  unfold Obligations.UnconnectedInputIsRefused
  refine ⟨fun i s p hp hopen hwidths hargs => ?_, fun i p => omissible_carryIn⟩
  obtain ⟨-, hrefused, -⟩ := checksRunInTheFixedOrder i s
  refine hrefused ?_ ⟨p, hp, ?_⟩
  · rintro (⟨D, hD, hle⟩ | ⟨q, hq, hz⟩ | hz)
    · exact absurd (hwidths D hD) (by omega)
    · simp [hargs q.arg (.inl (List.mem_map_of_mem hq))] at hz
    · simp [hargs _ (.inr rfl)] at hz
  · rcases hopen with ⟨hnone, hom⟩ | ⟨n, k, harg, hn⟩
    · simp [portUnconnected, hnone, hom]
    · exact portUnconnected_of_not_known harg hn

/-- Settles O34: for each cell its ports, which carry values, and the one among them that carries none of its type. -/
theorem widthMismatchIsRefused : Obligations.WidthMismatchIsRefused := by
  unfold Obligations.WidthMismatchIsRefused
  intro s M D a b c y z ha hb hc mismatch noBit noWord
  have word (o : Option Operand) (hD : 0 < D) := not_portOk_wordIn_iff (s := s) hD o
  have bit (o : Option Operand) := not_portOk_bitIn_iff s o
  have carry := not_portOk_carryIn_iff hc
  have width (hD : 0 < D) : ∀ E ∈ [D], 0 < E := by simpa
  refine ⟨?_, ?_, ?_, ?_, ?_, fun hD => ⟨?_, ?_, ?_, ?_, ?_, ?_⟩⟩
  · intro p hp h
    have hi := bitCells2_contract hp a b y
    exact exec_mismatch [] [.bitIn a, .bitIn b] (by rw [hi]; rfl) (by rw [hi]; rfl) (by rw [hi]; rfl) nofun
      (by simp [State.CarriesAll, ha, hb]) (by simpa [bit])
  · exact fun h => exec_mismatch [] [.bitIn a] rfl rfl rfl nofun (by simp [State.CarriesAll, ha]) (by simpa [bit])
  · exact fun h =>
      ⟨exec_mismatch [] [.bitIn a, .bitIn b] rfl rfl rfl nofun (by simp [State.CarriesAll, ha, hb]) (by simpa [bit]),
        exec_mismatch [] [.bitIn a, .bitIn b, .carryIn none] rfl rfl rfl nofun (by simp [State.CarriesAll, ha, hb])
          (by simpa [bit, portOk_carryIn_none])⟩
  · exact fun h =>
      ⟨exec_mismatch [] [.bitIn a, .bitIn b, .carryIn c] rfl rfl rfl nofun (by simp [State.CarriesAll, ha, hb, hc])
          (by simpa [bit, carry]),
        exec_mismatch [] [.bitIn a, .bitIn b, .bitIn c] rfl rfl rfl nofun (by simp [State.CarriesAll, ha, hb, hc])
          (by simpa [bit])⟩
  · exact fun h i => exec_mismatch [] [⟨a, .anyWord, false⟩] rfl rfl rfl nofun (by simp [State.CarriesAll, ha])
      (by simpa [not_portOk_anyWord_iff])
  · intro mk hmk h
    obtain ⟨reserved, hi⟩ := wordCells2_contract hmk D a b y
    exact exec_mismatch [D] [.wordIn D a, .wordIn D b] (by rw [hi]; rfl) (by rw [hi]; rfl) (by rw [hi]; rfl) (width hD)
      (by simp [State.CarriesAll, ha, hb]) (by simpa [word, hD])
  · exact fun h => exec_mismatch [D] [.wordIn D a] rfl rfl rfl (width hD) (by simp [State.CarriesAll, ha]) (by simpa [word, hD])
  · exact fun h => exec_mismatch [D] [.wordIn D a, .wordIn D b, .carryIn none] rfl rfl rfl (width hD)
      (by simp [State.CarriesAll, ha, hb]) (by simpa [word, hD, portOk_carryIn_none])
  · exact fun h =>
      ⟨exec_mismatch [D] [.wordIn D a, .wordIn D b, .carryIn c] rfl rfl rfl (width hD) (by simp [State.CarriesAll, ha, hb, hc])
          (by simpa [word, hD, carry]),
        exec_mismatch [D] [.wordIn D a, .wordIn D b, .bitIn c] rfl rfl rfl (width hD) (by simp [State.CarriesAll, ha, hb, hc])
          (by simpa [word, hD, bit])⟩
  · exact fun hM h => exec_mismatch [D, M] [.wordIn D a] rfl rfl rfl (by simp [hD, hM]) (by simp [State.CarriesAll, ha])
      (by simpa [word, hD])
  · intro h
    have hF := not_portOk_wordIn_iff (s := s) (D := Config.selectWidth) (by decide) c
    refine evalInst_alu_of_violation (contractCheck_mismatch _ (width hD) rfl ?_ ?_)
    · simp [instContract, Contract.plain, State.CarriesAll, ha, hb, hc]
    · obtain h | h | h := h
      · exact ⟨.wordIn D a, by simp [instContract, Contract.plain], (word a hD).mpr h⟩
      · exact ⟨.wordIn D b, by simp [instContract, Contract.plain], (word b hD).mpr h⟩
      · exact ⟨.wordIn Config.selectWidth c, by simp [instContract, Contract.plain], hF.mpr h⟩

end

section
/-! What stops a step (spec/60_exceptions.md R93, R102): a refused composition stops every one, and in a proper state only a
reserved function-select does. -/

namespace Sys2Proof.Machine

open Sys2Proof

/-- A run is refused where its first step is. -/
theorem run_succ_of_refused {s : State} {e : Refusal} (h : step s = .refused e) (k : Nat) :
    Host.Core.run core (k + 1) s = .refused e := by
  have hstep : core.step s = .refused e := h
  simp only [Host.Core.run, hstep]

end Sys2Proof.Machine

open Sys2Proof Sys2Proof.Machine

/-- Settles O38: the check of the netlist comes first in every step. -/
theorem refusedNetlistIsNeverEvaluated : Obligations.RefusedNetlistIsNeverEvaluated := by
  unfold Obligations.RefusedNetlistIsNeverEvaluated
  intro s site r h
  have hv : s.violation = some (site, r) := by rw [State.violation, h]; rfl
  exact ⟨step_of_violation hv, run_succ_of_refused (step_of_violation hv)⟩

/-- Settles O48: the next instance has its operands, so only a reserved function-select could stop it. -/
theorem properStateNeverFails : Obligations.ProperStateNeverFails := by
  unfold Obligations.ProperStateNeverFails
  intro s hs hsel
  by_cases hp : s.pending = []
  · exact ⟨s, step_of_over hs.accepted hp, by simp [hp]⟩
  obtain ⟨⟨x, rest⟩, hn⟩ := Option.ne_none_iff_exists'.mp (nextInst_ne_none hs hp)
  obtain ⟨hpend, hmem⟩ := nextInst_mem hs hn
  obtain ⟨-, -, -, -, hready, -⟩ := pickReady_eq_some hn
  rcases evalInst_cases (contract_of_ready hs hmem hready) with ⟨t, ht⟩ | ⟨hpol, D, f, op1, op2, r, sel, rfl, hF, hres, -⟩
  · refine ⟨t.withPending rest, step_of_evalInst_next hs.accepted hn ht, ?_⟩
    simp [← (pickReady_perm hn).length_eq]
  · rcases hsel with hdata | hdef
    · rw [hpol] at hdata
      cases hdata
    · have hdefined := hdef D f op1 op2 r sel hpend (by rw [hF, Option.bind_some, selectOfWord_toWord])
      rw [hres] at hdefined
      cases hdefined

end

section
/-! The inputs of an evaluation (spec/70_reset_and_hazards.md R112): what is refused before the first step. -/

namespace Sys2Proof.Machine

open Sys2Proof

/-- The refusal of the inputs names one of them, for having no value or for the type of the value it has (log 14). -/
theorem inputFault_eq_some {s : State} {e : Site × Reason} (h : s.inputFault = some e) :
    ∃ (m : Name) (u : Ty), (m, u) ∈ s.netlist.inputs ∧
      (s.tyOf m = none ∧ e = (.wire m, .unconnectedInput) ∨
        (∃ v, s.tyOf m = some v ∧ v ≠ u) ∧ e = (.wire m, .widthMismatch)) := by
  obtain ⟨⟨m, u⟩, hd, he⟩ := List.exists_of_findSome?_eq_some h
  refine ⟨m, u, hd, ?_⟩
  cases hty : s.tyOf m with
  | none => simp_all
  | some v => by_cases hv : v = u <;> simp_all

/-- An accepted netlist is refused for its inputs alone. -/
theorem violation_of_accepted {s : State} (h : netlistCheck s.params.reservedF s.netlist = none) :
    s.violation = s.inputFault := by
  rw [State.violation, h]; rfl

end Sys2Proof.Machine

open Sys2Proof Sys2Proof.Machine

/-- Settles O46: the inputs are accepted only where each carries a value of its type, and a step begins with that check. -/
theorem undrivenInputIsRefused : Obligations.UndrivenInputIsRefused := by
  unfold Obligations.UndrivenInputIsRefused
  intro s n t hnl hn hty
  have hfault : s.inputFault ≠ none := fun h => hty (inputFault_eq_none_iff.mp h (n, t) hn)
  obtain ⟨e, he⟩ := Option.ne_none_iff_exists'.mp hfault
  have hv : s.violation = some e := (violation_of_accepted hnl).trans he
  obtain ⟨m, u, hm, ⟨hnone, rfl⟩ | ⟨hother, rfl⟩⟩ := inputFault_eq_some he
  · exact ⟨m, u, hm, .inl ⟨hnone, step_of_violation hv⟩⟩
  · exact ⟨m, u, hm, .inr ⟨hother, step_of_violation hv⟩⟩

end

section
/-! Whole evaluations (spec/10_state.md R22, spec/70_reset_and_hazards.md R116): a composition whose function-selects are known when
it is defined is evaluated to its end. -/

namespace Sys2Proof.Machine

open Sys2Proof

/-- No ALU of a netlist reads its function-select from a wire, or the policy admits every select. -/
def SelectsKnown (pol : ReservedFPolicy) (nl : Netlist) : Prop :=
  pol = .datapath ∨ ∀ D f op1 op2 r, Inst.alu D f op1 op2 r ∈ nl.insts → ∃ v : Value, f = some (.lit v)

/-- The function-select that a literal is read as is the one the check at definition looks at (R44). -/
theorem literalReserved_of_select {s : State} {v : Value} {sel : FunctionSelect}
    (h : (s.wordOf Config.selectWidth (some (.lit v))).bind selectOfWord = some sel) :
    literalReserved (some (.lit v)) = !selectDefined sel := by
  obtain ⟨F, hF, hsel⟩ := Option.bind_eq_some_iff.mp h
  obtain ⟨sel', rfl⟩ := exists_toWord_eq (by exact_mod_cast wordOf_length hF)
  obtain ⟨hread, -⟩ := wordOf_eq_some_iff.mp hF
  simp only [Option.bind_some, State.read, Option.some.injEq] at hread
  rw [selectOfWord_toWord, Option.some.injEq] at hsel
  rw [hread, hsel]
  rfl

/-- A literal function-select of an accepted netlist is defined, for a reserved one would have been refused (R44). -/
theorem selectsDefined_of_known {s : State} (hs : s.Proper) (hk : SelectsKnown s.params.reservedF s.netlist) :
    s.SelectsDefined := by
  rcases hk with hdata | hlit
  · exact .inl hdata
  cases hpol : s.params.reservedF with
  | datapath => exact .inl hpol
  | refuse =>
    refine .inr fun D f op1 op2 r sel hx hsel => ?_
    have hmem := hs.left_of_netlist.subset hx
    obtain ⟨v, rfl⟩ := hlit D f op1 op2 r hmem
    obtain ⟨-, hdef, -⟩ := netlistCheck_eq_none_iff.mp (accepted_netlist hs)
    obtain ⟨-, -, -, -, -, hres⟩ := (contractCheck_eq_none_iff _ _ _).mp (hdef _ hmem)
    have hadm : literalReserved (some (.lit v)) = true → s.params.reservedF = .datapath := hres
    simpa [literalReserved_of_select hsel, hpol] using hadm

theorem run_succ_of_next {s t : State} (h : step s = .next t) (k : Nat) :
    Host.Core.run core (k + 1) s = Host.Core.run core k t := by
  have hstep : core.step s = .next t := h
  simp only [Host.Core.run, hstep]

/-- From a proper state on, as many steps as instances are left end the evaluation, in a proper state. -/
theorem run_pending_over {k : Nat} {s : State} (hs : s.Proper) (hk : SelectsKnown s.params.reservedF s.netlist)
    (hlen : s.pending.length = k) :
    ∃ t : State, Host.Core.run core k s = .next t ∧ t.Proper ∧ t.Over ∧ t.netlist = s.netlist := by
  induction k generalizing s with
  | zero => exact ⟨s, rfl, hs, List.length_eq_zero_iff.mp hlen, rfl⟩
  | succ k ih =>
    obtain ⟨u, hstep, hleft⟩ := properStateNeverFails s hs (selectsDefined_of_known hs hk)
    obtain ⟨hu, hparams, hnl, -⟩ := stepKeepsTheStateProper s u hs hstep
    obtain ⟨t, hrun, ht, hover, htnl⟩ := ih hu (by rwa [hparams, hnl]) (by omega)
    exact ⟨t, (run_succ_of_next hstep k).trans hrun, ht, hover, htnl.trans hnl⟩

/-- At the end every instance of the composition has been evaluated. -/
theorem evaluated_of_over {s : State} (ho : s.Over) {x : Inst} : s.Evaluated x ↔ x ∈ s.netlist.insts := by
  simp [State.Evaluated, show s.pending = [] from ho]

/-- At the end exactly the driven wires have values (R22). -/
theorem valued_iff_of_over {s : State} (hs : s.Proper) (ho : s.Over) (n : Name) :
    (∃ v, wiresGet s.wires n = some v) ↔ netlistTy s.netlist n ≠ none := by
  simp only [← mem_known_iff, hs.valued, evaluated_of_over ho, netlistTy_ne_none_iff]

end Sys2Proof.Machine

open Sys2Proof Sys2Proof.Machine

/-- Settles O50: the evaluation begins in a proper state, each step evaluates one instance and keeps the state proper, and a proper
state with nothing left has all that is claimed. -/
theorem evaluationEnds : Obligations.EvaluationEnds := by
  unfold Obligations.EvaluationEnds
  intro s nl offered hnl hin hk
  obtain ⟨t, hrun, ht, hover, rfl⟩ := run_pending_over (present_proper hnl hin) hk rfl
  exact ⟨t, hrun, hover, rfl, fun x hx => ht.held x ((evaluated_of_over hover).mpr hx),
    fun n => ⟨valued_iff_of_over ht hover n, ht.typed n⟩⟩

end

section
/-! The structure of the cells (spec/43_alu.md R86, R90, spec/70_reset_and_hazards.md R118): the compositions written down as syntax
are the cells of the machine over any primitive, and what is counted in them. -/

namespace Sys2Proof.Machine

open Sys2Proof

/-! ### Word cells -/

@[simp] theorem wordCellOutputs_nil_left (g : Prim) (o : OpName) (B : Word) (k : Bit) :
    wordCellOutputs g o [] B k = ⟨[], k⟩ := rfl

@[simp] theorem wordCellOutputs_nil_right (g : Prim) (o : OpName) (A : Word) (k : Bit) :
    wordCellOutputs g o A [] k = ⟨[], k⟩ := by cases A <;> rfl

/-- A word cell whose bit cell has one output is that bit cell at every position, with the entering bit at each. -/
theorem wordCellOutputs_of_one_output {g : Prim} {o cell : OpName} {gate : Bit → Bit → Bit → Bit}
    (ho : perPosition o = some cell) (hcell : ∀ a b c, bitCellOutputs g cell [a, b, c] = [gate a b c]) (A B : Word) (k : Bit) :
    wordCellOutputs g o A B k = ⟨List.zipWith (fun a b => gate a b k) A B, k⟩ := by
  induction A generalizing B with
  | nil => simp
  | cons a A ih =>
    cases B with
    | nil => simp
    | cons b B => simp [wordCellOutputs, ho, hcell, ih]

section WordCells

variable (g : Prim) (A B : Word) (k : Bit)

/-- R66: a lifted gate leaves the entering bit alone. -/
theorem wordCellOutputs_lift2 {o cell : OpName} {gate : Bit → Bit → Bit} (ho : perPosition o = some cell)
    (hcell : ∀ a b c, bitCellOutputs g cell [a, b, c] = [gate a b]) : wordCellOutputs g o A B k = ⟨lift2 gate A B, k⟩ :=
  wordCellOutputs_of_one_output ho hcell A B k

theorem wordCellOutputs_wnand : wordCellOutputs g .wnand A B k = ⟨lift2 g A B, k⟩ :=
  wordCellOutputs_lift2 g A B k (cell := .nand) rfl fun _ _ _ => rfl

theorem wordCellOutputs_wand : wordCellOutputs g .wand A B k = ⟨lift2 (andGate g) A B, k⟩ :=
  wordCellOutputs_lift2 g A B k (cell := .and) rfl fun _ _ _ => rfl

theorem wordCellOutputs_wor : wordCellOutputs g .wor A B k = ⟨lift2 (orGate g) A B, k⟩ :=
  wordCellOutputs_lift2 g A B k (cell := .or) rfl fun _ _ _ => rfl

theorem wordCellOutputs_wnor : wordCellOutputs g .wnor A B k = ⟨lift2 (norGate g) A B, k⟩ :=
  wordCellOutputs_lift2 g A B k (cell := .nor) rfl fun _ _ _ => rfl

theorem wordCellOutputs_wxor : wordCellOutputs g .wxor A B k = ⟨lift2 (xorGate g) A B, k⟩ :=
  wordCellOutputs_lift2 g A B k (cell := .xor) rfl fun _ _ _ => rfl

/-- R67. -/
theorem wordCellOutputs_wnot : wordCellOutputs g .wnot A A k = ⟨wordNot g A, k⟩ := by
  rw [wordCellOutputs_of_one_output (cell := .not) (gate := fun a _ _ => notGate g a) rfl fun _ _ _ => rfl,
    List.zipWith_self]
  rfl

/-- R75. -/
theorem wordCellOutputs_wmux : wordCellOutputs g .wmux A B k = ⟨wordMux g A B k, k⟩ :=
  wordCellOutputs_of_one_output (cell := .mux) rfl (fun _ _ _ => rfl) A B k

/-- R73: the second output of the full-adder at a position is the third input of the next one. -/
theorem wordCellOutputs_add : wordCellOutputs g .add A B k = rippleAdd g A B k := by
  induction A generalizing B with
  | nil => simp
  | cons a A ih =>
    cases B with
    | nil => rfl
    | cons b B =>
      have hfa : ∀ c, bitCellOutputs g .fa [a, b, c] = [(fullAdder g a b c).sum, (fullAdder g a b c).carry] := fun _ => rfl
      simp [wordCellOutputs, perPosition, hfa, ih]

end WordCells

/-! ### The ALU -/

theorem aluWires_nil (g : Prim) (f : FunctionSelect) (ws : List Word) : aluWires g f [] ws = ws := rfl

/-- Each sub-cell drives the next wire. -/
theorem aluWires_cons (g : Prim) (f : FunctionSelect) (c : AluSubcell) (cells : List AluSubcell) (ws : List Word) :
    aluWires g f (c :: cells) ws = aluWires g f cells
      (ws ++ [(wordCellOutputs g c.op (ws.getD c.x []) (ws.getD c.y []) (f.toWord.getD c.f .LOW)).sum]) := rfl

/-- R80: the sub-cells before the multiplexers that choose the result: the conditional complement, the logic path and the adder. -/
theorem aluWires_paths (g : Prim) (f : FunctionSelect) (cells : List AluSubcell) (A B : Word) :
    aluWires g f ([⟨.wnot, 1, 1, 0⟩, ⟨.wmux, 1, 2, 0⟩, ⟨.wor, 0, 3, 0⟩, ⟨.wand, 0, 3, 0⟩, ⟨.wmux, 4, 5, 1⟩, ⟨.add, 0, 3, 0⟩] ++ cells)
        [A, B] =
      aluWires g f cells [A, B, wordNot g B, aluOp2 g f B, lift2 (orGate g) A (aluOp2 g f B),
        lift2 (andGate g) A (aluOp2 g f B), aluLogic g f A B, (rippleAdd g A (aluOp2 g f B) f.f0).sum] := by
  simp [aluWires_cons, wordCellOutputs_wnot, wordCellOutputs_wmux, wordCellOutputs_wor, wordCellOutputs_wand,
    wordCellOutputs_add, FunctionSelect.toWord, aluOp2, aluLogic]

/-- R80, R86: the last wire of an ALU, with the no-op multiplexer left out or on any select. -/
theorem aluWires_getLast (g : Prim) (sel : MuxSumSel) (f : FunctionSelect) (A B : Word) :
    (aluWires g f (aluSubcells sel) [A, B]).getLast? = some (aluDatapath g sel f A B) := by
  cases sel <;>
    simp only [aluSubcells, aluWires_paths] <;>
    simp [aluWires_cons, aluWires_nil, wordCellOutputs_wmux, FunctionSelect.toWord, aluDatapath, aluArithmetic, muxSum]

/-! ### Counts -/

theorem bitCellSizes : ([OpName.nand, .not, .and, .or, .nor, .xor, .ha, .fa, .mux].map bitCellSize) =
    [1, 1, 2, 3, 4, 5, 7, 22, 8] := rfl

/-- A word cell has the size of its bit cell at each of its positions. -/
theorem wordCellSizes (D : Nat) : ([OpName.wnand, .wnot, .wand, .wor, .wnor, .wxor, .add, .wmux, .conv].map fun o =>
    wordCellSize o D) = [D, D, 2 * D, 3 * D, 4 * D, 5 * D, 22 * D, 8 * D, 0] := by
  have hsizes := bitCellSizes
  simp only [List.map_cons, List.cons.injEq] at hsizes
  simp [wordCellSize, perPosition, hsizes]

theorem aluSubcells_count (sel : MuxSumSel) : ([OpName.wnot, .wor, .wand, .add, .wmux].map
    ((aluSubcells sel).map AluSubcell.op).count) = [1, 1, 1, 1, if sel = .omitted then 3 else 4] := by
  cases sel <;> rfl

/-- The no-op multiplexer is one word multiplexer more, whatever drives its select. -/
theorem aluSize_eq (sel : MuxSumSel) (D : Nat) : aluSize sel D = if sel = .omitted then 52 * D else 60 * D := by
  have hsizes := wordCellSizes D
  simp only [List.map_cons, List.cons.injEq] at hsizes
  cases sel <;> simp [aluSize, aluSubcells, hsizes] <;> omega

end Sys2Proof.Machine

open Sys2Proof Sys2Proof.Machine

/-- Settles O57: the word cells by induction on their positions, the ALU wire by wire, and the counts from the bit cells up. -/
theorem nandCountsAsWritten : Obligations.NandCountsAsWritten := by
  unfold Obligations.NandCountsAsWritten
  refine ⟨fun g a b c => rfl, fun g A B k => ⟨?_, wordCellOutputs_wnot g A k, wordCellOutputs_wmux g A B k,
    wordCellOutputs_add g A B k, fun sel f => aluWires_getLast g sel f A B⟩, bitCellSizes, wordCellSizes, aluSubcells_count,
    fun D => ⟨aluSize_eq .omitted D, fun sel hsel => (aluSize_eq sel D).trans (if_neg hsel)⟩⟩
  simp only [List.map_cons, List.map_nil, wordCellOutputs_wnand, wordCellOutputs_wand, wordCellOutputs_wor,
    wordCellOutputs_wnor, wordCellOutputs_wxor]

end

section
/-! The corner cases of the gates (spec/40_gates.md) and of the adder blocks and the bit multiplexer (spec/41_adders_mux.md): equal
inputs, a constant input, inputs exchanged. -/

namespace Sys2Proof.Machine

open Sys2Proof

/-! ### Operands -/

@[simp] theorem bitOf_lit (s : State) (x : Bit) : s.bitOf (some (.lit (.bit x))) = some x := rfl

/-- A wire that was driven with a Bit reads as that Bit. -/
@[simp] theorem bitOf_wire_drive (s : State) (n : Name) (x : Bit) :
    (s.drive [some n] [.bit x]).bitOf (some (.wire n)) = some x := by
  simp [State.bitOf, State.read, wiresDrive]

/-- R28: a connected carry-in is read like any other port for a Bit. -/
theorem carryOf_of_bitOf {s : State} {a : Option Operand} {x : Bit} (h : s.bitOf a = some x) : s.carryOf a = some x := by
  cases a with
  | none => simp [State.bitOf] at h
  | some o => exact h

/-! ### The values of the gates -/

section Gates

variable {s : State} {a b : Option Operand} {x z : Bit} (y : Option Name) (ha : s.bitOf a = some x)
include ha

theorem exec_not_bool : exec (.not a y) s = .next (s.drive [y] [.bit (boolNot x)]) := by
  rw [exec_not y ha, notGate_nand]

variable (hb : s.bitOf b = some z)
include hb

theorem exec_and_bool : exec (.and a b y) s = .next (s.drive [y] [.bit (boolAnd x z)]) := by
  rw [← andGate_nand]
  exact exec_bitCell2 (p := (.and, andGate nandGate)) (by simp [bitCells2]) y ha hb

theorem exec_or_bool : exec (.or a b y) s = .next (s.drive [y] [.bit (boolOr x z)]) := by
  rw [← orGate_nand]
  exact exec_bitCell2 (p := (.or, orGate nandGate)) (by simp [bitCells2]) y ha hb

theorem exec_nor_bool : exec (.nor a b y) s = .next (s.drive [y] [.bit (boolNot (boolOr x z))]) := by
  rw [← norGate_nand]
  exact exec_bitCell2 (p := (.nor, norGate nandGate)) (by simp [bitCells2]) y ha hb

theorem exec_xor_bool : exec (.xor a b y) s = .next (s.drive [y] [.bit (boolXor x z)]) := by
  rw [← xorGate_nand]
  exact exec_bitCell2 (p := (.xor, xorGate nandGate)) (by simp [bitCells2]) y ha hb

end Gates

/-- The lifted cells lift the gates with two inputs, so one symmetry serves both. -/
theorem bitCells2_comm {p : BitCell2 × (Bit → Bit → Bit)} (hp : p ∈ bitCells2) (x z : Bit) : p.2 x z = p.2 z x := by
  have hgates : bitCells2.map Prod.snd = liftedCells.map Prod.snd := rfl
  have hgate : p.2 ∈ liftedCells.map Prod.snd := hgates ▸ List.mem_map_of_mem hp
  obtain ⟨q, hq, hqp⟩ := List.mem_map.mp hgate
  rw [← hqp]
  exact liftedCells_comm hq x z

/-! ### The functions of the adder blocks and the multiplexer -/

theorem halfAdder_low (x : Bit) : halfAdder nandGate x .LOW = ⟨x, .LOW⟩ := by simp [halfAdder]

theorem halfAdder_self (x : Bit) : halfAdder nandGate x x = ⟨.LOW, x⟩ := by simp [halfAdder]

theorem halfAdder_comm (x z : Bit) : halfAdder nandGate x z = halfAdder nandGate z x := by
  cases x <;> cases z <;> rfl

/-- R63: without a carry-in the second half-adder changes nothing. -/
theorem fullAdder_low (x z : Bit) : fullAdder nandGate x z .LOW = halfAdder nandGate x z := by
  rw [fullAdder_eq_halfAdders, halfAdder_low, orGate_nand, boolOr_low]

/-- The first half-adder is symmetric. -/
theorem fullAdder_comm (x z k : Bit) : fullAdder nandGate x z k = fullAdder nandGate z x k := by
  rw [fullAdder_eq_halfAdders, halfAdder_comm x z, ← fullAdder_eq_halfAdders]

theorem fullAdder_right_comm (x z k : Bit) : fullAdder nandGate x z k = fullAdder nandGate x k z := by
  cases x <;> cases z <;> cases k <;> rfl

/-- R64: where both inputs are `HIGH` their sum is `LOW`, so the two half-adders never both carry. -/
theorem fullAdder_terms_exclusive (x z k : Bit) :
    ¬(andGate nandGate x z = .HIGH ∧ andGate nandGate (xorGate nandGate x z) k = .HIGH) := by
  cases x <;> cases z <;> cases k <;> decide

theorem muxGate_self (x k : Bit) : muxGate nandGate x x k = x := by rw [muxGate_nand, ite_self]

theorem muxGate_low_high (k : Bit) : muxGate nandGate .LOW .HIGH k = k := by cases k <;> rfl

theorem muxGate_high_low (k : Bit) : muxGate nandGate .HIGH .LOW k = boolNot k := by cases k <;> rfl

end Sys2Proof.Machine

open Sys2Proof Sys2Proof.Machine

/-- Settles O6: each gate drives its canonical table, which at a constant or repeated input is the identity, the complement or
constant; NOT undoes NOT through any wire. -/
theorem gateCornerCases : Obligations.GateCornerCases := by
  unfold Obligations.GateCornerCases
  intro s a b y x z ha hb low high given
  have hlow : s.bitOf low = some .LOW := bitOf_lit s .LOW
  have hhigh : s.bitOf high = some .HIGH := bitOf_lit s .HIGH
  refine ⟨?symmetric, ?low, ?high, ?_, ?_, ?_, ?_, ?notNot⟩
  case symmetric =>
    intro p hp
    exact ⟨p.2 x z, exec_bitCell2 hp y ha hb, bitCells2_comm hp z x ▸ exec_bitCell2 hp y hb ha⟩
  case low =>
    rintro rfl
    exact ⟨boolAnd_low x ▸ exec_and_bool y ha hlow, boolOr_low x ▸ exec_or_bool y ha hlow,
      boolXor_low x ▸ exec_xor_bool y ha hlow⟩
  case high =>
    rintro rfl
    exact ⟨boolAnd_high x ▸ exec_and_bool y ha hhigh, boolOr_high x ▸ exec_or_bool y ha hhigh,
      boolXor_high x ▸ exec_xor_bool y ha hhigh⟩
  · exact boolAnd_self x ▸ exec_and_bool y ha ha
  · exact boolOr_self x ▸ exec_or_bool y ha ha
  · exact boolOr_self x ▸ exec_nor_bool y ha ha
  · exact boolXor_self x ▸ exec_xor_bool y ha ha
  case notNot =>
    intro n
    have htwice := exec_not_bool y (bitOf_wire_drive s n (boolNot x))
    rw [boolNot_boolNot] at htwice
    exact ⟨exec_not_bool y ha, htwice⟩

/-- Settles O13: each block drives its function, so a corner case of the block is one of the function. -/
theorem adderBlockAndMuxCornerCases : Obligations.AdderBlockAndMuxCornerCases := by
  unfold Obligations.AdderBlockAndMuxCornerCases
  intro s a b c u v x z k ha hb hc given
  have hopen : s.carryOf none = some .LOW := rfl
  refine ⟨?halfAdderLow, ?halfAdderSelf, ?halfAdder, ?fullAdder, fullAdder_terms_exclusive x z k,
    muxGate_self x k ▸ exec_mux ha ha hc u, ?lowHigh, ?highLow⟩
  case halfAdderLow =>
    have hexec := exec_ha ha (bitOf_lit s .LOW) u v
    rw [halfAdder_low] at hexec
    exact hexec
  case halfAdderSelf =>
    have hexec := exec_ha ha ha u v
    rw [halfAdder_self] at hexec
    exact hexec
  case halfAdder =>
    exact ⟨_, _, exec_ha ha hb u v, halfAdder_comm z x ▸ exec_ha hb ha u v, fullAdder_low x z ▸ exec_fa ha hb hopen u v⟩
  case fullAdder =>
    exact ⟨_, _, exec_fa ha hb (carryOf_of_bitOf hc) u v, fullAdder_comm z x k ▸ exec_fa hb ha (carryOf_of_bitOf hc) u v,
      fullAdder_right_comm x k z ▸ exec_fa ha hc (carryOf_of_bitOf hb) u v⟩
  case lowHigh =>
    rintro rfl rfl
    exact muxGate_low_high k ▸ exec_mux ha hb hc u
  case highLow =>
    rintro rfl rfl
    exact muxGate_high_low k ▸ exec_mux ha hb hc u

end

section
/-! The NOR table as primitive (spec/95_test_vectors.md section 2.9): NOR is the dual of NAND, so each bit cell becomes its own
dual, and the word cells follow position by position. -/

namespace Sys2Proof.Machine

open Sys2Proof

/-! ### Word cells from their bit cells -/

/-- Two multiplexers that agree with their data exchanged agree so on whole words. -/
theorem wordMux_swap {g h : Prim} {k : Bit} (hmux : ∀ a b, muxGate g a b k = muxGate h b a k) (A B : Word) :
    wordMux g A B k = wordMux h B A k := by
  simp only [wordMux, hmux]
  exact List.zipWith_comm

/-- The word adder looks at the primitive through the full-adder alone. -/
theorem rippleAdd_congr {g h : Prim} (hfull : ∀ a b c, fullAdder g a b c = fullAdder h a b c) (A B : Word) (k : Bit) :
    rippleAdd g A B k = rippleAdd h A B k := by
  induction A generalizing B with
  | nil => rfl
  | cons a A ih =>
    cases B with
    | nil => rfl
    | cons b B => rw [rippleAdd_cons, rippleAdd_cons, ih, hfull]

/-! ### The bit cells over NOR -/

/-- The row `NOR table` of section 2.9. -/
def norPrim : Prim := fun a b => boolNot (boolOr a b)

theorem notGate_norPrim (a : Bit) : notGate norPrim a = boolNot a := by simp [notGate, norPrim]

theorem andGate_norPrim : andGate norPrim = orGate nandGate := by
  funext a b
  rw [andGate, notGate_norPrim, norPrim, boolNot_boolNot, orGate_nand]

theorem orGate_norPrim : orGate norPrim = andGate nandGate := by
  funext a b
  cases a <;> cases b <;> rfl

/-- OR of ANDs becomes AND of ORs, in which the select masks the other input. -/
theorem muxGate_norPrim (a b k : Bit) : muxGate norPrim a b k = muxGate nandGate b a k := by
  cases a <;> cases b <;> cases k <;> rfl

/-- The full-adder is its own dual. -/
theorem fullAdder_norPrim (a b c : Bit) : fullAdder norPrim a b c = fullAdder nandGate a b c := by
  cases a <;> cases b <;> cases c <;> rfl

end Sys2Proof.Machine

open Sys2Proof Sys2Proof.Machine

/-- Settles O8: every position of a word cell is one bit cell, and at the NOR table that cell is the dual's. -/
theorem norPrimitiveDualisesTheWordCells : Obligations.NorPrimitiveDualisesTheWordCells := by
  unfold Obligations.NorPrimitiveDualisesTheWordCells
  intro nor A B c _
  exact ⟨congrArg (lift2 · A B) andGate_norPrim, congrArg (lift2 · A B) orGate_norPrim,
    wordMux_swap (fun a b => muxGate_norPrim a b c) A B, rippleAdd_congr fullAdder_norPrim A B c⟩

end
